-- ==== Sys2Proof/Word.lean ====
section
/-! DEFINITION. The word types of base45_encoder: bytes and character codes, the two value registers' widths,
the digit registers' width, and a base-45 digit as a number (00_scope.md R5, R6). -/

namespace Sys2Proof

/-- A payload byte or a character code: `BYTE_W` = `CHAR_W` = 8 (R5). -/
abbrev Byte := BitVec 8

/-- The encoder's value register, `ENC_VAL_W` = 16 (R5). -/
abbrev Val16 := BitVec 16

/-- The decoder's value register, `DEC_VAL_W` = 17 (R5). -/
abbrev Val17 := BitVec 17

/-- A digit register, `DIG_W` = 6 (R5). -/
abbrev DigReg := BitVec 6

/-- A base-45 digit, an alphabet index 0..44 (glossary of 00_scope.md). -/
abbrev Digit := Fin 45

end Sys2Proof
end

