-- ==== Sys2Proof/Syntax.lean ====
section
/-! DEFINITION. The instruction set of base45_encoder: one constructor of `Instr` per row of opcode_table.json
(30_encoding.md R41), and the three kinds of code words its decoders read (R39, R40, R32). -/

namespace Sys2Proof

/-- The two units (R1): the encoder and the decoder. -/
inductive UnitId where
  | enc | dec
  deriving DecidableEq, Repr, Inhabited

/-- The address spaces of a unit that a descriptor names (20_memory.md R28, 30_encoding.md R40). -/
inductive Space where
  | reg | ibuf | obuf | reserved
  deriving DecidableEq, Repr

/-- The four host-visible registers of a unit (10_state.md R17). -/
inductive RegNum where
  | ctrl | status | ilen | olen
  deriving DecidableEq, Repr

/-- The accesses no legal row covers (30_encoding.md R40, R43): they select `HILL`. -/
inductive IllegalKind where
  /-- descriptor u010 -/
  | ibufRead
  /-- descriptor u101 -/
  | obufWrite
  /-- descriptor u110 -/
  | reservedRead
  /-- descriptor u111 -/
  | reservedWrite
  /-- descriptor u000 with a register number above 3 -/
  | regRead
  /-- descriptor u001 with a register number above 3 -/
  | regWrite
  deriving DecidableEq, Repr

/-- One access at the host port (42_host_transactions.md R68): the 4-bit descriptor, an index, a data word.
A read has no data word; its `data` is then ignored. -/
structure HostAccess where
  desc  : BitVec 4
  index : Nat
  data  : Nat
  deriving DecidableEq, Repr

/-- The words this hardware decodes, one constructor per format of opcode_table.json. -/
inductive Code where
  /-- format DISPATCH: the 5-bit key of R39 -/
  | key (k : BitVec 5)
  /-- format HOST: the 4-bit descriptor of R40 with its index and data -/
  | access (a : HostAccess)
  /-- format SYM: the 8-bit character code of R33 -/
  | char (c : Byte)
  deriving DecidableEq, Repr

/-- The operations of the hardware (R41) and the rows of the alphabet (R32), one constructor per row of
opcode_table.json. -/
inductive Instr where
  -- format DISPATCH
  | encEnd
  | enc1
  | enc2
  | decLenchk
  | decScan
  | decEnd
  | decBadrem
  | dec2
  | dec3
  -- format HOST
  | encStart
  | decStart
  | hrdReg (u : UnitId) (r : RegNum)
  | hwrReg (u : UnitId) (r : RegNum) (data : Nat)
  | hwrIbuf (u : UnitId) (index : Nat) (data : Nat)
  | hrdObuf (u : UnitId) (index : Nat)
  | hill (u : UnitId) (kind : IllegalKind) (index : Nat) (data : Nat)
  -- format SYM
  | sym00 | sym01 | sym02 | sym03 | sym04 | sym05 | sym06 | sym07 | sym08
  | sym09 | sym10 | sym11 | sym12 | sym13 | sym14 | sym15 | sym16 | sym17
  | sym18 | sym19 | sym20 | sym21 | sym22 | sym23 | sym24 | sym25 | sym26
  | sym27 | sym28 | sym29 | sym30 | sym31 | sym32 | sym33 | sym34 | sym35
  | sym36 | sym37 | sym38 | sym39 | sym40 | sym41 | sym42 | sym43 | sym44
  | invalidChar (c : Byte)
  deriving DecidableEq, Repr

end Sys2Proof
end

