-- ==== Sys2Proof/Config.lean ====
section
/-! DEFINITION. What an implementation fixes (the open parameters of 00_scope.md R5) and the free values: the
unspecified `draw` of R8 and the order of two sequencers that are both BUSY (10_state.md R9). -/

namespace Sys2Proof

/-- The two OPEN parameters of R5. Every rule holds for every legal value of them, so they are data the state
carries and no step changes (log 1). -/
structure Config where
  /-- `ENC_LEN_W` -/
  encLenW : Nat
  /-- `DEC_LEN_W` -/
  decLenW : Nat
  deriving DecidableEq, Repr

/-- `draw` (R8): "an unspecified 8-bit or register-width value, chosen afresh at each use, under no law". A free
value: no body, applied to the width and to the count of draws made so far (log 7). -/
opaque Config.draw (w : Nat) (n : Nat) : BitVec w

/-- Which of two BUSY units steps next when nothing outside fixes it: "Steps of different agents interleave in any
order" (R9). A free value: no body (log 3). -/
opaque Config.freeUnit (n : Nat) : UnitId

end Sys2Proof
end

