-- ==== Sys2Proof/Machine/Operands.lean ====
section
/-! DEFINITION. The operand forms and the combinational functions: the two ROMs (30_encoding.md R32, R34), the value
assembly of R37, the functions PACK16, DIG45, A2C, C2D, MAC45, UNPACK16 (40_encoder_ops.md R46 to R48,
41_decoder_ops.md R55 to R57), and the capacities derived from the open parameters (00_scope.md R5). -/

namespace Sys2Proof

/-! ### Capacities (R5, R17) -/

/-- `U_LEN_W` of a unit. -/
def Config.lenW (cfg : Config) : UnitId → Nat
  | .enc => cfg.encLenW
  | .dec => cfg.decLenW

/-- `ENC_CAP` or `DEC_CAP` plus one: the number of entries of `U.IBUF`, 2^U_LEN_W (R12, R13). -/
def Config.inEntries (cfg : Config) (u : UnitId) : Nat := 2 ^ cfg.lenW u

/-- `ENC_OCAP` = 3 * 2^(ENC_LEN_W-1) - 1 (R5). -/
def Config.encOcap (cfg : Config) : Nat := 3 * 2 ^ (cfg.encLenW - 1) - 1

/-- `DEC_OCAP` = 2 * floor(DEC_CAP / 3) + 1 (R5). -/
def Config.decOcap (cfg : Config) : Nat := 2 * ((2 ^ cfg.decLenW - 1) / 3) + 1

/-- The number of entries of `U.OBUF` (R12, R13). -/
def Config.outEntries (cfg : Config) : UnitId → Nat
  | .enc => cfg.encOcap
  | .dec => cfg.decOcap

/-- `HDATA_W` = max(ENC_LEN_W + 1, DEC_LEN_W, 8) (R17). -/
def Config.hdataW (cfg : Config) : Nat := max (max (cfg.encLenW + 1) cfg.decLenW) 8

/-! ### The constant tables (R11) -/

/-- The contents of `ALUT`, index 0..44 (R32). -/
def alutRom : List Byte :=
  [0x30, 0x31, 0x32, 0x33, 0x34, 0x35, 0x36, 0x37, 0x38] ++
  [0x39, 0x41, 0x42, 0x43, 0x44, 0x45, 0x46, 0x47, 0x48] ++
  [0x49, 0x4A, 0x4B, 0x4C, 0x4D, 0x4E, 0x4F, 0x50, 0x51] ++
  [0x52, 0x53, 0x54, 0x55, 0x56, 0x57, 0x58, 0x59, 0x5A] ++
  [0x20, 0x24, 0x25, 0x2A, 0x2B, 0x2D, 0x2E, 0x2F, 0x3A]

/-- The contents of `DLUT`, code 0..255, one row of the table of R34 a line; `0xFF` is `INVALID` (R35). -/
def dlutRom : List Byte :=
  [0xFF, 0xFF, 0xFF, 0xFF, 0xFF, 0xFF, 0xFF, 0xFF, 0xFF, 0xFF, 0xFF, 0xFF, 0xFF, 0xFF, 0xFF, 0xFF] ++
  [0xFF, 0xFF, 0xFF, 0xFF, 0xFF, 0xFF, 0xFF, 0xFF, 0xFF, 0xFF, 0xFF, 0xFF, 0xFF, 0xFF, 0xFF, 0xFF] ++
  [0x24, 0xFF, 0xFF, 0xFF, 0x25, 0x26, 0xFF, 0xFF, 0xFF, 0xFF, 0x27, 0x28, 0xFF, 0x29, 0x2A, 0x2B] ++
  [0x00, 0x01, 0x02, 0x03, 0x04, 0x05, 0x06, 0x07, 0x08, 0x09, 0x2C, 0xFF, 0xFF, 0xFF, 0xFF, 0xFF] ++
  [0xFF, 0x0A, 0x0B, 0x0C, 0x0D, 0x0E, 0x0F, 0x10, 0x11, 0x12, 0x13, 0x14, 0x15, 0x16, 0x17, 0x18] ++
  [0x19, 0x1A, 0x1B, 0x1C, 0x1D, 0x1E, 0x1F, 0x20, 0x21, 0x22, 0x23, 0xFF, 0xFF, 0xFF, 0xFF, 0xFF] ++
  [0xFF, 0xFF, 0xFF, 0xFF, 0xFF, 0xFF, 0xFF, 0xFF, 0xFF, 0xFF, 0xFF, 0xFF, 0xFF, 0xFF, 0xFF, 0xFF] ++
  [0xFF, 0xFF, 0xFF, 0xFF, 0xFF, 0xFF, 0xFF, 0xFF, 0xFF, 0xFF, 0xFF, 0xFF, 0xFF, 0xFF, 0xFF, 0xFF] ++
  [0xFF, 0xFF, 0xFF, 0xFF, 0xFF, 0xFF, 0xFF, 0xFF, 0xFF, 0xFF, 0xFF, 0xFF, 0xFF, 0xFF, 0xFF, 0xFF] ++
  [0xFF, 0xFF, 0xFF, 0xFF, 0xFF, 0xFF, 0xFF, 0xFF, 0xFF, 0xFF, 0xFF, 0xFF, 0xFF, 0xFF, 0xFF, 0xFF] ++
  [0xFF, 0xFF, 0xFF, 0xFF, 0xFF, 0xFF, 0xFF, 0xFF, 0xFF, 0xFF, 0xFF, 0xFF, 0xFF, 0xFF, 0xFF, 0xFF] ++
  [0xFF, 0xFF, 0xFF, 0xFF, 0xFF, 0xFF, 0xFF, 0xFF, 0xFF, 0xFF, 0xFF, 0xFF, 0xFF, 0xFF, 0xFF, 0xFF] ++
  [0xFF, 0xFF, 0xFF, 0xFF, 0xFF, 0xFF, 0xFF, 0xFF, 0xFF, 0xFF, 0xFF, 0xFF, 0xFF, 0xFF, 0xFF, 0xFF] ++
  [0xFF, 0xFF, 0xFF, 0xFF, 0xFF, 0xFF, 0xFF, 0xFF, 0xFF, 0xFF, 0xFF, 0xFF, 0xFF, 0xFF, 0xFF, 0xFF] ++
  [0xFF, 0xFF, 0xFF, 0xFF, 0xFF, 0xFF, 0xFF, 0xFF, 0xFF, 0xFF, 0xFF, 0xFF, 0xFF, 0xFF, 0xFF, 0xFF] ++
  [0xFF, 0xFF, 0xFF, 0xFF, 0xFF, 0xFF, 0xFF, 0xFF, 0xFF, 0xFF, 0xFF, 0xFF, 0xFF, 0xFF, 0xFF, 0xFF]

/-- `A2C(d)`, the alphabet lookup `ALUT[d]` (R48). -/
def a2c (d : Digit) : Byte := alutRom.getD d.val 0

/-- The word `DLUT[c]` (R34, R35). -/
def dlut (c : Byte) : Byte := dlutRom.getD c.toNat 0xFF

/-- The digit a `DLUT` word stands for: "a valid word has bits 7:6 = 0 and bits 5:0 = the index"; `INVALID` gives
none (R35). -/
def digitOf (w : Byte) : Option Digit :=
  if h : w.toNat < 45 then some ⟨w.toNat, h⟩ else none

/-- `C2D(c)`, the decode-table lookup and character validation (R55); `none` is `INVALID`. -/
def c2d (c : Byte) : Option Digit := digitOf (dlut c)

/-! ### Encoder functions -/

/-- `PACK16(b0, b1)` = `b0*256 + b1` (R46): big-endian (R22). -/
def pack16 (b0 b1 : Byte) : Val16 := BitVec.ofNat 16 (b0.toNat * 256 + b1.toNat)

/-- The three digit positions `k` of `DIG45`: weights 1, 45, 2025 (R47). -/
inductive DigitPos where
  | ones | fortyFives | twentyTwentyFives
  deriving DecidableEq, Repr

/-- `DIG45(v, k)`, the digit extraction by modular arithmetic (R47). -/
def dig45 (v : Val16) : DigitPos → Digit
  | .ones => ⟨v.toNat % 45, Nat.mod_lt _ (by decide)⟩
  | .fortyFives => ⟨v.toNat / 45 % 45, Nat.mod_lt _ (by decide)⟩
  | .twentyTwentyFives => ⟨v.toNat / 2025 % 45, Nat.mod_lt _ (by decide)⟩

/-- A digit as a digit register holds it (R12, R13). -/
def digReg (d : Digit) : DigReg := BitVec.ofNat 6 d.val

/-! ### Decoder functions -/

/-- `MAC45(d0, d1, d2)` = `d0 + 45*d1 + 2025*d2` in 17 bits (R56). -/
def mac45 (d0 d1 d2 : Digit) : Val17 := BitVec.ofNat 17 (d0.val + 45 * d1.val + 2025 * d2.val)

/-- `UNPACK16(v)` = `(v div 256, v mod 256)`, the more significant byte first (R57, R22). -/
def unpack16 (v : Val16) : Byte × Byte := (BitVec.ofNat 8 (v.toNat / 256), BitVec.ofNat 8 (v.toNat % 256))

end Sys2Proof
end

