-- ==== Sys2Proof/WellFormed.lean ====
section
/-! DEFINITION. Which terms of `Instr` and which host accesses are instructions of a hardware with given widths: the
operands fit the fields the spec gives them (30_encoding.md R40, R43; 42_host_transactions.md R68, R71). -/

namespace Sys2Proof

/-- The open parameters are integers of at least 1 (00_scope.md R5). -/
def Config.Legal (cfg : Config) : Bool := decide (1 ≤ cfg.encLenW) && decide (1 ≤ cfg.decLenW)

/-- A read access carries no data word (30_encoding.md R40: "for a write, a data word"). -/
def IllegalKind.isRead : IllegalKind → Bool
  | .ibufRead | .reservedRead | .regRead => true
  | .obufWrite | .reservedWrite | .regWrite => false

/-- The data word of a write is `HDATA_W` bits wide (R40, R17). -/
def Config.dataFits (cfg : Config) (data : Nat) : Bool := decide (data < 2 ^ cfg.hdataW)

/-- Well-formedness of an instruction for the widths `cfg`. -/
def WellFormed (cfg : Config) : Instr → Bool
  | .hwrReg _ _ data => cfg.dataFits data
  -- "The index is `U_LEN_W` bits wide" (R71)
  | .hwrIbuf u index data => decide (index < cfg.inEntries u) && cfg.dataFits data
  -- a REG access is illegal only for a register number above 3 (R43); a read has no data word
  | .hill _ kind index data =>
    (match kind with
      | .regRead | .regWrite => decide (4 ≤ index)
      | _ => true) &&
    (if kind.isRead then decide (data = 0) else cfg.dataFits data)
  -- "any of the 211 codes no SYM row matches" (opcode_table.json, R34)
  | .invalidChar c => (c2d c).isNone
  | _ => true

/-- A host access the port can present with the widths `cfg`: the data word fits `HDATA_W`, and the index of an
`IBUF` write is `U_LEN_W` bits wide (R40, R68, R71). -/
def HostAccess.WellFormed (cfg : Config) (a : HostAccess) : Bool :=
  cfg.dataFits a.data &&
    (if a.desc = 0b0011 then decide (a.index < cfg.inEntries .enc)
      else if a.desc = 0b1011 then decide (a.index < cfg.inEntries .dec)
      else true)

/-- A code word as the hardware meets it: a presentable access; every key and every character code is one. -/
def Code.WellFormed (cfg : Config) : Code → Bool
  | .access a => a.WellFormed cfg
  | _ => true

end Sys2Proof
end

