-- ==== Sys2Proof/Decode.lean ====
section
/-! DEFINITION. The decoders, total on every code word, and the encoder: the dispatch key of a sequencer
(30_encoding.md R39), the descriptor of a host access (R40, R43), the character code (R32, R34); and the reading of
opcode_table.json's own words (log 12). -/

namespace Sys2Proof

/-- Why a code word has no instruction. Only a dispatch key that no unit can form has none (log 10). -/
inductive Reject where
  /-- no row of R39's table applies to the key -/
  | unassignedKey (k : BitVec 5)
  deriving DecidableEq, Repr

/-! ### The dispatch key (R39) -/

/-- One row of a table of patterns: it applies to a key `k` when `(k AND mask) = match`. -/
structure KeyRow where
  pattern : BitVec 5
  mask    : BitVec 5
  instr   : Instr
  deriving DecidableEq, Repr

/-- The row applies to the key. -/
def KeyRow.applies (r : KeyRow) (k : BitVec 5) : Bool := k &&& r.mask == r.pattern

/-- The table of R39, in its order, which is the file order of opcode_table.json. -/
def dispatchRows : List KeyRow :=
  [⟨0b00000, 0b11001, .encEnd⟩,
   ⟨0b00001, 0b11011, .enc1⟩,
   ⟨0b00010, 0b11010, .enc2⟩,
   ⟨0b10000, 0b11001, .decLenchk⟩,
   ⟨0b10001, 0b11001, .decScan⟩,
   ⟨0b11000, 0b11001, .decEnd⟩,
   ⟨0b11001, 0b11011, .decBadrem⟩,
   ⟨0b11010, 0b11110, .dec2⟩,
   ⟨0b11100, 0b11100, .dec3⟩]

/-- The operation a dispatch key selects: the first row that applies (R39; log 10). -/
def decodeKey (k : BitVec 5) : Except Reject Instr :=
  match dispatchRows.find? (·.applies k) with
  | some r => .ok r.instr
  | none => .error (.unassignedKey k)

/-! ### The host descriptor (R40) -/

/-- Descriptor bit 3, `UNIT` (R40). -/
def HostAccess.unit (a : HostAccess) : UnitId := if a.desc.getLsbD 3 then .dec else .enc

/-- Descriptor bits 2:1, `SPACE`: 0 `REG`, 1 `IBUF`, 2 `OBUF`, 3 reserved (R40). -/
def HostAccess.space (a : HostAccess) : Space :=
  match a.desc.getLsbD 2, a.desc.getLsbD 1 with
  | false, false => .reg
  | false, true => .ibuf
  | true, false => .obuf
  | true, true => .reserved

/-- Descriptor bit 0, `WE` (R40). -/
def HostAccess.we (a : HostAccess) : Bool := a.desc.getLsbD 0

/-- The register of a `REG` access: numbers 0 to 3 (R17); above 3 the access is `HILL` (R43). -/
def RegNum.ofIndex? : Nat → Option RegNum
  | 0 => some .ctrl
  | 1 => some .status
  | 2 => some .ilen
  | 3 => some .olen
  | _ => none

/-- The number of a register (R17). -/
def RegNum.index : RegNum → Nat
  | .ctrl => 0
  | .status => 1
  | .ilen => 2
  | .olen => 3

/-- `U.START` of a unit (R49, R58). -/
def startInstr : UnitId → Instr
  | .enc => .encStart
  | .dec => .decStart

/-- A write of register `r`. The START rows are sub-cases of `HWR.REG`: "index = 0, data bit 0 = 1, STATE != BUSY";
when these do not hold the plain row applies (R40, R41; log 16). -/
def decodeRegWrite (busy : Bool) (u : UnitId) (r : RegNum) (data : Nat) : Instr :=
  if r = .ctrl ∧ data % 2 = 1 ∧ busy = false then startInstr u else .hwrReg u r data

/-- The instruction of a host access; `busy` says whether the addressed unit is BUSY. Every access has one: what
no legal row covers is `HILL` (R40, R43). -/
def decodeAccess (busy : Bool) (a : HostAccess) : Instr :=
  match a.space, a.we with
  | .reg, false =>
    match RegNum.ofIndex? a.index with
    | some r => .hrdReg a.unit r
    | none => .hill a.unit .regRead a.index 0
  | .reg, true =>
    match RegNum.ofIndex? a.index with
    | some r => decodeRegWrite busy a.unit r a.data
    | none => .hill a.unit .regWrite a.index a.data
  | .ibuf, false => .hill a.unit .ibufRead a.index 0
  | .ibuf, true => .hwrIbuf a.unit a.index a.data
  | .obuf, false => .hrdObuf a.unit a.index
  | .obuf, true => .hill a.unit .obufWrite a.index a.data
  | .reserved, false => .hill a.unit .reservedRead a.index 0
  | .reserved, true => .hill a.unit .reservedWrite a.index a.data

/-! ### The character code (R32, R34) -/

/-- The rows of the ten digits (R32): a character code and its row. -/
def symDigitRows : List (Byte × Instr) :=
  [(0x30, .sym00), (0x31, .sym01), (0x32, .sym02), (0x33, .sym03), (0x34, .sym04),
   (0x35, .sym05), (0x36, .sym06), (0x37, .sym07), (0x38, .sym08), (0x39, .sym09)]

/-- The rows of the twenty-six letters (R32). -/
def symLetterRows : List (Byte × Instr) :=
  [(0x41, .sym10), (0x42, .sym11), (0x43, .sym12), (0x44, .sym13), (0x45, .sym14),
   (0x46, .sym15), (0x47, .sym16), (0x48, .sym17), (0x49, .sym18), (0x4A, .sym19),
   (0x4B, .sym20), (0x4C, .sym21), (0x4D, .sym22), (0x4E, .sym23), (0x4F, .sym24),
   (0x50, .sym25), (0x51, .sym26), (0x52, .sym27), (0x53, .sym28), (0x54, .sym29),
   (0x55, .sym30), (0x56, .sym31), (0x57, .sym32), (0x58, .sym33), (0x59, .sym34),
   (0x5A, .sym35)]

/-- The rows of the nine symbols (R32). -/
def symSymbolRows : List (Byte × Instr) :=
  [(0x20, .sym36), (0x24, .sym37), (0x25, .sym38), (0x2A, .sym39), (0x2B, .sym40),
   (0x2D, .sym41), (0x2E, .sym42), (0x2F, .sym43), (0x3A, .sym44)]

/-- The rows `SYM00` to `SYM44` (R32). -/
def symRows : List (Byte × Instr) := symDigitRows ++ symLetterRows ++ symSymbolRows

/-- The row of a character code: a `SYM` row, or the default row `INVALID_CHAR` (R34). -/
def decodeChar (c : Byte) : Instr :=
  match symRows.find? (fun r => r.1 == c) with
  | some r => r.2
  | none => .invalidChar c

/-- The digit a `SYM` row stands for, its field `index` in opcode_table.json. -/
def Instr.symIndex? : Instr → Option Digit
  | .sym00 => some 0
  | .sym01 => some 1
  | .sym02 => some 2
  | .sym03 => some 3
  | .sym04 => some 4
  | .sym05 => some 5
  | .sym06 => some 6
  | .sym07 => some 7
  | .sym08 => some 8
  | .sym09 => some 9
  | .sym10 => some 10
  | .sym11 => some 11
  | .sym12 => some 12
  | .sym13 => some 13
  | .sym14 => some 14
  | .sym15 => some 15
  | .sym16 => some 16
  | .sym17 => some 17
  | .sym18 => some 18
  | .sym19 => some 19
  | .sym20 => some 20
  | .sym21 => some 21
  | .sym22 => some 22
  | .sym23 => some 23
  | .sym24 => some 24
  | .sym25 => some 25
  | .sym26 => some 26
  | .sym27 => some 27
  | .sym28 => some 28
  | .sym29 => some 29
  | .sym30 => some 30
  | .sym31 => some 31
  | .sym32 => some 32
  | .sym33 => some 33
  | .sym34 => some 34
  | .sym35 => some 35
  | .sym36 => some 36
  | .sym37 => some 37
  | .sym38 => some 38
  | .sym39 => some 39
  | .sym40 => some 40
  | .sym41 => some 41
  | .sym42 => some 42
  | .sym43 => some 43
  | .sym44 => some 44
  | _ => none

/-! ### The whole decoder and the encoder -/

/-- Decode one code word; `busy` says whether the unit that a host access addresses is BUSY. -/
def decode (busy : Bool) : Code → Except Reject Instr
  | .key k => decodeKey k
  | .access a => .ok (decodeAccess busy a)
  | .char c => .ok (decodeChar c)

/-- The unit number of an address (20_memory.md R28). -/
def UnitId.code : UnitId → Nat
  | .enc => 0
  | .dec => 1

/-- The space number of an address (R28, R40). -/
def Space.code : Space → Nat
  | .reg => 0
  | .ibuf => 1
  | .obuf => 2
  | .reserved => 3

/-- The descriptor `{UNIT, SPACE, WE}` (R40). -/
def descOf (u : UnitId) (sp : Space) (we : Bool) : BitVec 4 :=
  BitVec.ofNat 4 (8 * u.code + 2 * sp.code + we.toNat)

/-- The descriptor of an illegal access (R40, R43). -/
def IllegalKind.desc (u : UnitId) : IllegalKind → BitVec 4
  | .ibufRead => descOf u .ibuf false
  | .obufWrite => descOf u .obuf true
  | .reservedRead => descOf u .reserved false
  | .reservedWrite => descOf u .reserved true
  | .regRead => descOf u .reg false
  | .regWrite => descOf u .reg true

/-- The code word of an instruction. Bits the spec calls `x` in a key are those of the least remaining count that
forms the key; ignored data bits are 0. -/
def encode : Instr → Code
  | .encEnd => .key 0b00000
  | .enc1 => .key 0b00001
  | .enc2 => .key 0b00011
  | .decLenchk => .key 0b10000
  | .decScan => .key 0b10001
  | .decEnd => .key 0b11000
  | .decBadrem => .key 0b11001
  | .dec2 => .key 0b11011
  | .dec3 => .key 0b11111
  | .encStart => .access ⟨0b0001, 0, 1⟩
  | .decStart => .access ⟨0b1001, 0, 1⟩
  | .hrdReg u r => .access ⟨descOf u .reg false, r.index, 0⟩
  | .hwrReg u r data => .access ⟨descOf u .reg true, r.index, data⟩
  | .hwrIbuf u index data => .access ⟨descOf u .ibuf true, index, data⟩
  | .hrdObuf u index => .access ⟨descOf u .obuf false, index, 0⟩
  | .hill u kind index data => .access ⟨kind.desc u, index, data⟩
  | .sym00 => .char 0x30
  | .sym01 => .char 0x31
  | .sym02 => .char 0x32
  | .sym03 => .char 0x33
  | .sym04 => .char 0x34
  | .sym05 => .char 0x35
  | .sym06 => .char 0x36
  | .sym07 => .char 0x37
  | .sym08 => .char 0x38
  | .sym09 => .char 0x39
  | .sym10 => .char 0x41
  | .sym11 => .char 0x42
  | .sym12 => .char 0x43
  | .sym13 => .char 0x44
  | .sym14 => .char 0x45
  | .sym15 => .char 0x46
  | .sym16 => .char 0x47
  | .sym17 => .char 0x48
  | .sym18 => .char 0x49
  | .sym19 => .char 0x4A
  | .sym20 => .char 0x4B
  | .sym21 => .char 0x4C
  | .sym22 => .char 0x4D
  | .sym23 => .char 0x4E
  | .sym24 => .char 0x4F
  | .sym25 => .char 0x50
  | .sym26 => .char 0x51
  | .sym27 => .char 0x52
  | .sym28 => .char 0x53
  | .sym29 => .char 0x54
  | .sym30 => .char 0x55
  | .sym31 => .char 0x56
  | .sym32 => .char 0x57
  | .sym33 => .char 0x58
  | .sym34 => .char 0x59
  | .sym35 => .char 0x5A
  | .sym36 => .char 0x20
  | .sym37 => .char 0x24
  | .sym38 => .char 0x25
  | .sym39 => .char 0x2A
  | .sym40 => .char 0x2B
  | .sym41 => .char 0x2D
  | .sym42 => .char 0x2E
  | .sym43 => .char 0x2F
  | .sym44 => .char 0x3A
  | .invalidChar c => .char c

/-- The unit's `STATE` under which the instruction's word selects it: a START row needs the unit not BUSY, and a
write of 1 to `CTRL` is a plain `HWR.REG` only while the unit is BUSY (opcode_table.json, R69). -/
def Instr.selectedWhen (busy : Bool) : Instr → Bool
  | .encStart | .decStart => !busy
  | .hwrReg _ .ctrl data => busy || data % 2 == 0
  | _ => true

/-! ### The words of opcode_table.json

The table gives three formats and no bits that tell them apart; this reading is the model's (log 12). -/

/-- The key a unit forms from the `GE` bits of a table word: `GE3` implies `GE2` implies `GE1` (R39). -/
def closeKey (k : BitVec 5) : BitVec 5 :=
  let k := if k.getLsbD 2 then k ||| 0b00010 else k
  if k.getLsbD 1 then k ||| 0b00001 else k

/-- The code word a word of opcode_table.json stands for. -/
def tableCode (nbits w : Nat) : Code :=
  if nbits ≤ 8 then
    if w < 0x10 ∧ w ≠ 0 ∧ w ≠ 1 ∧ w ≠ 2 then .access ⟨BitVec.ofNat 4 w, 0, 0⟩
    else if w < 0x20 then .key (closeKey (BitVec.ofNat 5 w))
    else .char (BitVec.ofNat 8 w)
  else if nbits = 16 ∧ w &&& 0x7777 = 0x2567 then .access ⟨BitVec.ofNat 4 w, 0, 0⟩
  else .char (BitVec.ofNat 8 w)

/-- The instruction the decoder reads from a word of opcode_table.json. -/
def decodeTableWord (nbits w : Nat) : Option Instr :=
  match decode false (tableCode nbits w) with
  | .ok i => some i
  | .error _ => none

end Sys2Proof
end

