-- ==== Sys2Proof/Machine/State.lean ====
section
/-! DEFINITION. The state of base45_encoder: everything 10_state.md gives the encoder unit, the decoder unit and the
host port, the open parameters, and the events still to come; the faults and refusals; the state after reset (R20). -/

namespace Sys2Proof.Machine

/-- A buffer: (index, byte) pairs in strictly rising order of the index. An index that is not listed holds no value:
nothing has written it since reset (R20, 93_implementation_defined.md U1; log 6). -/
abbrev Memory := List Host.Cell

/-- `ENC.STATE` (R12): "the value 3 is never taken". -/
inductive EncState where
  | idle | busy | done
  deriving DecidableEq, Repr

/-- `DEC.STATE` (R13). -/
inductive DecState where
  | idle | busy | done | error
  deriving DecidableEq, Repr

/-- `DEC.CAUSE` (60_exceptions.md R90); codes 5 to 7 are never produced. -/
inductive Cause where
  | none | char | length | range16 | range8
  deriving DecidableEq, Repr

/-- `DEC.PHASE` (R13). -/
inductive Phase where
  | scan | group
  deriving DecidableEq, Repr

/-- The encoder unit "holds exactly this state" (R12). Lengths and pointers are counts; that they fit their
registers is an invariant (log 18). -/
structure EncUnit where
  ibuf  : Memory
  ilen  : Nat
  obuf  : Memory
  olen  : Nat
  state : EncState
  rp    : Nat
  wp    : Nat
  val   : Val16
  dg0   : DigReg
  dg1   : DigReg
  dg2   : DigReg
  deriving DecidableEq, Repr

/-- The decoder unit "holds exactly this state" (R13). -/
structure DecUnit where
  ibuf  : Memory
  ilen  : Nat
  obuf  : Memory
  olen  : Nat
  state : DecState
  cause : Cause
  phase : Phase
  rp    : Nat
  wp    : Nat
  val   : Val17
  dg0   : DigReg
  dg1   : DigReg
  dg2   : DigReg
  deriving DecidableEq, Repr

/-- One entry of the total order of steps (20_memory.md R29). -/
inductive Event where
  /-- the host makes an access (R68) -/
  | access (a : HostAccess)
  /-- a sequencer has its turn (R9) -/
  | seq (u : UnitId)
  /-- reset (70_reset_and_hazards.md R97) -/
  | reset
  deriving DecidableEq, Repr

/-- The machine's state. -/
structure State where
  /-- the open parameters (R5), never changed (log 1) -/
  cfg    : Config
  /-- the encoder unit (R12) -/
  enc    : EncUnit
  /-- the decoder unit (R13) -/
  dec    : DecUnit
  /-- `h_rdata`: what the last read access returned (R70, R72, R73, D16; log 8) -/
  hrdata : Nat
  /-- how many free values have been used: the model's own (log 7) -/
  draws  : Nat
  /-- the events still to come, in order: the model's own (log 2) -/
  agenda : List Event
  deriving DecidableEq, Repr

/-- Why a step stops the machine with a fault. -/
inductive Fault where
  /-- Raised by ENC2, ENC1, DEC.SCAN, DEC3, DEC2: the sequencer reads an input entry the host has not written since
  reset (R98, U1: "`fault`: the run is faulted and no claim holds of it"). Safe. -/
  | ibufUnwritten (u : UnitId) (index : Nat)
  /-- Raised by ENC2, ENC1, DEC3, DEC2: the output entry lies beyond the buffer's depth, so it does not exist (R12,
  R13). No step from a state that keeps the machine's invariant raises it (R77; log 15). Safe. -/
  | obufRange (u : UnitId) (index : Nat)
  /-- Raised by DEC3, DEC2: a character of a group is not a digit, which R61 says cannot be (log 14). Safe. -/
  | groupCharInvalid (c : Byte)
  deriving DecidableEq, Repr

/-- Why an instruction has no meaning. -/
inductive Refusal where
  /-- Raised by an arm of `exec` that has no meaning yet. Safe. -/
  | notModelled (mnemonic : String)
  /-- Raised by `step` for a dispatch key no row of R39 assigns; no unit can form one (log 10). Safe. -/
  | unassignedKey (k : BitVec 5)
  deriving DecidableEq, Repr

/-- What a step or a meaning answers. -/
abbrev Result := Host.Outcome State Fault Refusal

/-- The encoder unit after reset (R20); `VAL` and the digits are unspecified there and named in log 5. -/
def EncUnit.reset : EncUnit :=
  { ibuf := [], ilen := 0, obuf := [], olen := 0, state := .idle, rp := 0, wp := 0,
    val := 0, dg0 := 0, dg1 := 0, dg2 := 0 }

/-- The decoder unit after reset (R20); `VAL` and the digits are unspecified there and named in log 5. -/
def DecUnit.reset : DecUnit :=
  { ibuf := [], ilen := 0, obuf := [], olen := 0, state := .idle, cause := .none, phase := .scan,
    rp := 0, wp := 0, val := 0, dg0 := 0, dg1 := 0, dg2 := 0 }

/-- The state right after reset for given widths (R20). -/
def State.resetOf (cfg : Config) : State :=
  { cfg := cfg, enc := EncUnit.reset, dec := DecUnit.reset, hrdata := 0, draws := 0, agenda := [] }

/-- The state right after reset (R20), with the widths of log 1. -/
def State.reset : State := State.resetOf { encLenW := 16, decLenW := 16 }

end Sys2Proof.Machine
end

