-- ==== Sys2Proof/Machine/Ops.lean ====
section
/-! DEFINITION. The named operations over buffers and registers: reading and writing an entry, the updates of the two
units, a sequencer's reads and writes, the decoder's failure `DEC.FAIL` and its return `DEC.START`, reset, and the
unspecified `draw`. -/

namespace Sys2Proof.Machine

/-! ### Buffers (20_memory.md R25, R27) -/

/-- Entry `i` of a buffer: `none` if nothing has written it since reset. -/
def Memory.read : Memory → Nat → Option Byte
  | [], _ => none
  | (k, v) :: rest, i => if k = i then some v else Memory.read rest i

/-- Write entry `i`, keeping the entries in strictly rising order. -/
def Memory.write : Memory → Nat → Byte → Memory
  | [], i, b => [(i, b)]
  | (k, v) :: rest, i, b =>
    if i < k then (i, b) :: (k, v) :: rest
    else if i = k then (i, b) :: rest
    else (k, v) :: Memory.write rest i b

/-- Write consecutive entries from `i` on. -/
def Memory.writeList : Memory → Nat → List Byte → Memory
  | m, _, [] => m
  | m, i, b :: bs => Memory.writeList (m.write i b) (i + 1) bs

/-- The canonical form: indices strictly rising. -/
def Memory.wf : Memory → Bool
  | [] => true
  | [_] => true
  | (k, _) :: (k', v') :: rest => decide (k < k') && Memory.wf ((k', v') :: rest)

/-! ### Updates of the encoder unit (R12) -/

/-- `ENC.START` (R49). -/
def EncUnit.start (e : EncUnit) : EncUnit := { e with rp := 0, wp := 0, olen := 0, state := .busy }

/-- `ENC.END` (R52). -/
def EncUnit.finish (e : EncUnit) : EncUnit := { e with olen := e.wp, state := .done }

/-- The datapath writes of `ENC1`: `DG2` unchanged (R51). -/
def EncUnit.latch2 (e : EncUnit) (v : Val16) (d0 d1 : Digit) : EncUnit :=
  { e with val := v, dg0 := digReg d0, dg1 := digReg d1 }

/-- The datapath writes of `ENC2` (R50). -/
def EncUnit.latch3 (e : EncUnit) (v : Val16) (d0 d1 d2 : Digit) : EncUnit :=
  { e with val := v, dg0 := digReg d0, dg1 := digReg d1, dg2 := digReg d2 }

/-- Consume `n` input entries and produce the entries `out` at the write pointer (R50, R51). -/
def EncUnit.advance (e : EncUnit) (n : Nat) (out : List Byte) : EncUnit :=
  { e with obuf := e.obuf.writeList e.wp out, rp := e.rp + n, wp := e.wp + out.length }

/-! ### Updates of the decoder unit (R13) -/

/-- `DEC.START` (R58): also the way out of `ERROR` (60_exceptions.md R94). -/
def DecUnit.start (d : DecUnit) : DecUnit :=
  { d with rp := 0, wp := 0, olen := 0, cause := .none, phase := .scan, state := .busy }

/-- `DEC.END` (R64). -/
def DecUnit.finish (d : DecUnit) : DecUnit := { d with olen := d.wp, state := .done }

/-- `DEC.FAIL(c)` (R65, R93): what `raise InvalidEncoding(c)` does. -/
def DecUnit.fail (d : DecUnit) (c : Cause) : DecUnit := { d with cause := c, olen := 0, state := .error }

/-- The character at the read pointer passed `DEC.SCAN` (R59). -/
def DecUnit.scanned (d : DecUnit) : DecUnit := { d with rp := d.rp + 1 }

/-- `DEC.LENCHK` passed: turn to the group phase (R60). -/
def DecUnit.toGroup (d : DecUnit) : DecUnit := { d with rp := 0, phase := .group }

/-- The datapath writes of `DEC2`: `DG2` unchanged (R62). -/
def DecUnit.latch2 (d : DecUnit) (v : Val17) (d0 d1 : Digit) : DecUnit :=
  { d with val := v, dg0 := digReg d0, dg1 := digReg d1 }

/-- The datapath writes of `DEC3` (R61). -/
def DecUnit.latch3 (d : DecUnit) (v : Val17) (d0 d1 d2 : Digit) : DecUnit :=
  { d with val := v, dg0 := digReg d0, dg1 := digReg d1, dg2 := digReg d2 }

/-- Consume `n` input entries and produce the entries `out` at the write pointer (R61, R62). -/
def DecUnit.advance (d : DecUnit) (n : Nat) (out : List Byte) : DecUnit :=
  { d with obuf := d.obuf.writeList d.wp out, rp := d.rp + n, wp := d.wp + out.length }

/-! ### Updates and views of the whole state -/

/-- Replace the encoder unit. -/
def State.withEnc (s : State) (e : EncUnit) : State := { s with enc := e }

/-- Replace the decoder unit. -/
def State.withDec (s : State) (d : DecUnit) : State := { s with dec := d }

/-- A read access returns `v` (R70, R72): the one home of what the host port carries out. -/
def State.withRdata (s : State) (v : Nat) : State := { s with hrdata := v }

/-- A read access returns `draw` at the port's width (R72, R73; log 7). -/
def State.drawRdata (s : State) : State :=
  { s with hrdata := (Config.draw s.cfg.hdataW s.draws).toNat, draws := s.draws + 1 }

/-- `U.IBUF`. -/
def State.ibuf (s : State) : UnitId → Memory
  | .enc => s.enc.ibuf
  | .dec => s.dec.ibuf

/-- `U.OBUF`. -/
def State.obuf (s : State) : UnitId → Memory
  | .enc => s.enc.obuf
  | .dec => s.dec.obuf

/-- `U.ILEN`. -/
def State.ilen (s : State) : UnitId → Nat
  | .enc => s.enc.ilen
  | .dec => s.dec.ilen

/-- `U.OLEN`. -/
def State.olen (s : State) : UnitId → Nat
  | .enc => s.enc.olen
  | .dec => s.dec.olen

/-- `U.RP`. -/
def State.rp (s : State) : UnitId → Nat
  | .enc => s.enc.rp
  | .dec => s.dec.rp

/-- `U.WP`. -/
def State.wp (s : State) : UnitId → Nat
  | .enc => s.enc.wp
  | .dec => s.dec.wp

/-- `U.START` (R49, R58), the effect shared by the START rows and by a write of `CTRL` (R69). -/
def State.start (s : State) : UnitId → State
  | .enc => s.withEnc s.enc.start
  | .dec => s.withDec s.dec.start

/-- `U.ILEN <- v[U_LEN_W-1:0]` (R69): wider values are cut to the low `U_LEN_W` bits. -/
def State.writeIlen (s : State) (u : UnitId) (v : Nat) : State :=
  match u with
  | .enc => s.withEnc { s.enc with ilen := v % s.cfg.inEntries .enc }
  | .dec => s.withDec { s.dec with ilen := v % s.cfg.inEntries .dec }

/-- `U.IBUF[i] <- v[7:0]` (R71); "The index is `U_LEN_W` bits wide, so every index is in range" (log 9). -/
def State.writeIbuf (s : State) (u : UnitId) (i v : Nat) : State :=
  match u with
  | .enc => s.withEnc { s.enc with ibuf := s.enc.ibuf.write (i % s.cfg.inEntries .enc) (BitVec.ofNat 8 v) }
  | .dec => s.withDec { s.dec with ibuf := s.dec.ibuf.write (i % s.cfg.inEntries .dec) (BitVec.ofNat 8 v) }

/-- `raise InvalidEncoding(c)` (R8): take the decoder's failure `DEC.FAIL(c)` (R65) and end the step. -/
def State.decFail (s : State) (c : Cause) : State := s.withDec (s.dec.fail c)

/-- Reset (R97): "maps any state to the reset state". The widths stay; the events to come and the count of draws are
no part of the hardware and stay too (log 17). -/
def State.applyReset (s : State) : State :=
  { State.resetOf s.cfg with draws := s.draws, agenda := s.agenda }

/-! ### What a sequencer does in a step -/

/-- `MemRead(U.IBUF, i, 1)` by a sequencer, and then `k`; an entry never written since reset faults (R98, U1). -/
def State.fetchEntry (s : State) (u : UnitId) (i : Nat) (k : Byte → Result) : Result :=
  match (s.ibuf u).read i with
  | some b => k b
  | none => .fault (.ibufUnwritten u i)

/-- `k`, if the next `n` entries from `U.WP` on exist in `U.OBUF` (R12, R13; log 15). -/
def State.withRoom (s : State) (u : UnitId) (n : Nat) (k : Result) : Result :=
  if s.wp u + n ≤ s.cfg.outEntries u then k else .fault (.obufRange u (s.wp u + n - 1))

/-- The digit of a character in the group phase, and then `k` (R61: "all three are digits: the scan phase passed";
log 14). -/
def withGroupDigit (c : Byte) (k : Digit → Result) : Result :=
  match c2d c with
  | some d => k d
  | none => .fault (.groupCharInvalid c)

/-- The check of one character (R59): `INVALID` raises `InvalidEncoding(CHAR)`, a digit passes. -/
def State.scanChar (s : State) : Option Digit → State
  | none => s.decFail .char
  | some _ => s.withDec s.dec.scanned

end Sys2Proof.Machine
end

