-- ==== Sys2Proof/Machine/Flags.lean ====
section
/-! DEFINITION. The status bits: the codes of `STATE` and `CAUSE` (10_state.md R12, R13, 60_exceptions.md R90), the
STATUS word (R70), the five level outputs (R91), and the `GE` bits of the dispatch key (30_encoding.md R39). -/

namespace Sys2Proof.Machine

/-- The code of `ENC.STATE` (R12). -/
def EncState.code : EncState → BitVec 2
  | .idle => 0
  | .busy => 1
  | .done => 2

/-- The code of `DEC.STATE` (R13). -/
def DecState.code : DecState → BitVec 2
  | .idle => 0
  | .busy => 1
  | .done => 2
  | .error => 3

/-- The code of `DEC.CAUSE` (R90). -/
def Cause.code : Cause → BitVec 3
  | .none => 0
  | .char => 1
  | .length => 2
  | .range16 => 3
  | .range8 => 4

/-- The bit of `DEC.PHASE` (R13). -/
def Phase.bit : Phase → Bool
  | .scan => false
  | .group => true

/-- `U.STATUS` = `{U.CAUSE, U.STATE}`; "`ENC.CAUSE` reads 0" (R70, R17). -/
def State.statusWord (s : State) : UnitId → BitVec 5
  | .enc => (0 : BitVec 3) ++ s.enc.state.code
  | .dec => s.dec.cause.code ++ s.dec.state.code

/-- `U.STATE = BUSY`. -/
def State.busy (s : State) : UnitId → Bool
  | .enc => s.enc.state == .busy
  | .dec => s.dec.state == .busy

/-- `U.STATE = DONE`. -/
def State.done (s : State) : UnitId → Bool
  | .enc => s.enc.state == .done
  | .dec => s.dec.state == .done

/-- The output `enc_busy` (R91). -/
def State.encBusyOut (s : State) : Bool := s.busy .enc

/-- The output `enc_done` (R91). -/
def State.encDoneOut (s : State) : Bool := s.done .enc

/-- The output `dec_busy` (R91). -/
def State.decBusyOut (s : State) : Bool := s.busy .dec

/-- The output `dec_done` (R91). -/
def State.decDoneOut (s : State) : Bool := s.done .dec

/-- The output `dec_error` (R91). -/
def State.decErrorOut (s : State) : Bool := s.dec.state == .error

/-- The key bit `GE<k>` for a remaining count `n`: `n >= k` (R39). -/
def geBit (n k : Nat) : Bool := decide (k ≤ n)

/-- The dispatch key `{UNIT, PHASE, GE3, GE2, GE1}` for a remaining count `n` (R39). -/
def keyWord (unit phase : Bool) (n : Nat) : BitVec 5 :=
  BitVec.ofBool unit ++ BitVec.ofBool phase ++ BitVec.ofBool (geBit n 3) ++ BitVec.ofBool (geBit n 2) ++
    BitVec.ofBool (geBit n 1)

/-- Key bit 4, `UNIT` (R39). -/
def unitBit : UnitId → Bool
  | .enc => false
  | .dec => true

/-- Key bit 3, `PHASE`: "0 for `ENC`; `DEC.PHASE` for `DEC`" (R39). -/
def State.phaseBit (s : State) : UnitId → Bool
  | .enc => false
  | .dec => s.dec.phase.bit

/-- The number of input entries from the read pointer to the end of the message (R38). -/
def State.remaining (s : State) (u : UnitId) : Nat := s.ilen u - s.rp u

/-- The dispatch key of a unit, computed from its own registers (R39). -/
def State.dispatchKey (s : State) (u : UnitId) : BitVec 5 := keyWord (unitBit u) (s.phaseBit u) (s.remaining u)

end Sys2Proof.Machine
end

