-- ==== Sys2Proof/Machine/Decoder.lean ====
section
/-! DEFINITION. The meanings of the decoder unit's operations (41_decoder_ops.md R58 to R64). -/

namespace Sys2Proof.Machine

/-- `DEC.START` (R58). -/
def execDecStart (s : State) : Result := .next (s.start .dec)

/-- `DEC.SCAN`, validate one character (R59). -/
def execDecScan (s : State) : Result :=
  s.fetchEntry .dec s.dec.rp fun c => .next (s.scanChar (c2d c))

/-- `DEC.LENCHK`, check the length and turn to the group phase (R60). -/
def execDecLenchk (s : State) : Result :=
  .next (if s.dec.ilen % 3 = 1 then s.decFail .length else s.withDec s.dec.toGroup)

/-- `DEC3`, reconstruct one full group (R61); on failure the writes of the datapath registers still happen. -/
def execDec3 (s : State) : Result :=
  s.fetchEntry .dec s.dec.rp fun c0 =>
    s.fetchEntry .dec (s.dec.rp + 1) fun c1 =>
      s.fetchEntry .dec (s.dec.rp + 2) fun c2 =>
        withGroupDigit c0 fun d0 =>
          withGroupDigit c1 fun d1 =>
            withGroupDigit c2 fun d2 =>
              let v := mac45 d0 d1 d2
              let d := s.dec.latch3 v d0 d1 d2
              if 65535 < v.toNat then .next ((s.withDec d).decFail .range16)
              else
                let b := unpack16 (v.truncate 16)
                s.withRoom .dec 2 <| .next <| s.withDec <| d.advance 3 [b.1, b.2]

/-- `DEC2`, reconstruct the tail group (R62). -/
def execDec2 (s : State) : Result :=
  s.fetchEntry .dec s.dec.rp fun c0 =>
    s.fetchEntry .dec (s.dec.rp + 1) fun c1 =>
      withGroupDigit c0 fun d0 =>
        withGroupDigit c1 fun d1 =>
          let v := mac45 d0 d1 0
          let d := s.dec.latch2 v d0 d1
          if 255 < v.toNat then .next ((s.withDec d).decFail .range8)
          else s.withRoom .dec 1 <| .next <| s.withDec <| d.advance 2 [v.truncate 8]

/-- `DEC.BADREM` (R63). -/
def execDecBadrem (s : State) : Result := .next (s.decFail .length)

/-- `DEC.END` (R64). -/
def execDecEnd (s : State) : Result := .next (s.withDec s.dec.finish)

end Sys2Proof.Machine
end

