-- ==== Sys2Proof/Machine/Encoder.lean ====
section
/-! DEFINITION. The meanings of the encoder unit's operations (40_encoder_ops.md R49 to R52). -/

namespace Sys2Proof.Machine

/-- `ENC.START` (R49). -/
def execEncStart (s : State) : Result := .next (s.start .enc)

/-- `ENC.END` (R52). -/
def execEncEnd (s : State) : Result := .next (s.withEnc s.enc.finish)

/-- `ENC1`, encode the tail chunk (R51). -/
def execEnc1 (s : State) : Result :=
  s.fetchEntry .enc s.enc.rp fun b =>
    let v : Val16 := b.zeroExtend 16
    let d0 := dig45 v .ones
    let d1 := dig45 v .fortyFives
    s.withRoom .enc 2 <| .next <| s.withEnc <| (s.enc.latch2 v d0 d1).advance 1 [a2c d0, a2c d1]

/-- `ENC2`, encode one full chunk (R50). -/
def execEnc2 (s : State) : Result :=
  s.fetchEntry .enc s.enc.rp fun b0 =>
    s.fetchEntry .enc (s.enc.rp + 1) fun b1 =>
      let v := pack16 b0 b1
      let d0 := dig45 v .ones
      let d1 := dig45 v .fortyFives
      let d2 := dig45 v .twentyTwentyFives
      s.withRoom .enc 3 <| .next <| s.withEnc <| (s.enc.latch3 v d0 d1 d2).advance 2 [a2c d0, a2c d1, a2c d2]

end Sys2Proof.Machine
end

