-- ==== Sys2Proof/Machine/HostPort.lean ====
section
/-! DEFINITION. The meanings of the host accesses (42_host_transactions.md R69 to R73) and the accesses of one call
(R74). "The block never refuses, delays or retries an access" (R68): each of them answers a next state. -/

namespace Sys2Proof.Machine

/-- `HRD.REG U, r -> v` (R70); `CTRL` reads 0. -/
def execHrdReg (u : UnitId) (r : RegNum) (s : State) : Result :=
  .next <| s.withRdata <|
    match r with
    | .ctrl => 0
    | .status => (s.statusWord u).toNat
    | .ilen => s.ilen u
    | .olen => s.olen u

/-- `HWR.REG U, r, v` (R69): `STATUS` and `OLEN` are read-only; while BUSY nothing is written. -/
def execHwrReg (u : UnitId) (r : RegNum) (v : Nat) (s : State) : Result :=
  .next <|
    match r with
    | .ctrl => if v % 2 = 1 ∧ s.busy u = false then s.start u else s
    | .status => s
    | .ilen => if s.busy u then s else s.writeIlen u v
    | .olen => s

/-- `HWR.IBUF U, i, v` (R71): dropped while BUSY. -/
def execHwrIbuf (u : UnitId) (i v : Nat) (s : State) : Result :=
  .next (if s.busy u then s else s.writeIbuf u i v)

/-- `HRD.OBUF U, j -> v` (R72): the stored entry "if U.STATE = DONE and j < U.OLEN", else `draw`. An entry below
`OLEN` that nothing has written since reset is unspecified (R20), so it is a `draw` too (log 6). -/
def execHrdObuf (u : UnitId) (j : Nat) (s : State) : Result :=
  .next <|
    if s.done u = true ∧ j < s.olen u then
      match (s.obuf u).read j with
      | some b => s.withRdata b.toNat
      | none => s.drawRdata
    else s.drawRdata

/-- `HILL` (R73): "A write changes nothing; a read returns `draw`." -/
def execHill (_u : UnitId) (kind : IllegalKind) (_index _data : Nat) (s : State) : Result :=
  .next (if kind.isRead then s.drawRdata else s)

/-- The accesses of steps 2 to 4 of R74: write the message, its length, and START. -/
def hostCall (u : UnitId) (x : List Byte) : List HostAccess :=
  (x.zipIdx.map fun p => ⟨descOf u .ibuf true, p.2, p.1.toNat⟩) ++
    [⟨descOf u .reg true, 2, x.length⟩, ⟨descOf u .reg true, 0, 1⟩]

end Sys2Proof.Machine
end

