-- ==== Sys2Proof/Machine/Symbols.lean ====
section
/-! DEFINITION. The meanings of the alphabet's rows SYM00 to SYM44 and of INVALID_CHAR (30_encoding.md R32, R34): what
`DEC.SCAN` does on that character, given the row's `DLUT` word (41_decoder_ops.md R59; log 11). -/

namespace Sys2Proof.Machine

/-- Row `SYM00` (R32): code 0x30, a digit of value 0. -/
def execSym00 (s : State) : Result := .next (s.scanChar (digitOf 0x00))

/-- Row `SYM01` (R32): code 0x31, a digit of value 1. -/
def execSym01 (s : State) : Result := .next (s.scanChar (digitOf 0x01))

/-- Row `SYM02` (R32): code 0x32, a digit of value 2. -/
def execSym02 (s : State) : Result := .next (s.scanChar (digitOf 0x02))

/-- Row `SYM03` (R32): code 0x33, a digit of value 3. -/
def execSym03 (s : State) : Result := .next (s.scanChar (digitOf 0x03))

/-- Row `SYM04` (R32): code 0x34, a digit of value 4. -/
def execSym04 (s : State) : Result := .next (s.scanChar (digitOf 0x04))

/-- Row `SYM05` (R32): code 0x35, a digit of value 5. -/
def execSym05 (s : State) : Result := .next (s.scanChar (digitOf 0x05))

/-- Row `SYM06` (R32): code 0x36, a digit of value 6. -/
def execSym06 (s : State) : Result := .next (s.scanChar (digitOf 0x06))

/-- Row `SYM07` (R32): code 0x37, a digit of value 7. -/
def execSym07 (s : State) : Result := .next (s.scanChar (digitOf 0x07))

/-- Row `SYM08` (R32): code 0x38, a digit of value 8. -/
def execSym08 (s : State) : Result := .next (s.scanChar (digitOf 0x08))

/-- Row `SYM09` (R32): code 0x39, a digit of value 9. -/
def execSym09 (s : State) : Result := .next (s.scanChar (digitOf 0x09))

/-- Row `SYM10` (R32): code 0x41, a digit of value 10. -/
def execSym10 (s : State) : Result := .next (s.scanChar (digitOf 0x0A))

/-- Row `SYM11` (R32): code 0x42, a digit of value 11. -/
def execSym11 (s : State) : Result := .next (s.scanChar (digitOf 0x0B))

/-- Row `SYM12` (R32): code 0x43, a digit of value 12. -/
def execSym12 (s : State) : Result := .next (s.scanChar (digitOf 0x0C))

/-- Row `SYM13` (R32): code 0x44, a digit of value 13. -/
def execSym13 (s : State) : Result := .next (s.scanChar (digitOf 0x0D))

/-- Row `SYM14` (R32): code 0x45, a digit of value 14. -/
def execSym14 (s : State) : Result := .next (s.scanChar (digitOf 0x0E))

/-- Row `SYM15` (R32): code 0x46, a digit of value 15. -/
def execSym15 (s : State) : Result := .next (s.scanChar (digitOf 0x0F))

/-- Row `SYM16` (R32): code 0x47, a digit of value 16. -/
def execSym16 (s : State) : Result := .next (s.scanChar (digitOf 0x10))

/-- Row `SYM17` (R32): code 0x48, a digit of value 17. -/
def execSym17 (s : State) : Result := .next (s.scanChar (digitOf 0x11))

/-- Row `SYM18` (R32): code 0x49, a digit of value 18. -/
def execSym18 (s : State) : Result := .next (s.scanChar (digitOf 0x12))

/-- Row `SYM19` (R32): code 0x4A, a digit of value 19. -/
def execSym19 (s : State) : Result := .next (s.scanChar (digitOf 0x13))

/-- Row `SYM20` (R32): code 0x4B, a digit of value 20. -/
def execSym20 (s : State) : Result := .next (s.scanChar (digitOf 0x14))

/-- Row `SYM21` (R32): code 0x4C, a digit of value 21. -/
def execSym21 (s : State) : Result := .next (s.scanChar (digitOf 0x15))

/-- Row `SYM22` (R32): code 0x4D, a digit of value 22. -/
def execSym22 (s : State) : Result := .next (s.scanChar (digitOf 0x16))

/-- Row `SYM23` (R32): code 0x4E, a digit of value 23. -/
def execSym23 (s : State) : Result := .next (s.scanChar (digitOf 0x17))

/-- Row `SYM24` (R32): code 0x4F, a digit of value 24. -/
def execSym24 (s : State) : Result := .next (s.scanChar (digitOf 0x18))

/-- Row `SYM25` (R32): code 0x50, a digit of value 25. -/
def execSym25 (s : State) : Result := .next (s.scanChar (digitOf 0x19))

/-- Row `SYM26` (R32): code 0x51, a digit of value 26. -/
def execSym26 (s : State) : Result := .next (s.scanChar (digitOf 0x1A))

/-- Row `SYM27` (R32): code 0x52, a digit of value 27. -/
def execSym27 (s : State) : Result := .next (s.scanChar (digitOf 0x1B))

/-- Row `SYM28` (R32): code 0x53, a digit of value 28. -/
def execSym28 (s : State) : Result := .next (s.scanChar (digitOf 0x1C))

/-- Row `SYM29` (R32): code 0x54, a digit of value 29. -/
def execSym29 (s : State) : Result := .next (s.scanChar (digitOf 0x1D))

/-- Row `SYM30` (R32): code 0x55, a digit of value 30. -/
def execSym30 (s : State) : Result := .next (s.scanChar (digitOf 0x1E))

/-- Row `SYM31` (R32): code 0x56, a digit of value 31. -/
def execSym31 (s : State) : Result := .next (s.scanChar (digitOf 0x1F))

/-- Row `SYM32` (R32): code 0x57, a digit of value 32. -/
def execSym32 (s : State) : Result := .next (s.scanChar (digitOf 0x20))

/-- Row `SYM33` (R32): code 0x58, a digit of value 33. -/
def execSym33 (s : State) : Result := .next (s.scanChar (digitOf 0x21))

/-- Row `SYM34` (R32): code 0x59, a digit of value 34. -/
def execSym34 (s : State) : Result := .next (s.scanChar (digitOf 0x22))

/-- Row `SYM35` (R32): code 0x5A, a digit of value 35. -/
def execSym35 (s : State) : Result := .next (s.scanChar (digitOf 0x23))

/-- Row `SYM36` (R32): code 0x20, a digit of value 36. -/
def execSym36 (s : State) : Result := .next (s.scanChar (digitOf 0x24))

/-- Row `SYM37` (R32): code 0x24, a digit of value 37. -/
def execSym37 (s : State) : Result := .next (s.scanChar (digitOf 0x25))

/-- Row `SYM38` (R32): code 0x25, a digit of value 38. -/
def execSym38 (s : State) : Result := .next (s.scanChar (digitOf 0x26))

/-- Row `SYM39` (R32): code 0x2A, a digit of value 39. -/
def execSym39 (s : State) : Result := .next (s.scanChar (digitOf 0x27))

/-- Row `SYM40` (R32): code 0x2B, a digit of value 40. -/
def execSym40 (s : State) : Result := .next (s.scanChar (digitOf 0x28))

/-- Row `SYM41` (R32): code 0x2D, a digit of value 41. -/
def execSym41 (s : State) : Result := .next (s.scanChar (digitOf 0x29))

/-- Row `SYM42` (R32): code 0x2E, a digit of value 42. -/
def execSym42 (s : State) : Result := .next (s.scanChar (digitOf 0x2A))

/-- Row `SYM43` (R32): code 0x2F, a digit of value 43. -/
def execSym43 (s : State) : Result := .next (s.scanChar (digitOf 0x2B))

/-- Row `SYM44` (R32): code 0x3A, a digit of value 44. -/
def execSym44 (s : State) : Result := .next (s.scanChar (digitOf 0x2C))

/-- Row `INVALID_CHAR` (R34): "`DEC.SCAN` raises `InvalidEncoding(CHAR)`"; its `DLUT` word is `0xFF` (R35). -/
def execInvalidChar (_c : Byte) (s : State) : Result := .next (s.scanChar (digitOf 0xFF))

end Sys2Proof.Machine
end

