-- ==== Sys2Proof/Machine/Dispatch.lean ====
section
/-! DEFINITION. The dispatch of every instruction to its meaning, one arm per row of opcode_table.json. -/

namespace Sys2Proof.Machine

def exec (i : Instr) (s : State) : Host.Outcome State Fault Refusal :=
  match i with
  -- the encoder sequencer
  | .encEnd => Sys2Proof.Machine.execEncEnd s
  | .enc1 => Sys2Proof.Machine.execEnc1 s
  | .enc2 => Sys2Proof.Machine.execEnc2 s
  -- the decoder sequencer
  | .decLenchk => Sys2Proof.Machine.execDecLenchk s
  | .decScan => Sys2Proof.Machine.execDecScan s
  | .decEnd => Sys2Proof.Machine.execDecEnd s
  | .decBadrem => Sys2Proof.Machine.execDecBadrem s
  | .dec2 => Sys2Proof.Machine.execDec2 s
  | .dec3 => Sys2Proof.Machine.execDec3 s
  -- the host port
  | .encStart => Sys2Proof.Machine.execEncStart s
  | .decStart => Sys2Proof.Machine.execDecStart s
  | .hrdReg u r => Sys2Proof.Machine.execHrdReg u r s
  | .hwrReg u r data => Sys2Proof.Machine.execHwrReg u r data s
  | .hwrIbuf u index data => Sys2Proof.Machine.execHwrIbuf u index data s
  | .hrdObuf u index => Sys2Proof.Machine.execHrdObuf u index s
  | .hill u kind index data => Sys2Proof.Machine.execHill u kind index data s
  -- the alphabet
  | .sym00 => Sys2Proof.Machine.execSym00 s
  | .sym01 => Sys2Proof.Machine.execSym01 s
  | .sym02 => Sys2Proof.Machine.execSym02 s
  | .sym03 => Sys2Proof.Machine.execSym03 s
  | .sym04 => Sys2Proof.Machine.execSym04 s
  | .sym05 => Sys2Proof.Machine.execSym05 s
  | .sym06 => Sys2Proof.Machine.execSym06 s
  | .sym07 => Sys2Proof.Machine.execSym07 s
  | .sym08 => Sys2Proof.Machine.execSym08 s
  | .sym09 => Sys2Proof.Machine.execSym09 s
  | .sym10 => Sys2Proof.Machine.execSym10 s
  | .sym11 => Sys2Proof.Machine.execSym11 s
  | .sym12 => Sys2Proof.Machine.execSym12 s
  | .sym13 => Sys2Proof.Machine.execSym13 s
  | .sym14 => Sys2Proof.Machine.execSym14 s
  | .sym15 => Sys2Proof.Machine.execSym15 s
  | .sym16 => Sys2Proof.Machine.execSym16 s
  | .sym17 => Sys2Proof.Machine.execSym17 s
  | .sym18 => Sys2Proof.Machine.execSym18 s
  | .sym19 => Sys2Proof.Machine.execSym19 s
  | .sym20 => Sys2Proof.Machine.execSym20 s
  | .sym21 => Sys2Proof.Machine.execSym21 s
  | .sym22 => Sys2Proof.Machine.execSym22 s
  | .sym23 => Sys2Proof.Machine.execSym23 s
  | .sym24 => Sys2Proof.Machine.execSym24 s
  | .sym25 => Sys2Proof.Machine.execSym25 s
  | .sym26 => Sys2Proof.Machine.execSym26 s
  | .sym27 => Sys2Proof.Machine.execSym27 s
  | .sym28 => Sys2Proof.Machine.execSym28 s
  | .sym29 => Sys2Proof.Machine.execSym29 s
  | .sym30 => Sys2Proof.Machine.execSym30 s
  | .sym31 => Sys2Proof.Machine.execSym31 s
  | .sym32 => Sys2Proof.Machine.execSym32 s
  | .sym33 => Sys2Proof.Machine.execSym33 s
  | .sym34 => Sys2Proof.Machine.execSym34 s
  | .sym35 => Sys2Proof.Machine.execSym35 s
  | .sym36 => Sys2Proof.Machine.execSym36 s
  | .sym37 => Sys2Proof.Machine.execSym37 s
  | .sym38 => Sys2Proof.Machine.execSym38 s
  | .sym39 => Sys2Proof.Machine.execSym39 s
  | .sym40 => Sys2Proof.Machine.execSym40 s
  | .sym41 => Sys2Proof.Machine.execSym41 s
  | .sym42 => Sys2Proof.Machine.execSym42 s
  | .sym43 => Sys2Proof.Machine.execSym43 s
  | .sym44 => Sys2Proof.Machine.execSym44 s
  | .invalidChar c => Sys2Proof.Machine.execInvalidChar c s

end Sys2Proof.Machine
end

