-- ==== Sys2Proof/Machine/Fetch.lean ====
section
/-! DEFINITION. Where the next code word comes from: whose turn it is (10_state.md R9, 20_memory.md R29), the word it
brings (30_encoding.md R39, R40), and the placing of an opcode-table word for the host's check (log 13). -/

namespace Sys2Proof.Machine

/-- What the next step is about. -/
inductive Turn where
  /-- no agent has a step: nothing happens (log 4) -/
  | idle
  /-- reset is asserted (R97) -/
  | reset
  /-- an agent brings a code word -/
  | run (c : Code)
  deriving DecidableEq, Repr

/-- A sequencer's turn: "a sequencer has a step exactly when its `STATE` is `BUSY`" (R9). -/
def State.seqTurn (s : State) (u : UnitId) : Turn :=
  if s.busy u then .run (.key (s.dispatchKey u)) else .idle

/-- The events to come are replaced. -/
def State.withAgenda (s : State) (l : List Event) : State := { s with agenda := l }

/-- A free value was used. -/
def State.countDraw (s : State) : State := { s with draws := s.draws + 1 }

/-- The turn when no event is left to come: a BUSY sequencer runs on (R100); if both are BUSY, either may be first
(R9; log 3). -/
def State.freeTurn (s : State) : Turn × State :=
  match s.busy .enc, s.busy .dec with
  | true, true => (s.seqTurn (Config.freeUnit s.draws), s.countDraw)
  | true, false => (s.seqTurn .enc, s)
  | false, _ => (s.seqTurn .dec, s)

/-- Whose turn it is, and the state with that turn taken off the events to come. -/
def State.turn (s : State) : Turn × State :=
  match s.agenda with
  | [] => s.freeTurn
  | .access a :: rest => (.run (.access a), s.withAgenda rest)
  | .seq u :: rest => (s.seqTurn u, s.withAgenda rest)
  | .reset :: rest => (.reset, s.withAgenda rest)

/-- Whether the unit a code word's access addresses is BUSY: what the START rows ask (R40). -/
def State.addressedBusy (s : State) : Code → Bool
  | .access a => s.busy a.unit
  | _ => false

/-- The remaining count that makes a unit form the key: the highest `GE` bit that is set (R39). -/
def keyCount (k : BitVec 5) : Nat :=
  if k.getLsbD 2 then 3 else if k.getLsbD 1 then 2 else if k.getLsbD 0 then 1 else 0

/-- The encoder unit about to form the key `k`, its message all zero bytes. -/
def EncUnit.placeKey (e : EncUnit) (k : BitVec 5) : EncUnit :=
  { e.start with ilen := keyCount k, ibuf := e.ibuf.writeList 0 (List.replicate (keyCount k) 0x00) }

/-- The decoder unit about to form the key `k`, its message all characters `0`. -/
def DecUnit.placeKey (d : DecUnit) (k : BitVec 5) : DecUnit :=
  { d.start with
    ilen := keyCount k
    ibuf := d.ibuf.writeList 0 (List.replicate (keyCount k) 0x30)
    phase := if k.getLsbD 3 then .group else .scan }

/-- Place a code word so that the very next step runs it (log 13): a key by the unit's registers and message, an
access at the head of the events, a character as the one the decoder scans next. -/
def State.placeCode (s : State) : Code → State
  | .key k =>
    if k.getLsbD 4 then (s.withDec (s.dec.placeKey k)).withAgenda (.seq .dec :: s.agenda)
    else (s.withEnc (s.enc.placeKey k)).withAgenda (.seq .enc :: s.agenda)
  | .access a => s.withAgenda (.access a :: s.agenda)
  | .char c =>
    (s.withDec { s.dec.start with ilen := 1, ibuf := s.dec.ibuf.write 0 c }).withAgenda (.seq .dec :: s.agenda)

end Sys2Proof.Machine
end

