-- ==== Sys2Proof/Machine/Step.lean ====
section
/-! DEFINITION. One step of the machine: whose turn it is, the decoding of the code word it brings, and its meaning;
and the placing of an opcode-table word for the host's check. -/

namespace Sys2Proof.Machine

/-- Run a code word: decode it and execute the instruction. -/
def runCode (c : Code) (s : State) : Result :=
  match decode (s.addressedBusy c) c with
  | .ok i => exec i s
  | .error (.unassignedKey k) => .refused (.unassignedKey k)

/-- One step (10_state.md R9, 20_memory.md R29). -/
def step (s : State) : Host.Outcome State Fault Refusal :=
  match s.turn with
  | (.idle, s') => .next s'
  | (.reset, s') => .next s'.applyReset
  | (.run c, s') => runCode c s'

/-- `s` with the instruction of an opcode-table word placed so that the next step runs it (log 13). -/
def State.withFetchWord (s : State) (nbits w : Nat) : State := s.placeCode (tableCode nbits w)

end Sys2Proof.Machine
end

