-- ==== Sys2Proof/Machine/Codec.lean ====
section
/-! DEFINITION. The codec's whole-message functions, the document's `encode` and `decode`: `ENCODE` (40_encoder_ops.md
R53) and `DECODE` (41_decoder_ops.md R66). -/

namespace Sys2Proof.Machine

/-- The group of a full chunk, least significant digit first (R53, R36). -/
def fullGroup (b0 b1 : Byte) : List Byte :=
  [a2c (dig45 (pack16 b0 b1) .ones), a2c (dig45 (pack16 b0 b1) .fortyFives),
    a2c (dig45 (pack16 b0 b1) .twentyTwentyFives)]

/-- The group of the tail byte (R53, R51). -/
def tailGroup (b : Byte) : List Byte :=
  [a2c (dig45 (b.zeroExtend 16) .ones), a2c (dig45 (b.zeroExtend 16) .fortyFives)]

/-- `ENCODE(p)` (R53): chunks in message order. -/
def encodeBytes : List Byte → List Byte
  | b0 :: b1 :: rest => fullGroup b0 b1 ++ encodeBytes rest
  | [b] => tailGroup b
  | [] => []

/-- Steps 3 to 5 of `DECODE` on the digits of a text: the groups in order, then the tail (R66). One digit left over
is the malformed length (R63). -/
def decodeDigits : List Digit → Except Cause (List Byte)
  | d0 :: d1 :: d2 :: rest =>
    if 65535 < (mac45 d0 d1 d2).toNat then .error .range16
    else
      let b := unpack16 ((mac45 d0 d1 d2).truncate 16)
      match decodeDigits rest with
      | .ok p => .ok (b.1 :: b.2 :: p)
      | .error c => .error c
  | [d0, d1] => if 255 < (mac45 d0 d1 0).toNat then .error .range8 else .ok [(mac45 d0 d1 0).truncate 8]
  | [_] => .error .length
  | [] => .ok []

/-- `DECODE(t)` (R66): all characters first, then the length, then the groups (60_exceptions.md R92). -/
def decodeText (t : List Byte) : Except Cause (List Byte) :=
  match t.mapM c2d with
  | none => .error .char
  | some ds => if t.length % 3 = 1 then .error .length else decodeDigits ds

end Sys2Proof.Machine
end

