-- ==== Sys2Proof/Safety.lean ====
section
/-! DEFINITION. The terms claims are stated in: what a message in a buffer is, the premise that the input was written
(93_implementation_defined.md U1), and the machine's invariant, field by field from 10_state.md R12, R13, R15 and
43_codec_laws.md R77. -/

namespace Sys2Proof.Machine

/-- Every listed index lies below `n`: the buffer has `n` entries. -/
abbrev Memory.Below (m : Memory) (n : Nat) : Prop := ∀ c ∈ m, c.1 < n

/-- Every entry below `n` holds a value. -/
abbrev Memory.FilledBelow (m : Memory) (n : Nat) : Prop := ∀ i < n, (m.read i).isSome = true

/-- Every entry below `n` holds a character of the alphabet. -/
abbrev Memory.DigitsBelow (m : Memory) (n : Nat) : Prop := ∀ i < n, ((m.read i).bind c2d).isSome = true

/-- The buffer holds the sequence `x` from entry 0 on (20_memory.md R26). -/
abbrev Memory.Holds (m : Memory) (x : List Byte) : Prop := ∀ i < x.length, m.read i = x[i]?

/-- "every entry below `ILEN` was written since reset" (U1): the premise of every claim about a transaction. -/
abbrev State.InputWritten (s : State) (u : UnitId) : Prop := (s.ibuf u).FilledBelow (s.ilen u)

/-- What every reachable state keeps of the encoder unit. -/
structure EncUnit.Inv (cfg : Config) (e : EncUnit) : Prop where
  ibuf_wf : e.ibuf.wf = true
  obuf_wf : e.obuf.wf = true
  ibuf_below : e.ibuf.Below (cfg.inEntries .enc)
  obuf_below : e.obuf.Below cfg.encOcap
  /-- the registers' widths (R12) -/
  ilen_fits : e.ilen < 2 ^ cfg.encLenW
  olen_fits : e.olen ≤ cfg.encOcap
  rp_fits : e.rp < 2 ^ cfg.encLenW
  wp_fits : e.wp ≤ cfg.encOcap
  /-- digit registers hold digits (R77) -/
  digits : e.dg0.toNat < 45 ∧ e.dg1.toNat < 45 ∧ e.dg2.toNat < 45
  /-- `0 <= RP <= ILEN` whenever BUSY (R15) -/
  busy_rp : e.state = .busy → e.rp ≤ e.ilen
  /-- `RP` is even until the tail chunk is consumed (R15), and `WP` follows it (R54) -/
  busy_odd : e.state = .busy → e.rp % 2 = 1 → e.rp = e.ilen
  busy_wp : e.state = .busy → e.wp = 3 * (e.rp / 2) + 2 * (e.rp % 2)
  /-- `OLEN` is 0 "from START until END" and after reset (R12, R20) -/
  olen_zero : e.state ≠ .done → e.olen = 0
  /-- what was produced is in the output buffer -/
  busy_out : e.state = .busy → e.obuf.FilledBelow e.wp
  done_out : e.state = .done → e.obuf.FilledBelow e.olen

/-- What every reachable state keeps of the decoder unit. -/
structure DecUnit.Inv (cfg : Config) (d : DecUnit) : Prop where
  ibuf_wf : d.ibuf.wf = true
  obuf_wf : d.obuf.wf = true
  ibuf_below : d.ibuf.Below (cfg.inEntries .dec)
  obuf_below : d.obuf.Below cfg.decOcap
  /-- the registers' widths (R13) -/
  ilen_fits : d.ilen < 2 ^ cfg.decLenW
  olen_fits : d.olen ≤ cfg.decOcap
  rp_fits : d.rp < 2 ^ cfg.decLenW
  wp_fits : d.wp ≤ cfg.decOcap
  /-- digit registers hold digits (R77) -/
  digits : d.dg0.toNat < 45 ∧ d.dg1.toNat < 45 ∧ d.dg2.toNat < 45
  /-- `0 <= RP <= ILEN` whenever BUSY (R15) -/
  busy_rp : d.state = .busy → d.rp ≤ d.ilen
  /-- while scanning nothing has been produced, and what was scanned are digits (R59) -/
  scan_wp : d.state = .busy → d.phase = .scan → d.wp = 0
  scan_digits : d.state = .busy → d.phase = .scan → d.ibuf.DigitsBelow d.rp
  /-- in the group phase every character is a digit and the length was checked (R59, R60) -/
  group_digits : d.state = .busy → d.phase = .group → d.ibuf.DigitsBelow d.ilen
  group_len : d.state = .busy → d.phase = .group → d.ilen % 3 ≠ 1
  /-- `RP` is a multiple of 3 until the tail group is consumed (R15), and `WP` follows it -/
  group_rp : d.state = .busy → d.phase = .group → d.rp % 3 ≠ 0 → d.rp % 3 = 2 ∧ d.rp = d.ilen
  group_wp : d.state = .busy → d.phase = .group → d.wp = 2 * (d.rp / 3) + d.rp % 3 / 2
  /-- `OLEN` is 0 until END and after a failure (R13, R65) -/
  olen_zero : d.state ≠ .done → d.olen = 0
  /-- "`NONE` = 0 unless `STATE = ERROR`" (R13) -/
  cause_error : d.cause ≠ .none ↔ d.state = .error
  /-- what was produced is in the output buffer -/
  busy_out : d.state = .busy → d.obuf.FilledBelow d.wp
  done_out : d.state = .done → d.obuf.FilledBelow d.olen

/-- The machine's invariant. -/
structure State.Inv (s : State) : Prop where
  cfg_legal : s.cfg.Legal = true
  enc_inv : s.enc.Inv s.cfg
  dec_inv : s.dec.Inv s.cfg
  /-- the host's data word is `HDATA_W` bits wide (R17) -/
  rdata_fits : s.hrdata < 2 ^ s.cfg.hdataW

/-! ### Selection and transactions -/

/-- The sequencer `u` has a step and its dispatch key selects the operation `i` (30_encoding.md R39). -/
def State.Selects (s : State) (u : UnitId) (i : Instr) : Prop :=
  s.seqTurn u = .run (.key (s.dispatchKey u)) ∧ decodeKey (s.dispatchKey u) = .ok i

/-- The steps a run of a started encoder takes on `n` bytes (70_reset_and_hazards.md R101). -/
def encSteps (n : Nat) : Nat := n / 2 + n % 2 + 1

/-- The operation of step `k`, counted from 0, of an encoder run on `n` bytes (40_encoder_ops.md R54). -/
def encOpAt (n k : Nat) : Instr :=
  if k < n / 2 then .enc2 else if k < n / 2 + n % 2 then .enc1 else .encEnd

/-- The first full group of a digit sequence whose value exceeds 65535, counted from 0 (R66, R67). -/
def firstOverflow : List Digit → Nat
  | d0 :: d1 :: d2 :: rest => if 65535 < (mac45 d0 d1 d2).toNat then 0 else firstOverflow rest + 1
  | _ => 0

/-- The steps a run of a started decoder takes on the text `t` until it stops (41_decoder_ops.md R67). -/
def decSteps (t : List Byte) : Nat :=
  match decodeText t with
  | .ok _ => t.length + 1 + t.length / 3 + (if t.length % 3 = 2 then 1 else 0) + 1
  | .error .char => t.findIdx (fun c => (c2d c).isNone) + 1
  | .error .length => t.length + 1
  | .error .range16 => t.length + 1 + firstOverflow (t.filterMap c2d) + 1
  | .error .range8 => t.length + 1 + t.length / 3 + 1
  | .error .none => 0

/-- The operation of step `k`, counted from 0, of a decoder run on `m` characters that has not failed before
(R67). -/
def decOpAt (m k : Nat) : Instr :=
  if k < m then .decScan
  else if k = m then .decLenchk
  else if k < m + 1 + m / 3 then .dec3
  else if k = m + 1 + m / 3 ∧ m % 3 = 2 then .dec2
  else .decEnd

end Sys2Proof.Machine
end

