-- ==== Sys2Proof/Certificates/Slice0/Obligations.lean ====
section
/-! DEFINITION. The statements for the provers, from the numbered rules of spec/. A record update `{ s with … }` in a
conclusion states the frame too: every field it does not name is as before. -/

open Sys2Proof Sys2Proof.Machine

/-! ### Encodings and the choice of the next instruction -/

/-- 30_encoding.md sections 1, 6 (R32, R34, R39, R40): no bit of an encoding is dropped. `selectedWhen` is the unit's
STATE under which the word selects the instruction (the START rows are sub-cases of HWR.REG). -/
def Obligations.DecodeOfEncodeIsIdentity : Prop :=
  ∀ (cfg : Config) (busy : Bool) (i : Instr), WellFormed cfg i = true → i.selectedWhen busy = true →
    decode busy (encode i) = .ok i

/-- 30_encoding.md R39, R40, R43, R34: every decoded instruction has operands its fields allow, and a code word
without an instruction is a key no unit can form. -/
def Obligations.DecoderAnswersWellFormedInstructions : Prop :=
  ∀ (cfg : Config) (busy : Bool) (c : Code), c.WellFormed cfg = true →
    (∀ i, decode busy c = .ok i → WellFormed cfg i = true) ∧
    (∀ r, decode busy c = .error r → ∃ k, c = .key k ∧ r = .unassignedKey k ∧ k.getLsbD 4 = false ∧ k.getLsbD 3 = true)

/-- Words written out bit by bit from 30_encoding.md R32, R39, R40, one of every family. -/
def Obligations.WordsWrittenFromTheSpecDecode : Prop :=
  decode false (.key 0b00111) = .ok .enc2 ∧ decode false (.key 0b00001) = .ok .enc1 ∧
  decode false (.key 0b10011) = .ok .decScan ∧ decode false (.key 0b11111) = .ok .dec3 ∧
  decode false (.key 0b11011) = .ok .dec2 ∧
  decode false (.access ⟨0b0001, 0, 3⟩) = .ok .encStart ∧ decode true (.access ⟨0b0001, 0, 3⟩) = .ok (.hwrReg .enc .ctrl 3) ∧
  decode false (.access ⟨0b1001, 2, 17⟩) = .ok (.hwrReg .dec .ilen 17) ∧
  decode false (.access ⟨0b1000, 3, 0⟩) = .ok (.hrdReg .dec .olen) ∧
  decode false (.access ⟨0b0011, 5, 0x20⟩) = .ok (.hwrIbuf .enc 5 0x20) ∧
  decode false (.access ⟨0b1100, 4, 0⟩) = .ok (.hrdObuf .dec 4) ∧
  decode false (.access ⟨0b1101, 0, 7⟩) = .ok (.hill .dec .obufWrite 0 7) ∧
  decode false (.char 0x25) = .ok .sym38 ∧ decode false (.char 0x5A) = .ok .sym35 ∧
  decode false (.char 0x40) = .ok (.invalidChar 0x40)

/-- 30_encoding.md R39: the five key bits, the one row of the table that applies, and the BUSY condition. -/
def Obligations.DispatchKeySelectsTheOneOperation : Prop :=
  ∀ (s : State) (u : UnitId),
    ((s.dispatchKey u).getLsbD 4 = true ↔ u = .dec) ∧
    ((s.dispatchKey u).getLsbD 3 = true ↔ u = .dec ∧ s.dec.phase = .group) ∧
    ((s.dispatchKey u).getLsbD 2 = true ↔ 3 ≤ s.ilen u - s.rp u) ∧
    ((s.dispatchKey u).getLsbD 1 = true ↔ 2 ≤ s.ilen u - s.rp u) ∧
    ((s.dispatchKey u).getLsbD 0 = true ↔ 1 ≤ s.ilen u - s.rp u) ∧
    (∃ r, dispatchRows.filter (·.applies (s.dispatchKey u)) = [r] ∧ decodeKey (s.dispatchKey u) = .ok r.instr) ∧
    (s.seqTurn u = if s.busy u then .run (.key (s.dispatchKey u)) else .idle)

/-- 30_encoding.md section 6 (R40) and section 7 (R43: register numbers above 3): the descriptor's fields select the
access. That a CTRL write with data bit 0 set decodes to START only while the unit is not BUSY, and to the plain HWR.REG
otherwise, is read from the table's description (log entry 16). -/
def Obligations.DescriptorSelectsTheAccess : Prop :=
  ∀ (busy : Bool) (u : UnitId) (index data : Nat),
    (∀ r : RegNum, decodeAccess busy ⟨BitVec.ofBool (unitBit u) ++ 0b000#3, r.index, data⟩ = .hrdReg u r) ∧
    (∀ r : RegNum, r ≠ .ctrl → decodeAccess busy ⟨BitVec.ofBool (unitBit u) ++ 0b001#3, r.index, data⟩ = .hwrReg u r data) ∧
    (decodeAccess busy ⟨BitVec.ofBool (unitBit u) ++ 0b001#3, 0, data⟩ =
      if data % 2 = 1 ∧ busy = false then startInstr u else .hwrReg u .ctrl data) ∧
    decodeAccess busy ⟨BitVec.ofBool (unitBit u) ++ 0b011#3, index, data⟩ = .hwrIbuf u index data ∧
    decodeAccess busy ⟨BitVec.ofBool (unitBit u) ++ 0b100#3, index, data⟩ = .hrdObuf u index ∧
    decodeAccess busy ⟨BitVec.ofBool (unitBit u) ++ 0b010#3, index, data⟩ = .hill u .ibufRead index 0 ∧
    decodeAccess busy ⟨BitVec.ofBool (unitBit u) ++ 0b101#3, index, data⟩ = .hill u .obufWrite index data ∧
    decodeAccess busy ⟨BitVec.ofBool (unitBit u) ++ 0b110#3, index, data⟩ = .hill u .reservedRead index 0 ∧
    decodeAccess busy ⟨BitVec.ofBool (unitBit u) ++ 0b111#3, index, data⟩ = .hill u .reservedWrite index data ∧
    (3 < index → decodeAccess busy ⟨BitVec.ofBool (unitBit u) ++ 0b000#3, index, data⟩ = .hill u .regRead index 0) ∧
    (3 < index → decodeAccess busy ⟨BitVec.ofBool (unitBit u) ++ 0b001#3, index, data⟩ = .hill u .regWrite index data)

/-- A step runs the decoded instruction: what the step adds around `exec` is the turn it takes off the events to
come. -/
def Obligations.StepRunsTheDecodedInstruction : Prop :=
  ∀ (s s' : State) (c : Code) (i : Instr), s.turn = (.run c, s') → decode (s'.addressedBusy c) c = .ok i →
    step s = exec i s'

/-- 10_state.md R9 with 20_memory.md R29, on the model's agenda (log entries 2, 3, 4): which step an agent's turn is,
and what runs when no event is left. -/
def Obligations.TurnsFollowTheAgenda : Prop :=
  ∀ (s : State) (rest : List Event),
    (∀ a, s.agenda = .access a :: rest → s.turn = (.run (.access a), s.withAgenda rest)) ∧
    (∀ u, s.agenda = .seq u :: rest → s.busy u = true →
      s.turn = (.run (.key (s.dispatchKey u)), s.withAgenda rest)) ∧
    (∀ u, s.agenda = .seq u :: rest → s.busy u = false → step s = .next (s.withAgenda rest)) ∧
    (s.agenda = [] → s.busy .enc = false → s.busy .dec = false → step s = .next s) ∧
    (∀ u, s.agenda = [] → s.busy u = true → (∀ w, w ≠ u → s.busy w = false) →
      s.turn = (.run (.key (s.dispatchKey u)), s)) ∧
    (s.agenda = [] → s.busy .enc = true → s.busy .dec = true →
      ∃ u, s.turn = (.run (.key (s.dispatchKey u)), s.countDraw))

/-- 42_host_transactions.md R68: an access is one atomic step with the effect of its instruction; it is never
refused, delayed or retried. That the accesses come from the agenda is the model's (log entry 2). -/
def Obligations.EveryAccessCompletesInItsStep : Prop :=
  ∀ (s : State) (a : HostAccess) (rest : List Event), s.agenda = .access a :: rest →
    step s = exec (decodeAccess (s.busy a.unit) a) (s.withAgenda rest) ∧ ∃ t, step s = .next t ∧ t.agenda = rest

/-! ### The constant tables and the combinational functions -/

/-- 30_encoding.md R32, R34, R35: the two ROMs against each other and against the rows of the opcode table. -/
def Obligations.TablesAreInverse : Prop :=
  alutRom.length = 45 ∧ alutRom.Nodup ∧ dlutRom.length = 256 ∧ (dlutRom.filter (· = 0xFF)).length = 211 ∧
  (∀ d : Digit, dlutRom[(a2c d).toNat]? = some (BitVec.ofNat 8 d.val) ∧ (decodeChar (a2c d)).symIndex? = some d) ∧
  (∀ c : Byte, c ∉ alutRom → dlutRom[c.toNat]? = some 0xFF ∧ decodeChar c = .invalidChar c)

/-- 40_encoder_ops.md R48 and 41_decoder_ops.md R55: the two lookups, in range and inverse to each other. -/
def Obligations.LookupsAreInverse : Prop :=
  (∀ d : Digit, alutRom[d.val]? = some (a2c d) ∧ c2d (a2c d) = some d) ∧
  (∀ d e : Digit, a2c d = a2c e → d = e) ∧
  (∀ (c : Byte) (d : Digit), c2d c = some d ↔ dlutRom[c.toNat]? = some (BitVec.ofNat 8 d.val)) ∧
  (∀ c : Byte, c2d c = none ↔ dlutRom[c.toNat]? = some 0xFF) ∧
  (∀ c : Byte, c2d c = none ↔ c ∉ alutRom) ∧
  (∀ (c : Byte) (d : Digit), c2d c = some d → a2c d = c)

/-- 40_encoder_ops.md R46. -/
def Obligations.Pack16IsBigEndian : Prop :=
  ∀ b0 b1 : Byte, (pack16 b0 b1).toNat = b0.toNat * 256 + b1.toNat ∧ pack16 b0 b1 = b0 ++ b1

/-- 40_encoder_ops.md R47: the three digits, their corner cases, and the identity that rebuilds the value ("The identity
... holds for every `v <= 65535`", the spec's inference from R7). -/
def Obligations.DigitsRebuildTheValue : Prop :=
  ∀ v : Val16,
    (dig45 v .ones).val = v.toNat % 45 ∧ (dig45 v .fortyFives).val = v.toNat / 45 % 45 ∧
    (dig45 v .twentyTwentyFives).val = v.toNat / 2025 % 45 ∧
    (dig45 v .twentyTwentyFives).val = v.toNat / 2025 ∧ v.toNat / 2025 ≤ 32 ∧
    (v.toNat ≤ 255 → (dig45 v .fortyFives).val = v.toNat / 45 ∧ v.toNat / 45 ≤ 5 ∧ (dig45 v .twentyTwentyFives).val = 0) ∧
    (v.toNat < 45 → (dig45 v .fortyFives).val = 0) ∧
    v.toNat = (dig45 v .ones).val + 45 * (dig45 v .fortyFives).val + 2025 * (dig45 v .twentyTwentyFives).val

/-- 41_decoder_ops.md R56 with 30_encoding.md section 7: exact in 17 bits, the inverse of the digit extraction, and
the digits whose value is out of range, which are the spec's inference from R37 and R32 ("In digits, a `G3` triple is
illegal exactly when ..."). -/
def Obligations.Mac45RebuildsTheValue : Prop :=
  (∀ d0 d1 d2 : Digit, (mac45 d0 d1 d2).toNat = d0.val + 45 * d1.val + 2025 * d2.val ∧
    (mac45 d0 d1 d2).toNat ≤ 91124 ∧ (mac45 d0 d1 0).toNat ≤ 2024 ∧
    (65535 < (mac45 d0 d1 d2).toNat ↔
      33 ≤ d2.val ∨ (d2.val = 32 ∧ 17 ≤ d1.val) ∨ (d2.val = 32 ∧ d1.val = 16 ∧ 16 ≤ d0.val)) ∧
    (255 < (mac45 d0 d1 0).toNat ↔ 6 ≤ d1.val ∨ (d1.val = 5 ∧ 31 ≤ d0.val))) ∧
  (∀ v : Val16, (mac45 (dig45 v .ones) (dig45 v .fortyFives) (dig45 v .twentyTwentyFives)).toNat = v.toNat)

/-- 41_decoder_ops.md R57. -/
def Obligations.Unpack16IsBigEndian : Prop :=
  (∀ v : Val16, (unpack16 v).1.toNat = v.toNat / 256 ∧ (unpack16 v).2.toNat = v.toNat % 256 ∧
    unpack16 v = (v.extractLsb' 8 8, v.extractLsb' 0 8)) ∧
  (∀ b0 b1 : Byte, unpack16 (pack16 b0 b1) = (b0, b1))

/-- 43_codec_laws.md R79, the spec's inference from R7 ("these identities are exact on the stated ranges"): the digits
of `DIG45` by multiplications with a reciprocal. -/
def Obligations.ReciprocalsAreExact : Prop :=
  ∀ v : Val16,
    v.toNat / 45 = v.toNat * 11651 / 2 ^ 19 ∧ v.toNat / 2025 = v.toNat * 66281 / 2 ^ 27 ∧
    (dig45 v .ones).val = v.toNat - 45 * (v.toNat * 11651 / 2 ^ 19) ∧
    (dig45 v .fortyFives).val = v.toNat * 11651 / 2 ^ 19 % 45 ∧
    (dig45 v .twentyTwentyFives).val = v.toNat * 66281 / 2 ^ 27 % 45 ∧
    (v.toNat ≤ 255 → v.toNat / 45 = v.toNat * 365 / 2 ^ 14 ∧ (dig45 v .fortyFives).val = v.toNat * 365 / 2 ^ 14)

/-! ### The encoder's operations -/

/-- 40_encoder_ops.md R49. -/
def Obligations.EncStartBeginsATransaction : Prop :=
  (∀ s : State, exec .encStart s =
    .next { s with enc := { s.enc with rp := 0, wp := 0, olen := 0, state := .busy } }) ∧
  (∀ data : Nat, data % 2 = 1 → decodeAccess false ⟨0b0001, 0, data⟩ = .encStart ∧
    decodeAccess true ⟨0b0001, 0, data⟩ = .hwrReg .enc .ctrl data)

/-- 40_encoder_ops.md R50: selection, the datapath registers, the three characters, the pointers, and the frame; the
spec's inference "both pointers stay in range" (depth: log entry 15), and the third character is one of the first 33. -/
def Obligations.Enc2EncodesOneFullChunk : Prop :=
  (∀ s : State, s.Selects .enc .enc2 ↔ s.enc.state = .busy ∧ 2 ≤ s.enc.ilen - s.enc.rp) ∧
  (∀ (s : State) (b0 b1 : Byte), s.enc.ibuf.read s.enc.rp = some b0 → s.enc.ibuf.read (s.enc.rp + 1) = some b1 →
    s.enc.wp + 3 ≤ s.cfg.encOcap →
    let v := b0.toNat * 256 + b1.toNat
    ∃ m : Memory,
      exec .enc2 s = .next { s with enc := { s.enc with
        val := BitVec.ofNat 16 v, dg0 := BitVec.ofNat 6 (v % 45), dg1 := BitVec.ofNat 6 (v / 45 % 45),
        dg2 := BitVec.ofNat 6 (v / 2025 % 45), obuf := m, rp := s.enc.rp + 2, wp := s.enc.wp + 3 } } ∧
      ∀ j, m.read j =
        if j = s.enc.wp then alutRom[v % 45]?
        else if j = s.enc.wp + 1 then alutRom[v / 45 % 45]?
        else if j = s.enc.wp + 2 then alutRom[v / 2025 % 45]?
        else s.enc.obuf.read j) ∧
  (∀ s : State, s.Inv → s.Selects .enc .enc2 → s.enc.rp + 2 ≤ s.enc.ilen ∧ s.enc.wp + 3 ≤ s.cfg.encOcap) ∧
  (∀ v : Nat, v ≤ 65535 → ∃ c ∈ alutRom.take 33, alutRom[v / 2025 % 45]? = some c)

/-- 40_encoder_ops.md R51: as ENC2 for the tail byte; `DG2` unchanged; after it the read pointer is at the end, and the
second character is one of the first 6. That there is room in every state with the invariant is an inference (R77) over
the depth of log entry 15. -/
def Obligations.Enc1EncodesTheTailByte : Prop :=
  (∀ s : State, s.Selects .enc .enc1 ↔ s.enc.state = .busy ∧ s.enc.ilen - s.enc.rp = 1) ∧
  (∀ (s : State) (b : Byte), s.enc.ibuf.read s.enc.rp = some b → s.enc.wp + 2 ≤ s.cfg.encOcap →
    ∃ m : Memory,
      exec .enc1 s = .next { s with enc := { s.enc with
        val := BitVec.ofNat 16 b.toNat, dg0 := BitVec.ofNat 6 (b.toNat % 45), dg1 := BitVec.ofNat 6 (b.toNat / 45),
        obuf := m, rp := s.enc.rp + 1, wp := s.enc.wp + 2 } } ∧
      ∀ j, m.read j =
        if j = s.enc.wp then alutRom[b.toNat % 45]?
        else if j = s.enc.wp + 1 then (if 45 ≤ b.toNat then alutRom[b.toNat / 45]? else alutRom[0]?)
        else s.enc.obuf.read j) ∧
  (∀ s : State, s.Inv → s.Selects .enc .enc1 → s.enc.rp + 1 = s.enc.ilen ∧ s.enc.wp + 2 ≤ s.cfg.encOcap) ∧
  (∀ b : Byte, ∃ c ∈ alutRom.take 6, alutRom[b.toNat / 45]? = some c)

/-- 40_encoder_ops.md R52. -/
def Obligations.EncEndPublishesTheResult : Prop :=
  (∀ s : State, s.Selects .enc .encEnd ↔ s.enc.state = .busy ∧ s.enc.ilen - s.enc.rp = 0) ∧
  (∀ s : State, exec .encEnd s = .next { s with enc := { s.enc with olen := s.enc.wp, state := .done } }) ∧
  (∀ s t : State, exec .encEnd s = .next t → t.seqTurn .enc = .idle)

/-! ### The decoder's operations -/

/-- 41_decoder_ops.md R58, with 60_exceptions.md R94: START is also the way out of ERROR. -/
def Obligations.DecStartBeginsATransaction : Prop :=
  (∀ s : State, exec .decStart s = .next { s with dec := { s.dec with
    rp := 0, wp := 0, olen := 0, cause := .none, phase := .scan, state := .busy } }) ∧
  (∀ data : Nat, data % 2 = 1 → decodeAccess false ⟨0b1001, 0, data⟩ = .decStart ∧
    decodeAccess true ⟨0b1001, 0, data⟩ = .hwrReg .dec .ctrl data)

/-- 41_decoder_ops.md R65, 60_exceptions.md R93: taking the failure. -/
def Obligations.DecFailRecordsTheCauseOnly : Prop :=
  ∀ (s : State) (c : Cause),
    s.decFail c = { s with dec := { s.dec with cause := c, olen := 0, state := .error } } ∧
    (s.decFail c).busy .dec = false ∧ (s.decFail c).seqTurn .dec = .idle

/-- 41_decoder_ops.md R59. -/
def Obligations.DecScanChecksOneCharacter : Prop :=
  (∀ s : State, s.Selects .dec .decScan ↔
    s.dec.state = .busy ∧ s.dec.phase = .scan ∧ 1 ≤ s.dec.ilen - s.dec.rp) ∧
  (∀ (s : State) (c : Byte), s.dec.ibuf.read s.dec.rp = some c →
    (dlutRom[c.toNat]? = some 0xFF → exec .decScan s =
      .next { s with dec := { s.dec with cause := .char, olen := 0, state := .error } }) ∧
    (dlutRom[c.toNat]? ≠ some 0xFF → exec .decScan s = .next { s with dec := { s.dec with rp := s.dec.rp + 1 } }))

/-- 41_decoder_ops.md R60. -/
def Obligations.DecLenchkChecksTheLength : Prop :=
  (∀ s : State, s.Selects .dec .decLenchk ↔
    s.dec.state = .busy ∧ s.dec.phase = .scan ∧ s.dec.ilen - s.dec.rp = 0) ∧
  (∀ s : State,
    (s.dec.ilen % 3 = 1 → exec .decLenchk s =
      .next { s with dec := { s.dec with cause := .length, olen := 0, state := .error } }) ∧
    (s.dec.ilen % 3 ≠ 1 → exec .decLenchk s = .next { s with dec := { s.dec with rp := 0, phase := .group } }))

/-- 41_decoder_ops.md R61: the value is exact, a value above 65535 fails with nothing but the datapath registers
written, and a legal one gives two bytes, the more significant first; the
spec's inference that the three characters are digits, and (R77) that there is room for the bytes (log entries 14 and 15). -/
def Obligations.Dec3DecodesOneFullGroup : Prop :=
  (∀ s : State, s.Selects .dec .dec3 ↔
    s.dec.state = .busy ∧ s.dec.phase = .group ∧ 3 ≤ s.dec.ilen - s.dec.rp) ∧
  (∀ (s : State) (c0 c1 c2 : Byte) (d0 d1 d2 : Digit),
    s.dec.ibuf.read s.dec.rp = some c0 → s.dec.ibuf.read (s.dec.rp + 1) = some c1 →
    s.dec.ibuf.read (s.dec.rp + 2) = some c2 → c2d c0 = some d0 → c2d c1 = some d1 → c2d c2 = some d2 →
    let v := d0.val + 45 * d1.val + 2025 * d2.val
    let d := { s.dec with
      val := BitVec.ofNat 17 v, dg0 := BitVec.ofNat 6 d0.val, dg1 := BitVec.ofNat 6 d1.val, dg2 := BitVec.ofNat 6 d2.val }
    (65535 < v → exec .dec3 s = .next { s with dec := { d with cause := .range16, olen := 0, state := .error } }) ∧
    (v ≤ 65535 → s.dec.wp + 2 ≤ s.cfg.decOcap → ∃ m : Memory,
      exec .dec3 s = .next { s with dec := { d with obuf := m, rp := s.dec.rp + 3, wp := s.dec.wp + 2 } } ∧
      ∀ j, m.read j =
        if j = s.dec.wp then some (BitVec.ofNat 8 (v / 256))
        else if j = s.dec.wp + 1 then some (BitVec.ofNat 8 (v % 256))
        else s.dec.obuf.read j)) ∧
  (∀ s : State, s.Inv → s.Selects .dec .dec3 → s.dec.wp + 2 ≤ s.cfg.decOcap ∧
    ∀ k < 3, ((s.dec.ibuf.read (s.dec.rp + k)).bind c2d).isSome = true)

/-- 41_decoder_ops.md R62: as DEC3 for the tail group; `DG2` unchanged. That the two entries hold digits and there is
room in every state with the invariant is an inference, as in R61 and R77 (log entries 14 and 15). -/
def Obligations.Dec2DecodesTheTailGroup : Prop :=
  (∀ s : State, s.Selects .dec .dec2 ↔
    s.dec.state = .busy ∧ s.dec.phase = .group ∧ s.dec.ilen - s.dec.rp = 2) ∧
  (∀ (s : State) (c0 c1 : Byte) (d0 d1 : Digit),
    s.dec.ibuf.read s.dec.rp = some c0 → s.dec.ibuf.read (s.dec.rp + 1) = some c1 →
    c2d c0 = some d0 → c2d c1 = some d1 →
    let v := d0.val + 45 * d1.val
    let d := { s.dec with
      val := BitVec.ofNat 17 v, dg0 := BitVec.ofNat 6 d0.val, dg1 := BitVec.ofNat 6 d1.val }
    (255 < v → exec .dec2 s = .next { s with dec := { d with cause := .range8, olen := 0, state := .error } }) ∧
    (v ≤ 255 → s.dec.wp + 1 ≤ s.cfg.decOcap → ∃ m : Memory,
      exec .dec2 s = .next { s with dec := { d with obuf := m, rp := s.dec.rp + 2, wp := s.dec.wp + 1 } } ∧
      ∀ j, m.read j = if j = s.dec.wp then some (BitVec.ofNat 8 v) else s.dec.obuf.read j)) ∧
  (∀ s : State, s.Inv → s.Selects .dec .dec2 → s.dec.wp + 1 ≤ s.cfg.decOcap ∧
    ∀ k < 2, ((s.dec.ibuf.read (s.dec.rp + k)).bind c2d).isSome = true)

/-- 41_decoder_ops.md R63: selection, effect, and the spec's inference "This operation cannot be reached": no state
with the invariant selects it. -/
def Obligations.DecBadremFailsAndIsUnreachable : Prop :=
  (∀ s : State, s.Selects .dec .decBadrem ↔
    s.dec.state = .busy ∧ s.dec.phase = .group ∧ s.dec.ilen - s.dec.rp = 1) ∧
  (∀ s : State, exec .decBadrem s =
    .next { s with dec := { s.dec with cause := .length, olen := 0, state := .error } }) ∧
  (∀ s : State, s.Inv → ¬ s.Selects .dec .decBadrem)

/-- 41_decoder_ops.md R64. -/
def Obligations.DecEndPublishesTheResult : Prop :=
  (∀ s : State, s.Selects .dec .decEnd ↔
    s.dec.state = .busy ∧ s.dec.phase = .group ∧ s.dec.ilen - s.dec.rp = 0) ∧
  (∀ s : State, exec .decEnd s = .next { s with dec := { s.dec with olen := s.dec.wp, state := .done } })

/-- 93_implementation_defined.md U1, 70_reset_and_hazards.md section 2: reading an input entry the host has not
written faults; that the first such entry in reading order is named is the model's choice (log entry 6). -/
def Obligations.UnwrittenInputFaults : Prop :=
  ∀ s : State,
    (s.enc.ibuf.read s.enc.rp = none →
      exec .enc2 s = .fault (.ibufUnwritten .enc s.enc.rp) ∧ exec .enc1 s = .fault (.ibufUnwritten .enc s.enc.rp)) ∧
    (∀ b, s.enc.ibuf.read s.enc.rp = some b → s.enc.ibuf.read (s.enc.rp + 1) = none →
      exec .enc2 s = .fault (.ibufUnwritten .enc (s.enc.rp + 1))) ∧
    (s.dec.ibuf.read s.dec.rp = none →
      exec .decScan s = .fault (.ibufUnwritten .dec s.dec.rp) ∧ exec .dec3 s = .fault (.ibufUnwritten .dec s.dec.rp) ∧
      exec .dec2 s = .fault (.ibufUnwritten .dec s.dec.rp)) ∧
    (∀ b, s.dec.ibuf.read s.dec.rp = some b → s.dec.ibuf.read (s.dec.rp + 1) = none →
      exec .dec3 s = .fault (.ibufUnwritten .dec (s.dec.rp + 1)) ∧
      exec .dec2 s = .fault (.ibufUnwritten .dec (s.dec.rp + 1))) ∧
    (∀ b b', s.dec.ibuf.read s.dec.rp = some b → s.dec.ibuf.read (s.dec.rp + 1) = some b' →
      s.dec.ibuf.read (s.dec.rp + 2) = none → exec .dec3 s = .fault (.ibufUnwritten .dec (s.dec.rp + 2)))

/-! ### The alphabet's rows -/

/-- 30_encoding.md R32, R34 and the table's SYM rows: every SYM row passes the character, INVALID_CHAR raises
`InvalidEncoding(CHAR)`. -/
def Obligations.SymbolRowsPassAndInvalidCharFails : Prop :=
  (∀ (i : Instr) (d : Digit) (s : State), i.symIndex? = some d →
    exec i s = .next { s with dec := { s.dec with rp := s.dec.rp + 1 } }) ∧
  (∀ (c : Byte) (s : State), exec (.invalidChar c) s =
    .next { s with dec := { s.dec with cause := .char, olen := 0, state := .error } }) ∧
  (∀ d : Digit, ∃ i : Instr, i.symIndex? = some d)

/-- 41_decoder_ops.md section 2 and 30_encoding.md section 1: DEC.SCAN does what the row of the character it reads
does. -/
def Obligations.ScanRunsTheRowOfTheCharacter : Prop :=
  ∀ (s : State) (c : Byte), s.dec.ibuf.read s.dec.rp = some c →
    exec .decScan s = exec (decodeChar c) s ∧ ∃ t, exec .decScan s = .next t

/-! ### The host accesses -/

/-- 42_host_transactions.md R70; with the invariant `OLEN` reads 0 outside DONE. -/
def Obligations.HrdRegReturnsTheRegister : Prop :=
  ∀ s : State,
    (∀ u, exec (.hrdReg u .ctrl) s = .next { s with hrdata := 0 }) ∧
    exec (.hrdReg .enc .status) s = .next { s with hrdata := s.enc.state.code.toNat } ∧
    exec (.hrdReg .dec .status) s =
      .next { s with hrdata := 4 * s.dec.cause.code.toNat + s.dec.state.code.toNat } ∧
    exec (.hrdReg .enc .ilen) s = .next { s with hrdata := s.enc.ilen } ∧
    exec (.hrdReg .dec .ilen) s = .next { s with hrdata := s.dec.ilen } ∧
    exec (.hrdReg .enc .olen) s = .next { s with hrdata := s.enc.olen } ∧
    exec (.hrdReg .dec .olen) s = .next { s with hrdata := s.dec.olen } ∧
    (∀ u, s.Inv → s.done u = false → exec (.hrdReg u .olen) s = .next { s with hrdata := 0 })

/-- 42_host_transactions.md R69. -/
def Obligations.HwrRegWritesTheRegister : Prop :=
  ∀ (s : State) (v : Nat),
    (∀ u, exec (.hwrReg u .status v) s = .next s ∧ exec (.hwrReg u .olen v) s = .next s) ∧
    (∀ u r, s.busy u = true → exec (.hwrReg u r v) s = .next s) ∧
    (∀ u, v % 2 = 0 → exec (.hwrReg u .ctrl v) s = .next s) ∧
    (s.enc.state ≠ .busy → v % 2 = 1 → exec (.hwrReg .enc .ctrl v) s =
      .next { s with enc := { s.enc with rp := 0, wp := 0, olen := 0, state := .busy } }) ∧
    (s.dec.state ≠ .busy → v % 2 = 1 → exec (.hwrReg .dec .ctrl v) s = .next { s with dec := { s.dec with
      rp := 0, wp := 0, olen := 0, cause := .none, phase := .scan, state := .busy } }) ∧
    (s.enc.state ≠ .busy → exec (.hwrReg .enc .ilen v) s =
      .next { s with enc := { s.enc with ilen := v % 2 ^ s.cfg.encLenW } }) ∧
    (s.dec.state ≠ .busy → exec (.hwrReg .dec .ilen v) s =
      .next { s with dec := { s.dec with ilen := v % 2 ^ s.cfg.decLenW } })

/-- 42_host_transactions.md R71. -/
def Obligations.HwrIbufWritesOneEntry : Prop :=
  ∀ (s : State) (i v : Nat),
    (∀ u, s.busy u = true → exec (.hwrIbuf u i v) s = .next s) ∧
    (s.enc.state ≠ .busy → i < 2 ^ s.cfg.encLenW → ∃ m : Memory,
      exec (.hwrIbuf .enc i v) s = .next { s with enc := { s.enc with ibuf := m } } ∧
      ∀ j, m.read j = if j = i then some (BitVec.ofNat 8 (v % 256)) else s.enc.ibuf.read j) ∧
    (s.dec.state ≠ .busy → i < 2 ^ s.cfg.decLenW → ∃ m : Memory,
      exec (.hwrIbuf .dec i v) s = .next { s with dec := { s.dec with ibuf := m } } ∧
      ∀ j, m.read j = if j = i then some (BitVec.ofNat 8 (v % 256)) else s.dec.ibuf.read j)

/-- 42_host_transactions.md R72: a result entry in DONE, else a `draw` under no law, whatever it is; nothing but the
returned value (and the model's count of draws) changes. -/
def Obligations.HrdObufReturnsResultOrDraw : Prop :=
  ∀ (s : State) (u : UnitId) (j : Nat),
    (s.done u = true → j < s.olen u → ∀ b, (s.obuf u).read j = some b →
      exec (.hrdObuf u j) s = .next { s with hrdata := b.toNat }) ∧
    (s.done u = false ∨ s.olen u ≤ j → ∃ v, v < 2 ^ s.cfg.hdataW ∧
      exec (.hrdObuf u j) s = .next { s with hrdata := v, draws := s.draws + 1 })

/-- 42_host_transactions.md section 2 with the invariant: in DONE every entry below OLEN is stored, so the read
returns it. -/
def Obligations.DoneResultIsReadable : Prop :=
  ∀ (s : State) (u : UnitId) (j : Nat), s.Inv → s.done u = true → j < s.olen u →
    ∃ b, (s.obuf u).read j = some b ∧ exec (.hrdObuf u j) s = .next { s with hrdata := b.toNat }

/-- 42_host_transactions.md R73: which accesses are illegal, and what every illegal access does. -/
def Obligations.HillChangesNothing : Prop :=
  ∀ (s : State) (u : UnitId) (i v : Nat),
    (∀ (busy : Bool) (a : HostAccess),
      a.desc ∈ [0b0010, 0b0101, 0b0110, 0b0111, 0b1010, 0b1101, 0b1110, 0b1111] ∨
        (a.desc ∈ [0b0000, 0b0001, 0b1000, 0b1001] ∧ 3 < a.index) →
      ∃ k d, decodeAccess busy a = .hill a.unit k a.index d ∧ k.isRead = !a.desc.getLsbD 0) ∧
    (∀ k ∈ [IllegalKind.obufWrite, .reservedWrite, .regWrite], exec (.hill u k i v) s = .next s) ∧
    (∀ k ∈ [IllegalKind.ibufRead, .reservedRead, .regRead], ∃ w, w < 2 ^ s.cfg.hdataW ∧
      exec (.hill u k i v) s = .next { s with hrdata := w, draws := s.draws + 1 })

/-- 60_exceptions.md R91: the five outputs mirror the status registers. -/
def Obligations.LevelOutputsMirrorState : Prop :=
  ∀ s : State,
    (s.encBusyOut = true ↔ s.enc.state = .busy) ∧ (s.encDoneOut = true ↔ s.enc.state = .done) ∧
    (s.decBusyOut = true ↔ s.dec.state = .busy) ∧ (s.decDoneOut = true ↔ s.dec.state = .done) ∧
    (s.decErrorOut = true ↔ s.dec.state = .error)

/-! ### Reset -/

/-- 10_state.md section 12 (the values R20 states; the registers it leaves unspecified are not stated). -/
def Obligations.ResetLeavesTheSpecsValues : Prop :=
  ∀ cfg : Config, let s := State.resetOf cfg
    s.enc.state = .idle ∧ s.dec.state = .idle ∧ s.dec.cause = .none ∧ s.enc.ilen = 0 ∧ s.dec.ilen = 0 ∧
    s.enc.olen = 0 ∧ s.dec.olen = 0 ∧ s.enc.rp = 0 ∧ s.enc.wp = 0 ∧ s.dec.rp = 0 ∧ s.dec.wp = 0 ∧
    s.dec.phase = .scan ∧ (∀ u i, (s.ibuf u).read i = none ∧ (s.obuf u).read i = none) ∧
    State.reset = State.resetOf State.reset.cfg

/-- 70_reset_and_hazards.md section 1: reset is a step of its own from any state, the only one that ends a BUSY
transaction early. That the events to come and the count of draws stay is the model's (log entry 17). -/
def Obligations.ResetMapsAnyStateToTheResetState : Prop :=
  ∀ (s : State) (rest : List Event), s.agenda = .reset :: rest →
    step s = .next { State.resetOf s.cfg with draws := s.draws, agenda := rest }

/-! ### The machine's invariant -/

/-- The state after reset has the invariant, at the widths of log entry 1; that the digit registers hold digits then is
the model's choice (log entry 5). -/
def Obligations.ResetStateHasTheInvariant : Prop := State.reset.Inv

/-- 10_state.md R12, R13, R15, 43_codec_laws.md R77: from every state with the invariant, not only those of a run
from reset, every step keeps it: buffers in canonical form and within their depth, registers within their widths,
`RP <= ILEN` and aligned, `WP` in step with `RP`, what was scanned are digits, `CAUSE` set exactly in `ERROR`. That digit
registers hold digits after a reset step too is the model's choice (log entry 5). -/
def Obligations.EveryStepKeepsTheInvariant : Prop :=
  ∀ s t : State, s.Inv → step s = .next t → t.Inv

/-- 30_encoding.md section 6, 42_host_transactions.md section 1: in no state does a step refuse; every key a unit
forms has an operation, every access an effect. -/
def Obligations.NoStepRefuses : Prop :=
  ∀ (s : State) (r : Refusal), step s ≠ .refused r

/-- 70_reset_and_hazards.md section 2, 43_codec_laws.md section 1: with the invariant the one fault is the read of an
input entry below ILEN that the host has not written; so a transaction on written input never faults. -/
def Obligations.OnlyUnwrittenInputCanFault : Prop :=
  ∀ (s : State) (f : Fault), s.Inv → step s = .fault f →
    ∃ u i, f = .ibufUnwritten u i ∧ s.busy u = true ∧ i < s.ilen u ∧ (s.ibuf u).read i = none

/-! ### Whole-machine rules -/

/-- 10_state.md section 1: a sequencer's step writes its own unit only, and of it neither the input buffer nor the
input length. -/
def Obligations.SequencerStepStaysInItsUnit : Prop :=
  ∀ (s t : State) (u : UnitId) (rest : List Event), s.agenda = .seq u :: rest → step s = .next t →
    t.cfg = s.cfg ∧ t.hrdata = s.hrdata ∧ t.draws = s.draws ∧ t.agenda = rest ∧
    (u = .enc → t.dec = s.dec) ∧ (u = .dec → t.enc = s.enc) ∧
    t.ibuf u = s.ibuf u ∧ t.ilen u = s.ilen u ∧ (s.busy u = false → t = s.withAgenda rest)

/-- 20_memory.md section 7, consequence 2 of R29: between START and the end the unit's input does not change; only
reset can interfere. -/
def Obligations.InputIsFrozenWhileBusy : Prop :=
  ∀ (s t : State) (u : UnitId), s.busy u = true → step s = .next t → (∀ rest, s.agenda ≠ .reset :: rest) →
    t.ibuf u = s.ibuf u ∧ t.ilen u = s.ilen u

/-- 10_state.md section 7, 20_memory.md section 7: the result and the status of a unit that is not BUSY persist until
its next START or reset. -/
def Obligations.ResultPersistsUntilStartOrReset : Prop :=
  ∀ (s t : State), step s = .next t → (∀ rest, s.agenda ≠ .reset :: rest) →
    (s.busy .enc = false → (∀ a rest, s.agenda = .access a :: rest → decodeAccess false a ≠ .encStart) →
      t.enc.state = s.enc.state ∧ t.enc.olen = s.enc.olen ∧ t.enc.obuf = s.enc.obuf) ∧
    (s.busy .dec = false → (∀ a rest, s.agenda = .access a :: rest → decodeAccess false a ≠ .decStart) →
      t.dec.state = s.dec.state ∧ t.dec.cause = s.dec.cause ∧ t.dec.olen = s.dec.olen ∧ t.dec.obuf = s.dec.obuf)

/-- 43_codec_laws.md section 3: a sequencer's step on its own unit depends on that unit and the widths alone, whatever
the other unit, the host port and the rest of the machine hold. -/
def Obligations.SequencerStepDependsOnItsUnitAlone : Prop :=
  ∀ (s s' t : State) (rest rest' : List Event), s.cfg = s'.cfg → step s = .next t →
    (s.agenda = .seq .enc :: rest → s'.agenda = .seq .enc :: rest' → s.enc = s'.enc →
      ∃ t', step s' = .next t' ∧ t'.enc = t.enc) ∧
    (s.agenda = .seq .dec :: rest → s'.agenda = .seq .dec :: rest' → s.dec = s'.dec →
      ∃ t', step s' = .next t' ∧ t'.dec = t.dec)

/-! ### Laws of the codec -/

/-- 43_codec_laws.md R83. -/
def Obligations.DecodeInvertsEncode : Prop :=
  (∀ p : List Byte, decodeText (encodeBytes p) = .ok p) ∧
  (∀ b : Byte, (encodeBytes [b]).length = 2 ∧ decodeText (encodeBytes [b]) = .ok [b]) ∧
  encodeBytes [] = [] ∧ decodeText [] = .ok [] ∧
  (∀ d : Digit, c2d (a2c d) = some d) ∧
  (∀ v : Val16, (mac45 (dig45 v .ones) (dig45 v .fortyFives) (dig45 v .twentyTwentyFives)).toNat = v.toNat) ∧
  (∀ b0 b1 : Byte, unpack16 (pack16 b0 b1) = (b0, b1))

/-- 43_codec_laws.md R80. -/
def Obligations.LengthLaw : Prop :=
  (∀ p : List Byte, (encodeBytes p).length = 3 * (p.length / 2) + 2 * (p.length % 2)) ∧
  (∀ t p : List Byte, decodeText t = .ok p → p.length = 2 * (t.length / 3) + if t.length % 3 = 2 then 1 else 0) ∧
  (∀ p : List Byte, (encodeBytes p).length % 3 ≠ 1)

/-- 43_codec_laws.md R81: the alphabet closure, and the spec's inference from R47 ("Stronger"). -/
def Obligations.EncodedTextsStayInTheAlphabet : Prop :=
  (∀ p : List Byte, ∀ c ∈ encodeBytes p, c ∈ alutRom) ∧
  (∀ (p : List Byte) (k : Nat), k < p.length / 2 → ∃ c, (encodeBytes p)[3 * k + 2]? = some c ∧ c ∈ alutRom.take 33) ∧
  (∀ (p : List Byte), p.length % 2 = 1 → ∃ c, (encodeBytes p).getLast? = some c ∧ c ∈ alutRom.take 6)

/-- 20_memory.md R24: chunk `k` of the payload becomes group `k` of the text, the odd last byte the last two
characters. -/
def Obligations.ChunksBecomeGroupsInOrder : Prop :=
  ∀ p : List Byte,
    (∀ (k : Nat) (b0 b1 : Byte), p[2 * k]? = some b0 → p[2 * k + 1]? = some b1 →
      ((encodeBytes p).drop (3 * k)).take 3 = fullGroup b0 b1) ∧
    (p.length % 2 = 1 → ∃ b, p[p.length - 1]? = some b ∧ (encodeBytes p).drop (3 * (p.length / 2)) = tailGroup b)

/-- 43_codec_laws.md R86: the decoder accepts exactly the encoder's image, and ENCODE is injective. -/
def Obligations.DecoderAcceptsExactlyTheEncodersImage : Prop :=
  (∀ t p : List Byte, decodeText t = .ok p ↔ t = encodeBytes p) ∧
  (∀ p q : List Byte, encodeBytes p = encodeBytes q → p = q)

/-- 43_codec_laws.md R84. -/
def Obligations.MalformedTextsAreRejected : Prop :=
  decodeText [0x40, 0x40, 0x40] = .error .char ∧
  (∀ (t : List Byte) (g : Nat) (c0 c1 c2 : Byte) (d0 d1 d2 : Digit),
    t[3 * g]? = some c0 → t[3 * g + 1]? = some c1 → t[3 * g + 2]? = some c2 →
    c2d c0 = some d0 → c2d c1 = some d1 → c2d c2 = some d2 → 65535 < d0.val + 45 * d1.val + 2025 * d2.val →
    ∃ c, decodeText t = .error c) ∧
  (∀ t : List Byte, t.length % 3 = 1 → ∃ c, decodeText t = .error c) ∧
  (∀ (t : List Byte) (c0 c1 : Byte) (d0 d1 : Digit), t.length % 3 = 2 →
    t[t.length - 2]? = some c0 → t[t.length - 1]? = some c1 → c2d c0 = some d0 → c2d c1 = some d1 →
    255 < d0.val + 45 * d1.val → ∃ c, decodeText t = .error c)

/-- 60_exceptions.md R92: the priority of the causes. -/
def Obligations.CausesInTheOrderOfTheAlgorithm : Prop :=
  ∀ t : List Byte,
    ((∃ c ∈ t, c2d c = none) → decodeText t = .error .char) ∧
    ((∀ c ∈ t, c2d c ≠ none) → t.length % 3 = 1 → decodeText t = .error .length) ∧
    (∀ ds : List Digit, t.mapM c2d = some ds → t.length % 3 ≠ 1 →
      ((∃ (g : Nat) (d0 d1 d2 : Digit), ds[3 * g]? = some d0 ∧ ds[3 * g + 1]? = some d1 ∧ ds[3 * g + 2]? = some d2 ∧
          65535 < d0.val + 45 * d1.val + 2025 * d2.val) → decodeText t = .error .range16) ∧
      ((∀ (g : Nat) (d0 d1 d2 : Digit), ds[3 * g]? = some d0 → ds[3 * g + 1]? = some d1 → ds[3 * g + 2]? = some d2 →
          d0.val + 45 * d1.val + 2025 * d2.val ≤ 65535) →
        ((∃ d0 d1 : Digit, t.length % 3 = 2 ∧ ds[t.length - 2]? = some d0 ∧ ds[t.length - 1]? = some d1 ∧
            255 < d0.val + 45 * d1.val) → decodeText t = .error .range8) ∧
        ((∀ d0 d1 : Digit, t.length % 3 = 2 → ds[t.length - 2]? = some d0 → ds[t.length - 1]? = some d1 →
            d0.val + 45 * d1.val ≤ 255) → ∃ p : List Byte, decodeText t = .ok p)))

/-! ### Whole transactions -/

/-- 40_encoder_ops.md R54 (the spec's inference from R49 to R52 and R39): an encoder transaction computes ENCODE, with
exactly the steps the rule gives, whatever events follow and whatever the decoder and the host port hold. The agenda is
the model's (log entry 2). -/
def Obligations.EncoderTransactionComputesEncode : Prop :=
  ∀ (s : State) (x : List Byte) (rest : List Event), s.enc.ilen = x.length → s.enc.ibuf.Holds x →
    x.length < 2 ^ s.cfg.encLenW → s.agenda = List.replicate (encSteps x.length) (.seq .enc) ++ rest →
    ∃ s1 : State, exec .encStart s = .next s1 ∧
      (∀ k < encSteps x.length, ∃ t : State, core.run k s1 = .next t ∧ t.Selects .enc (encOpAt x.length k)) ∧
      (∀ k ≤ x.length / 2, ∃ t : State, core.run k s1 = .next t ∧ t.enc.rp = 2 * k ∧ t.enc.wp = 3 * k) ∧
      (∃ t : State, core.run (encSteps x.length) s1 = .next t ∧ t.enc.state = .done ∧
        t.enc.olen = 3 * (x.length / 2) + 2 * (x.length % 2) ∧ t.enc.olen = (encodeBytes x).length ∧
        t.enc.obuf.Holds (encodeBytes x) ∧ t.enc.ibuf = s.enc.ibuf ∧ t.enc.ilen = s.enc.ilen ∧
        t.dec = s.dec ∧ t.cfg = s.cfg ∧ t.hrdata = s.hrdata ∧ t.agenda = rest)

/-- 41_decoder_ops.md R67 (the spec's inference from R58 to R65 and R39): a decoder transaction computes DECODE or fails
with its cause, after exactly the steps the rule gives. The agenda is the model's (log entry 2). -/
def Obligations.DecoderTransactionComputesDecode : Prop :=
  ∀ (s : State) (x : List Byte) (rest : List Event), s.dec.ilen = x.length → s.dec.ibuf.Holds x →
    x.length < 2 ^ s.cfg.decLenW → s.agenda = List.replicate (decSteps x) (.seq .dec) ++ rest →
    ∃ s1 : State, exec .decStart s = .next s1 ∧
      (∀ k < decSteps x, ∃ t : State, core.run k s1 = .next t ∧ t.Selects .dec (decOpAt x.length k)) ∧
      (∃ t : State, core.run (decSteps x) s1 = .next t ∧
        (∀ p, decodeText x = .ok p → t.dec.state = .done ∧ t.dec.cause = .none ∧ t.dec.olen = p.length ∧
          t.dec.obuf.Holds p) ∧
        (∀ c, decodeText x = .error c → t.dec.state = .error ∧ t.dec.cause = c ∧ t.dec.olen = 0) ∧
        t.dec.ibuf = s.dec.ibuf ∧ t.dec.ilen = s.dec.ilen ∧
        t.enc = s.enc ∧ t.cfg = s.cfg ∧ t.hrdata = s.hrdata ∧ t.agenda = rest)

/-- 43_codec_laws.md R82, R88 (the spec's inference from R9), 20_memory.md R29: once started, a unit's result is that of
its input, whatever host accesses and steps of the other unit come between its own steps. The list of events is the
model's agenda (log entry 2). -/
def Obligations.ResultIsTheSameUnderEveryInterleaving : Prop :=
  ∀ (s t : State) (x : List Byte), Event.reset ∉ s.agenda → core.run s.agenda.length s = .next t →
    (s.enc = { s.enc with ilen := x.length, rp := 0, wp := 0, olen := 0, state := .busy } → s.enc.ibuf.Holds x →
      s.agenda.count (.seq .enc) = encSteps x.length → s.agenda.getLast? = some (.seq .enc) →
      t.enc.state = .done ∧ t.enc.olen = (encodeBytes x).length ∧ t.enc.obuf.Holds (encodeBytes x)) ∧
    (s.dec = { s.dec with
        ilen := x.length, rp := 0, wp := 0, olen := 0, cause := .none, phase := .scan, state := .busy } →
      s.dec.ibuf.Holds x →
      s.agenda.count (.seq .dec) = decSteps x → s.agenda.getLast? = some (.seq .dec) →
      (∀ p, decodeText x = .ok p → t.dec.state = .done ∧ t.dec.cause = .none ∧ t.dec.olen = p.length ∧
        t.dec.obuf.Holds p) ∧
      (∀ c, decodeText x = .error c → t.dec.state = .error ∧ t.dec.cause = c ∧ t.dec.olen = 0))

/-- 42_host_transactions.md section 3 (the protocol of R74): from any state in which the unit is not BUSY, the
accesses of one call and the unit's own steps give the call's result, and the host reads it back entry by entry. -/
def Obligations.HostCallReturnsTheFunction : Prop :=
  ∀ (s : State) (x : List Byte) (rest : List Event),
    (s.busy .enc = false → x.length < 2 ^ s.cfg.encLenW →
      s.agenda = (hostCall .enc x).map .access ++ List.replicate (encSteps x.length) (.seq .enc) ++ rest →
      ∃ t : State, core.run (x.length + 2 + encSteps x.length) s = .next t ∧ t.enc.state = .done ∧
        t.enc.olen = (encodeBytes x).length ∧ t.dec = s.dec ∧ t.agenda = rest ∧
        ∀ j b, (encodeBytes x)[j]? = some b → exec (.hrdObuf .enc j) t = .next { t with hrdata := b.toNat }) ∧
    (s.busy .dec = false → x.length < 2 ^ s.cfg.decLenW →
      s.agenda = (hostCall .dec x).map .access ++ List.replicate (decSteps x) (.seq .dec) ++ rest →
      ∃ t : State, core.run (x.length + 2 + decSteps x) s = .next t ∧ t.enc = s.enc ∧ t.agenda = rest ∧
        (∀ p, decodeText x = .ok p → t.dec.state = .done ∧ t.dec.olen = p.length ∧
          ∀ j b, p[j]? = some b → exec (.hrdObuf .dec j) t = .next { t with hrdata := b.toNat }) ∧
        (∀ c, decodeText x = .error c → t.dec.state = .error ∧ t.dec.cause = c ∧ t.dec.olen = 0))

/-- 70_reset_and_hazards.md section 3 (R100), 43_codec_laws.md R88: with no event left to come, BUSY units on written
input always reach their end, in a number of steps linear in the input lengths, whichever unit the free choice lets
go first. -/
def Obligations.BusyUnitsReachTheirEnd : Prop :=
  ∀ s : State, s.Inv → s.agenda = [] → (∀ u : UnitId, s.busy u = true → s.InputWritten u) →
    ∃ (k : Nat) (t : State), k ≤ encSteps s.enc.ilen + (s.dec.ilen + s.dec.ilen / 3 + 3) ∧ core.run k s = .next t ∧
      t.busy .enc = false ∧ t.busy .dec = false ∧
      (s.busy .enc = true → t.enc.state = .done) ∧ (s.busy .dec = true → t.dec.state = .done ∨ t.dec.state = .error)
end

