-- ==== Sys2Proof/Laws/Operands.lean ====
section
/-! SUPPORT. The small lemmas of the combinational functions: what each result is as a number, and the two ROMs read
entry by entry. -/

namespace Sys2Proof

@[simp] theorem dig45_ones (v : Val16) : (dig45 v .ones).val = v.toNat % 45 := rfl

@[simp] theorem dig45_fortyFives (v : Val16) : (dig45 v .fortyFives).val = v.toNat / 45 % 45 := rfl

@[simp] theorem dig45_twentyTwentyFives (v : Val16) : (dig45 v .twentyTwentyFives).val = v.toNat / 2025 % 45 := rfl

theorem pack16_toNat (b0 b1 : Byte) : (pack16 b0 b1).toNat = b0.toNat * 256 + b1.toNat := by
  have h0 := b0.isLt
  have h1 := b1.isLt
  simp only [pack16, BitVec.toNat_ofNat]
  omega

/-- `MAC45` is exact: the sum fits 17 bits (R56, R77). -/
theorem mac45_toNat (d0 d1 d2 : Digit) : (mac45 d0 d1 d2).toNat = d0.val + 45 * d1.val + 2025 * d2.val := by
  have h0 := d0.isLt
  have h1 := d1.isLt
  have h2 := d2.isLt
  simp only [mac45, BitVec.toNat_ofNat]
  omega

theorem digReg_toNat (d : Digit) : (digReg d).toNat = d.val := by
  have h := d.isLt
  simp only [digReg, BitVec.toNat_ofNat]
  omega

theorem digReg_toNat_lt (d : Digit) : (digReg d).toNat < 45 := by
  rw [digReg_toNat]
  exact d.isLt

/-- The alphabet ROM read as a list. -/
theorem alutRom_getElem? (d : Digit) : alutRom[d.val]? = some (a2c d) := by
  revert d
  decide

/-- The decode ROM inverts the alphabet ROM. -/
theorem dlut_a2c (d : Digit) : dlut (a2c d) = BitVec.ofNat 8 d.val := by
  revert d
  decide

theorem digitOf_eq_some (w : Byte) (d : Digit) : digitOf w = some d ↔ w = BitVec.ofNat 8 d.val := by
  have hd := d.isLt
  unfold digitOf
  split_ifs with h
  · simp only [Option.some.injEq, Fin.ext_iff, ← BitVec.toNat_inj, BitVec.toNat_ofNat]
    omega
  · simp only [← BitVec.toNat_inj, BitVec.toNat_ofNat, false_iff]
    omega

/-- Every word of the decode ROM is a digit or `INVALID` (R35), and a digit's word is that of its own character. -/
theorem dlut_cases (c : Byte) : dlut c = 0xFF ∨ ∃ d : Digit, dlut c = BitVec.ofNat 8 d.val ∧ a2c d = c := by
  revert c
  decide

theorem dlutRom_getElem? (c : Byte) : dlutRom[c.toNat]? = some (dlut c) := by
  revert c
  decide

theorem c2d_eq_some (c : Byte) (d : Digit) : c2d c = some d ↔ dlut c = BitVec.ofNat 8 d.val :=
  digitOf_eq_some _ _

theorem c2d_eq_none (c : Byte) : c2d c = none ↔ dlut c = 0xFF := by
  constructor
  · intro h
    rcases dlut_cases c with h' | ⟨d, h', -⟩
    · exact h'
    · rw [(c2d_eq_some c d).mpr h'] at h
      exact absurd h (by simp)
  · intro h
    simp only [c2d, h]
    decide

end Sys2Proof
end

