-- ==== Sys2Proof/Laws/Decode.lean ====
section
/-! SUPPORT. The descriptor's fields read back, the register numbers, and the SYM rows against the decode ROM. -/

namespace Sys2Proof

@[simp] theorem HostAccess.unit_descOf (u : UnitId) (sp : Space) (we : Bool) (i d : Nat) :
    HostAccess.unit ⟨descOf u sp we, i, d⟩ = u := by
  have h : ∀ u sp we, (if (descOf u sp we).getLsbD 3 then UnitId.dec else UnitId.enc) = u := by
    intro u sp we
    cases u <;> cases sp <;> cases we <;> rfl
  exact h u sp we

@[simp] theorem HostAccess.space_descOf (u : UnitId) (sp : Space) (we : Bool) (i d : Nat) :
    HostAccess.space ⟨descOf u sp we, i, d⟩ = sp := by
  cases u <;> cases sp <;> cases we <;> simp only [HostAccess.space, descOf] <;> rfl

@[simp] theorem HostAccess.we_descOf (u : UnitId) (sp : Space) (we : Bool) (i d : Nat) :
    HostAccess.we ⟨descOf u sp we, i, d⟩ = we := by
  cases u <;> cases sp <;> cases we <;> simp only [HostAccess.we, descOf] <;> rfl

/-- Every descriptor is one of the three fields put together (R40). -/
theorem eq_descOf (a : HostAccess) : a.desc = descOf a.unit a.space a.we := by
  obtain ⟨desc, i, d⟩ := a
  have h : ∀ desc : BitVec 4, desc = descOf (if desc.getLsbD 3 then UnitId.dec else UnitId.enc)
      (match desc.getLsbD 2, desc.getLsbD 1 with
        | false, false => Space.reg
        | false, true => Space.ibuf
        | true, false => Space.obuf
        | true, true => Space.reserved) (desc.getLsbD 0) := by decide
  exact h desc

@[simp] theorem RegNum.ofIndex?_index (r : RegNum) : RegNum.ofIndex? r.index = some r := by
  cases r <;> rfl

theorem RegNum.ofIndex?_eq_none {i : Nat} : RegNum.ofIndex? i = none ↔ 4 ≤ i := by
  constructor
  · intro h
    by_contra hi
    have : i = 0 ∨ i = 1 ∨ i = 2 ∨ i = 3 := by omega
    rcases this with rfl | rfl | rfl | rfl <;> cases h
  · intro h
    obtain ⟨n, rfl⟩ := Nat.exists_eq_add_of_le' h
    rfl

/-- What a host access decodes to, by its space and direction. -/
theorem decodeAccess_reg_read (busy : Bool) (u : UnitId) (i d : Nat) :
    decodeAccess busy ⟨descOf u .reg false, i, d⟩ =
      match RegNum.ofIndex? i with
      | some r => .hrdReg u r
      | none => .hill u .regRead i 0 := by
  cases h : RegNum.ofIndex? i <;>
    simp only [decodeAccess, HostAccess.unit_descOf, HostAccess.space_descOf, HostAccess.we_descOf, h]

theorem decodeAccess_reg_write (busy : Bool) (u : UnitId) (i d : Nat) :
    decodeAccess busy ⟨descOf u .reg true, i, d⟩ =
      match RegNum.ofIndex? i with
      | some r => decodeRegWrite busy u r d
      | none => .hill u .regWrite i d := by
  cases h : RegNum.ofIndex? i <;>
    simp only [decodeAccess, HostAccess.unit_descOf, HostAccess.space_descOf, HostAccess.we_descOf, h]

@[simp] theorem decodeAccess_ibuf_write (busy : Bool) (u : UnitId) (i d : Nat) :
    decodeAccess busy ⟨descOf u .ibuf true, i, d⟩ = .hwrIbuf u i d := by
  simp [decodeAccess]

@[simp] theorem decodeAccess_ibuf_read (busy : Bool) (u : UnitId) (i d : Nat) :
    decodeAccess busy ⟨descOf u .ibuf false, i, d⟩ = .hill u .ibufRead i 0 := by
  simp [decodeAccess]

@[simp] theorem decodeAccess_obuf_read (busy : Bool) (u : UnitId) (i d : Nat) :
    decodeAccess busy ⟨descOf u .obuf false, i, d⟩ = .hrdObuf u i := by
  simp [decodeAccess]

@[simp] theorem decodeAccess_obuf_write (busy : Bool) (u : UnitId) (i d : Nat) :
    decodeAccess busy ⟨descOf u .obuf true, i, d⟩ = .hill u .obufWrite i d := by
  simp [decodeAccess]

@[simp] theorem decodeAccess_reserved_read (busy : Bool) (u : UnitId) (i d : Nat) :
    decodeAccess busy ⟨descOf u .reserved false, i, d⟩ = .hill u .reservedRead i 0 := by
  simp [decodeAccess]

@[simp] theorem decodeAccess_reserved_write (busy : Bool) (u : UnitId) (i d : Nat) :
    decodeAccess busy ⟨descOf u .reserved true, i, d⟩ = .hill u .reservedWrite i d := by
  simp [decodeAccess]

/-- The SYM rows cover exactly the characters the decode ROM gives a digit, with that digit (R32, R34). -/
theorem decodeChar_cases (c : Byte) :
    (∃ d, c2d c = some d ∧ (decodeChar c).symIndex? = some d) ∨
      (c2d c = none ∧ decodeChar c = .invalidChar c) := by
  have h : ∀ c : Byte, (c2d c = (decodeChar c).symIndex? ∧ (c2d c).isSome = true) ∨
      (c2d c = none ∧ decodeChar c = .invalidChar c) := by decide
  rcases h c with ⟨h, hs⟩ | h
  · obtain ⟨d, hd⟩ := Option.isSome_iff_exists.mp hs
    exact .inl ⟨d, hd, h ▸ hd⟩
  · exact .inr h

end Sys2Proof
end

