-- ==== Sys2Proof/Laws/State.lean ====
section
/-! SUPPORT. One lemma per field per update, so that no later proof unfolds a record update; and the views of a unit
(`State.ibuf`, `State.ilen` and so on) at each unit. -/

namespace Sys2Proof.Machine

/-! ### `EncUnit.start` -/

@[simp] theorem EncUnit.start_ibuf (e : EncUnit) : (e.start).ibuf = e.ibuf := rfl

@[simp] theorem EncUnit.start_ilen (e : EncUnit) : (e.start).ilen = e.ilen := rfl

@[simp] theorem EncUnit.start_obuf (e : EncUnit) : (e.start).obuf = e.obuf := rfl

@[simp] theorem EncUnit.start_olen (e : EncUnit) : (e.start).olen = 0 := rfl

@[simp] theorem EncUnit.start_state (e : EncUnit) : (e.start).state = .busy := rfl

@[simp] theorem EncUnit.start_rp (e : EncUnit) : (e.start).rp = 0 := rfl

@[simp] theorem EncUnit.start_wp (e : EncUnit) : (e.start).wp = 0 := rfl

@[simp] theorem EncUnit.start_val (e : EncUnit) : (e.start).val = e.val := rfl

@[simp] theorem EncUnit.start_dg0 (e : EncUnit) : (e.start).dg0 = e.dg0 := rfl

@[simp] theorem EncUnit.start_dg1 (e : EncUnit) : (e.start).dg1 = e.dg1 := rfl

@[simp] theorem EncUnit.start_dg2 (e : EncUnit) : (e.start).dg2 = e.dg2 := rfl

/-! ### `EncUnit.finish` -/

@[simp] theorem EncUnit.finish_ibuf (e : EncUnit) : (e.finish).ibuf = e.ibuf := rfl

@[simp] theorem EncUnit.finish_ilen (e : EncUnit) : (e.finish).ilen = e.ilen := rfl

@[simp] theorem EncUnit.finish_obuf (e : EncUnit) : (e.finish).obuf = e.obuf := rfl

@[simp] theorem EncUnit.finish_olen (e : EncUnit) : (e.finish).olen = e.wp := rfl

@[simp] theorem EncUnit.finish_state (e : EncUnit) : (e.finish).state = .done := rfl

@[simp] theorem EncUnit.finish_rp (e : EncUnit) : (e.finish).rp = e.rp := rfl

@[simp] theorem EncUnit.finish_wp (e : EncUnit) : (e.finish).wp = e.wp := rfl

@[simp] theorem EncUnit.finish_val (e : EncUnit) : (e.finish).val = e.val := rfl

@[simp] theorem EncUnit.finish_dg0 (e : EncUnit) : (e.finish).dg0 = e.dg0 := rfl

@[simp] theorem EncUnit.finish_dg1 (e : EncUnit) : (e.finish).dg1 = e.dg1 := rfl

@[simp] theorem EncUnit.finish_dg2 (e : EncUnit) : (e.finish).dg2 = e.dg2 := rfl

/-! ### `EncUnit.latch2` -/

@[simp] theorem EncUnit.latch2_ibuf (e : EncUnit) (v : Val16) (d0 d1 : Digit) : (e.latch2 v d0 d1).ibuf = e.ibuf := rfl

@[simp] theorem EncUnit.latch2_ilen (e : EncUnit) (v : Val16) (d0 d1 : Digit) : (e.latch2 v d0 d1).ilen = e.ilen := rfl

@[simp] theorem EncUnit.latch2_obuf (e : EncUnit) (v : Val16) (d0 d1 : Digit) : (e.latch2 v d0 d1).obuf = e.obuf := rfl

@[simp] theorem EncUnit.latch2_olen (e : EncUnit) (v : Val16) (d0 d1 : Digit) : (e.latch2 v d0 d1).olen = e.olen := rfl

@[simp] theorem EncUnit.latch2_state (e : EncUnit) (v : Val16) (d0 d1 : Digit) : (e.latch2 v d0 d1).state = e.state := rfl

@[simp] theorem EncUnit.latch2_rp (e : EncUnit) (v : Val16) (d0 d1 : Digit) : (e.latch2 v d0 d1).rp = e.rp := rfl

@[simp] theorem EncUnit.latch2_wp (e : EncUnit) (v : Val16) (d0 d1 : Digit) : (e.latch2 v d0 d1).wp = e.wp := rfl

@[simp] theorem EncUnit.latch2_val (e : EncUnit) (v : Val16) (d0 d1 : Digit) : (e.latch2 v d0 d1).val = v := rfl

@[simp] theorem EncUnit.latch2_dg0 (e : EncUnit) (v : Val16) (d0 d1 : Digit) : (e.latch2 v d0 d1).dg0 = digReg d0 := rfl

@[simp] theorem EncUnit.latch2_dg1 (e : EncUnit) (v : Val16) (d0 d1 : Digit) : (e.latch2 v d0 d1).dg1 = digReg d1 := rfl

@[simp] theorem EncUnit.latch2_dg2 (e : EncUnit) (v : Val16) (d0 d1 : Digit) : (e.latch2 v d0 d1).dg2 = e.dg2 := rfl

/-! ### `EncUnit.latch3` -/

@[simp] theorem EncUnit.latch3_ibuf (e : EncUnit) (v : Val16) (d0 d1 d2 : Digit) : (e.latch3 v d0 d1 d2).ibuf = e.ibuf := rfl

@[simp] theorem EncUnit.latch3_ilen (e : EncUnit) (v : Val16) (d0 d1 d2 : Digit) : (e.latch3 v d0 d1 d2).ilen = e.ilen := rfl

@[simp] theorem EncUnit.latch3_obuf (e : EncUnit) (v : Val16) (d0 d1 d2 : Digit) : (e.latch3 v d0 d1 d2).obuf = e.obuf := rfl

@[simp] theorem EncUnit.latch3_olen (e : EncUnit) (v : Val16) (d0 d1 d2 : Digit) : (e.latch3 v d0 d1 d2).olen = e.olen := rfl

@[simp] theorem EncUnit.latch3_state (e : EncUnit) (v : Val16) (d0 d1 d2 : Digit) : (e.latch3 v d0 d1 d2).state = e.state := rfl

@[simp] theorem EncUnit.latch3_rp (e : EncUnit) (v : Val16) (d0 d1 d2 : Digit) : (e.latch3 v d0 d1 d2).rp = e.rp := rfl

@[simp] theorem EncUnit.latch3_wp (e : EncUnit) (v : Val16) (d0 d1 d2 : Digit) : (e.latch3 v d0 d1 d2).wp = e.wp := rfl

@[simp] theorem EncUnit.latch3_val (e : EncUnit) (v : Val16) (d0 d1 d2 : Digit) : (e.latch3 v d0 d1 d2).val = v := rfl

@[simp] theorem EncUnit.latch3_dg0 (e : EncUnit) (v : Val16) (d0 d1 d2 : Digit) : (e.latch3 v d0 d1 d2).dg0 = digReg d0 := rfl

@[simp] theorem EncUnit.latch3_dg1 (e : EncUnit) (v : Val16) (d0 d1 d2 : Digit) : (e.latch3 v d0 d1 d2).dg1 = digReg d1 := rfl

@[simp] theorem EncUnit.latch3_dg2 (e : EncUnit) (v : Val16) (d0 d1 d2 : Digit) : (e.latch3 v d0 d1 d2).dg2 = digReg d2 := rfl

/-! ### `EncUnit.advance` -/

@[simp] theorem EncUnit.advance_ibuf (e : EncUnit) (n : Nat) (out : List Byte) : (e.advance n out).ibuf = e.ibuf := rfl

@[simp] theorem EncUnit.advance_ilen (e : EncUnit) (n : Nat) (out : List Byte) : (e.advance n out).ilen = e.ilen := rfl

@[simp] theorem EncUnit.advance_obuf (e : EncUnit) (n : Nat) (out : List Byte) : (e.advance n out).obuf = e.obuf.writeList e.wp out := rfl

@[simp] theorem EncUnit.advance_olen (e : EncUnit) (n : Nat) (out : List Byte) : (e.advance n out).olen = e.olen := rfl

@[simp] theorem EncUnit.advance_state (e : EncUnit) (n : Nat) (out : List Byte) : (e.advance n out).state = e.state := rfl

@[simp] theorem EncUnit.advance_rp (e : EncUnit) (n : Nat) (out : List Byte) : (e.advance n out).rp = e.rp + n := rfl

@[simp] theorem EncUnit.advance_wp (e : EncUnit) (n : Nat) (out : List Byte) : (e.advance n out).wp = e.wp + out.length := rfl

@[simp] theorem EncUnit.advance_val (e : EncUnit) (n : Nat) (out : List Byte) : (e.advance n out).val = e.val := rfl

@[simp] theorem EncUnit.advance_dg0 (e : EncUnit) (n : Nat) (out : List Byte) : (e.advance n out).dg0 = e.dg0 := rfl

@[simp] theorem EncUnit.advance_dg1 (e : EncUnit) (n : Nat) (out : List Byte) : (e.advance n out).dg1 = e.dg1 := rfl

@[simp] theorem EncUnit.advance_dg2 (e : EncUnit) (n : Nat) (out : List Byte) : (e.advance n out).dg2 = e.dg2 := rfl

/-! ### `DecUnit.start` -/

@[simp] theorem DecUnit.start_ibuf (d : DecUnit) : (d.start).ibuf = d.ibuf := rfl

@[simp] theorem DecUnit.start_ilen (d : DecUnit) : (d.start).ilen = d.ilen := rfl

@[simp] theorem DecUnit.start_obuf (d : DecUnit) : (d.start).obuf = d.obuf := rfl

@[simp] theorem DecUnit.start_olen (d : DecUnit) : (d.start).olen = 0 := rfl

@[simp] theorem DecUnit.start_state (d : DecUnit) : (d.start).state = .busy := rfl

@[simp] theorem DecUnit.start_cause (d : DecUnit) : (d.start).cause = .none := rfl

@[simp] theorem DecUnit.start_phase (d : DecUnit) : (d.start).phase = .scan := rfl

@[simp] theorem DecUnit.start_rp (d : DecUnit) : (d.start).rp = 0 := rfl

@[simp] theorem DecUnit.start_wp (d : DecUnit) : (d.start).wp = 0 := rfl

@[simp] theorem DecUnit.start_val (d : DecUnit) : (d.start).val = d.val := rfl

@[simp] theorem DecUnit.start_dg0 (d : DecUnit) : (d.start).dg0 = d.dg0 := rfl

@[simp] theorem DecUnit.start_dg1 (d : DecUnit) : (d.start).dg1 = d.dg1 := rfl

@[simp] theorem DecUnit.start_dg2 (d : DecUnit) : (d.start).dg2 = d.dg2 := rfl

/-! ### `DecUnit.finish` -/

@[simp] theorem DecUnit.finish_ibuf (d : DecUnit) : (d.finish).ibuf = d.ibuf := rfl

@[simp] theorem DecUnit.finish_ilen (d : DecUnit) : (d.finish).ilen = d.ilen := rfl

@[simp] theorem DecUnit.finish_obuf (d : DecUnit) : (d.finish).obuf = d.obuf := rfl

@[simp] theorem DecUnit.finish_olen (d : DecUnit) : (d.finish).olen = d.wp := rfl

@[simp] theorem DecUnit.finish_state (d : DecUnit) : (d.finish).state = .done := rfl

@[simp] theorem DecUnit.finish_cause (d : DecUnit) : (d.finish).cause = d.cause := rfl

@[simp] theorem DecUnit.finish_phase (d : DecUnit) : (d.finish).phase = d.phase := rfl

@[simp] theorem DecUnit.finish_rp (d : DecUnit) : (d.finish).rp = d.rp := rfl

@[simp] theorem DecUnit.finish_wp (d : DecUnit) : (d.finish).wp = d.wp := rfl

@[simp] theorem DecUnit.finish_val (d : DecUnit) : (d.finish).val = d.val := rfl

@[simp] theorem DecUnit.finish_dg0 (d : DecUnit) : (d.finish).dg0 = d.dg0 := rfl

@[simp] theorem DecUnit.finish_dg1 (d : DecUnit) : (d.finish).dg1 = d.dg1 := rfl

@[simp] theorem DecUnit.finish_dg2 (d : DecUnit) : (d.finish).dg2 = d.dg2 := rfl

/-! ### `DecUnit.fail` -/

@[simp] theorem DecUnit.fail_ibuf (d : DecUnit) (c : Cause) : (d.fail c).ibuf = d.ibuf := rfl

@[simp] theorem DecUnit.fail_ilen (d : DecUnit) (c : Cause) : (d.fail c).ilen = d.ilen := rfl

@[simp] theorem DecUnit.fail_obuf (d : DecUnit) (c : Cause) : (d.fail c).obuf = d.obuf := rfl

@[simp] theorem DecUnit.fail_olen (d : DecUnit) (c : Cause) : (d.fail c).olen = 0 := rfl

@[simp] theorem DecUnit.fail_state (d : DecUnit) (c : Cause) : (d.fail c).state = .error := rfl

@[simp] theorem DecUnit.fail_cause (d : DecUnit) (c : Cause) : (d.fail c).cause = c := rfl

@[simp] theorem DecUnit.fail_phase (d : DecUnit) (c : Cause) : (d.fail c).phase = d.phase := rfl

@[simp] theorem DecUnit.fail_rp (d : DecUnit) (c : Cause) : (d.fail c).rp = d.rp := rfl

@[simp] theorem DecUnit.fail_wp (d : DecUnit) (c : Cause) : (d.fail c).wp = d.wp := rfl

@[simp] theorem DecUnit.fail_val (d : DecUnit) (c : Cause) : (d.fail c).val = d.val := rfl

@[simp] theorem DecUnit.fail_dg0 (d : DecUnit) (c : Cause) : (d.fail c).dg0 = d.dg0 := rfl

@[simp] theorem DecUnit.fail_dg1 (d : DecUnit) (c : Cause) : (d.fail c).dg1 = d.dg1 := rfl

@[simp] theorem DecUnit.fail_dg2 (d : DecUnit) (c : Cause) : (d.fail c).dg2 = d.dg2 := rfl

/-! ### `DecUnit.scanned` -/

@[simp] theorem DecUnit.scanned_ibuf (d : DecUnit) : (d.scanned).ibuf = d.ibuf := rfl

@[simp] theorem DecUnit.scanned_ilen (d : DecUnit) : (d.scanned).ilen = d.ilen := rfl

@[simp] theorem DecUnit.scanned_obuf (d : DecUnit) : (d.scanned).obuf = d.obuf := rfl

@[simp] theorem DecUnit.scanned_olen (d : DecUnit) : (d.scanned).olen = d.olen := rfl

@[simp] theorem DecUnit.scanned_state (d : DecUnit) : (d.scanned).state = d.state := rfl

@[simp] theorem DecUnit.scanned_cause (d : DecUnit) : (d.scanned).cause = d.cause := rfl

@[simp] theorem DecUnit.scanned_phase (d : DecUnit) : (d.scanned).phase = d.phase := rfl

@[simp] theorem DecUnit.scanned_rp (d : DecUnit) : (d.scanned).rp = d.rp + 1 := rfl

@[simp] theorem DecUnit.scanned_wp (d : DecUnit) : (d.scanned).wp = d.wp := rfl

@[simp] theorem DecUnit.scanned_val (d : DecUnit) : (d.scanned).val = d.val := rfl

@[simp] theorem DecUnit.scanned_dg0 (d : DecUnit) : (d.scanned).dg0 = d.dg0 := rfl

@[simp] theorem DecUnit.scanned_dg1 (d : DecUnit) : (d.scanned).dg1 = d.dg1 := rfl

@[simp] theorem DecUnit.scanned_dg2 (d : DecUnit) : (d.scanned).dg2 = d.dg2 := rfl

/-! ### `DecUnit.toGroup` -/

@[simp] theorem DecUnit.toGroup_ibuf (d : DecUnit) : (d.toGroup).ibuf = d.ibuf := rfl

@[simp] theorem DecUnit.toGroup_ilen (d : DecUnit) : (d.toGroup).ilen = d.ilen := rfl

@[simp] theorem DecUnit.toGroup_obuf (d : DecUnit) : (d.toGroup).obuf = d.obuf := rfl

@[simp] theorem DecUnit.toGroup_olen (d : DecUnit) : (d.toGroup).olen = d.olen := rfl

@[simp] theorem DecUnit.toGroup_state (d : DecUnit) : (d.toGroup).state = d.state := rfl

@[simp] theorem DecUnit.toGroup_cause (d : DecUnit) : (d.toGroup).cause = d.cause := rfl

@[simp] theorem DecUnit.toGroup_phase (d : DecUnit) : (d.toGroup).phase = .group := rfl

@[simp] theorem DecUnit.toGroup_rp (d : DecUnit) : (d.toGroup).rp = 0 := rfl

@[simp] theorem DecUnit.toGroup_wp (d : DecUnit) : (d.toGroup).wp = d.wp := rfl

@[simp] theorem DecUnit.toGroup_val (d : DecUnit) : (d.toGroup).val = d.val := rfl

@[simp] theorem DecUnit.toGroup_dg0 (d : DecUnit) : (d.toGroup).dg0 = d.dg0 := rfl

@[simp] theorem DecUnit.toGroup_dg1 (d : DecUnit) : (d.toGroup).dg1 = d.dg1 := rfl

@[simp] theorem DecUnit.toGroup_dg2 (d : DecUnit) : (d.toGroup).dg2 = d.dg2 := rfl

/-! ### `DecUnit.latch2` -/

@[simp] theorem DecUnit.latch2_ibuf (d : DecUnit) (v : Val17) (d0 d1 : Digit) : (d.latch2 v d0 d1).ibuf = d.ibuf := rfl

@[simp] theorem DecUnit.latch2_ilen (d : DecUnit) (v : Val17) (d0 d1 : Digit) : (d.latch2 v d0 d1).ilen = d.ilen := rfl

@[simp] theorem DecUnit.latch2_obuf (d : DecUnit) (v : Val17) (d0 d1 : Digit) : (d.latch2 v d0 d1).obuf = d.obuf := rfl

@[simp] theorem DecUnit.latch2_olen (d : DecUnit) (v : Val17) (d0 d1 : Digit) : (d.latch2 v d0 d1).olen = d.olen := rfl

@[simp] theorem DecUnit.latch2_state (d : DecUnit) (v : Val17) (d0 d1 : Digit) : (d.latch2 v d0 d1).state = d.state := rfl

@[simp] theorem DecUnit.latch2_cause (d : DecUnit) (v : Val17) (d0 d1 : Digit) : (d.latch2 v d0 d1).cause = d.cause := rfl

@[simp] theorem DecUnit.latch2_phase (d : DecUnit) (v : Val17) (d0 d1 : Digit) : (d.latch2 v d0 d1).phase = d.phase := rfl

@[simp] theorem DecUnit.latch2_rp (d : DecUnit) (v : Val17) (d0 d1 : Digit) : (d.latch2 v d0 d1).rp = d.rp := rfl

@[simp] theorem DecUnit.latch2_wp (d : DecUnit) (v : Val17) (d0 d1 : Digit) : (d.latch2 v d0 d1).wp = d.wp := rfl

@[simp] theorem DecUnit.latch2_val (d : DecUnit) (v : Val17) (d0 d1 : Digit) : (d.latch2 v d0 d1).val = v := rfl

@[simp] theorem DecUnit.latch2_dg0 (d : DecUnit) (v : Val17) (d0 d1 : Digit) : (d.latch2 v d0 d1).dg0 = digReg d0 := rfl

@[simp] theorem DecUnit.latch2_dg1 (d : DecUnit) (v : Val17) (d0 d1 : Digit) : (d.latch2 v d0 d1).dg1 = digReg d1 := rfl

@[simp] theorem DecUnit.latch2_dg2 (d : DecUnit) (v : Val17) (d0 d1 : Digit) : (d.latch2 v d0 d1).dg2 = d.dg2 := rfl

/-! ### `DecUnit.latch3` -/

@[simp] theorem DecUnit.latch3_ibuf (d : DecUnit) (v : Val17) (d0 d1 d2 : Digit) : (d.latch3 v d0 d1 d2).ibuf = d.ibuf := rfl

@[simp] theorem DecUnit.latch3_ilen (d : DecUnit) (v : Val17) (d0 d1 d2 : Digit) : (d.latch3 v d0 d1 d2).ilen = d.ilen := rfl

@[simp] theorem DecUnit.latch3_obuf (d : DecUnit) (v : Val17) (d0 d1 d2 : Digit) : (d.latch3 v d0 d1 d2).obuf = d.obuf := rfl

@[simp] theorem DecUnit.latch3_olen (d : DecUnit) (v : Val17) (d0 d1 d2 : Digit) : (d.latch3 v d0 d1 d2).olen = d.olen := rfl

@[simp] theorem DecUnit.latch3_state (d : DecUnit) (v : Val17) (d0 d1 d2 : Digit) : (d.latch3 v d0 d1 d2).state = d.state := rfl

@[simp] theorem DecUnit.latch3_cause (d : DecUnit) (v : Val17) (d0 d1 d2 : Digit) : (d.latch3 v d0 d1 d2).cause = d.cause := rfl

@[simp] theorem DecUnit.latch3_phase (d : DecUnit) (v : Val17) (d0 d1 d2 : Digit) : (d.latch3 v d0 d1 d2).phase = d.phase := rfl

@[simp] theorem DecUnit.latch3_rp (d : DecUnit) (v : Val17) (d0 d1 d2 : Digit) : (d.latch3 v d0 d1 d2).rp = d.rp := rfl

@[simp] theorem DecUnit.latch3_wp (d : DecUnit) (v : Val17) (d0 d1 d2 : Digit) : (d.latch3 v d0 d1 d2).wp = d.wp := rfl

@[simp] theorem DecUnit.latch3_val (d : DecUnit) (v : Val17) (d0 d1 d2 : Digit) : (d.latch3 v d0 d1 d2).val = v := rfl

@[simp] theorem DecUnit.latch3_dg0 (d : DecUnit) (v : Val17) (d0 d1 d2 : Digit) : (d.latch3 v d0 d1 d2).dg0 = digReg d0 := rfl

@[simp] theorem DecUnit.latch3_dg1 (d : DecUnit) (v : Val17) (d0 d1 d2 : Digit) : (d.latch3 v d0 d1 d2).dg1 = digReg d1 := rfl

@[simp] theorem DecUnit.latch3_dg2 (d : DecUnit) (v : Val17) (d0 d1 d2 : Digit) : (d.latch3 v d0 d1 d2).dg2 = digReg d2 := rfl

/-! ### `DecUnit.advance` -/

@[simp] theorem DecUnit.advance_ibuf (d : DecUnit) (n : Nat) (out : List Byte) : (d.advance n out).ibuf = d.ibuf := rfl

@[simp] theorem DecUnit.advance_ilen (d : DecUnit) (n : Nat) (out : List Byte) : (d.advance n out).ilen = d.ilen := rfl

@[simp] theorem DecUnit.advance_obuf (d : DecUnit) (n : Nat) (out : List Byte) : (d.advance n out).obuf = d.obuf.writeList d.wp out := rfl

@[simp] theorem DecUnit.advance_olen (d : DecUnit) (n : Nat) (out : List Byte) : (d.advance n out).olen = d.olen := rfl

@[simp] theorem DecUnit.advance_state (d : DecUnit) (n : Nat) (out : List Byte) : (d.advance n out).state = d.state := rfl

@[simp] theorem DecUnit.advance_cause (d : DecUnit) (n : Nat) (out : List Byte) : (d.advance n out).cause = d.cause := rfl

@[simp] theorem DecUnit.advance_phase (d : DecUnit) (n : Nat) (out : List Byte) : (d.advance n out).phase = d.phase := rfl

@[simp] theorem DecUnit.advance_rp (d : DecUnit) (n : Nat) (out : List Byte) : (d.advance n out).rp = d.rp + n := rfl

@[simp] theorem DecUnit.advance_wp (d : DecUnit) (n : Nat) (out : List Byte) : (d.advance n out).wp = d.wp + out.length := rfl

@[simp] theorem DecUnit.advance_val (d : DecUnit) (n : Nat) (out : List Byte) : (d.advance n out).val = d.val := rfl

@[simp] theorem DecUnit.advance_dg0 (d : DecUnit) (n : Nat) (out : List Byte) : (d.advance n out).dg0 = d.dg0 := rfl

@[simp] theorem DecUnit.advance_dg1 (d : DecUnit) (n : Nat) (out : List Byte) : (d.advance n out).dg1 = d.dg1 := rfl

@[simp] theorem DecUnit.advance_dg2 (d : DecUnit) (n : Nat) (out : List Byte) : (d.advance n out).dg2 = d.dg2 := rfl

/-! ### `State.withEnc` -/

@[simp] theorem State.withEnc_cfg (s : State) (e : EncUnit) : (s.withEnc e).cfg = s.cfg := rfl

@[simp] theorem State.withEnc_enc (s : State) (e : EncUnit) : (s.withEnc e).enc = e := rfl

@[simp] theorem State.withEnc_dec (s : State) (e : EncUnit) : (s.withEnc e).dec = s.dec := rfl

@[simp] theorem State.withEnc_hrdata (s : State) (e : EncUnit) : (s.withEnc e).hrdata = s.hrdata := rfl

@[simp] theorem State.withEnc_draws (s : State) (e : EncUnit) : (s.withEnc e).draws = s.draws := rfl

@[simp] theorem State.withEnc_agenda (s : State) (e : EncUnit) : (s.withEnc e).agenda = s.agenda := rfl

/-! ### `State.withDec` -/

@[simp] theorem State.withDec_cfg (s : State) (d : DecUnit) : (s.withDec d).cfg = s.cfg := rfl

@[simp] theorem State.withDec_enc (s : State) (d : DecUnit) : (s.withDec d).enc = s.enc := rfl

@[simp] theorem State.withDec_dec (s : State) (d : DecUnit) : (s.withDec d).dec = d := rfl

@[simp] theorem State.withDec_hrdata (s : State) (d : DecUnit) : (s.withDec d).hrdata = s.hrdata := rfl

@[simp] theorem State.withDec_draws (s : State) (d : DecUnit) : (s.withDec d).draws = s.draws := rfl

@[simp] theorem State.withDec_agenda (s : State) (d : DecUnit) : (s.withDec d).agenda = s.agenda := rfl

/-! ### `State.withRdata` -/

@[simp] theorem State.withRdata_cfg (s : State) (v : Nat) : (s.withRdata v).cfg = s.cfg := rfl

@[simp] theorem State.withRdata_enc (s : State) (v : Nat) : (s.withRdata v).enc = s.enc := rfl

@[simp] theorem State.withRdata_dec (s : State) (v : Nat) : (s.withRdata v).dec = s.dec := rfl

@[simp] theorem State.withRdata_hrdata (s : State) (v : Nat) : (s.withRdata v).hrdata = v := rfl

@[simp] theorem State.withRdata_draws (s : State) (v : Nat) : (s.withRdata v).draws = s.draws := rfl

@[simp] theorem State.withRdata_agenda (s : State) (v : Nat) : (s.withRdata v).agenda = s.agenda := rfl

/-! ### `State.drawRdata` -/

@[simp] theorem State.drawRdata_cfg (s : State) : (s.drawRdata).cfg = s.cfg := rfl

@[simp] theorem State.drawRdata_enc (s : State) : (s.drawRdata).enc = s.enc := rfl

@[simp] theorem State.drawRdata_dec (s : State) : (s.drawRdata).dec = s.dec := rfl

@[simp] theorem State.drawRdata_hrdata (s : State) : (s.drawRdata).hrdata = (Config.draw s.cfg.hdataW s.draws).toNat := rfl

@[simp] theorem State.drawRdata_draws (s : State) : (s.drawRdata).draws = s.draws + 1 := rfl

@[simp] theorem State.drawRdata_agenda (s : State) : (s.drawRdata).agenda = s.agenda := rfl

/-! ### `State.decFail` -/

@[simp] theorem State.decFail_cfg (s : State) (c : Cause) : (s.decFail c).cfg = s.cfg := rfl

@[simp] theorem State.decFail_enc (s : State) (c : Cause) : (s.decFail c).enc = s.enc := rfl

@[simp] theorem State.decFail_dec (s : State) (c : Cause) : (s.decFail c).dec = s.dec.fail c := rfl

@[simp] theorem State.decFail_hrdata (s : State) (c : Cause) : (s.decFail c).hrdata = s.hrdata := rfl

@[simp] theorem State.decFail_draws (s : State) (c : Cause) : (s.decFail c).draws = s.draws := rfl

@[simp] theorem State.decFail_agenda (s : State) (c : Cause) : (s.decFail c).agenda = s.agenda := rfl

/-! ### `State.withAgenda` -/

@[simp] theorem State.withAgenda_cfg (s : State) (l : List Event) : (s.withAgenda l).cfg = s.cfg := rfl

@[simp] theorem State.withAgenda_enc (s : State) (l : List Event) : (s.withAgenda l).enc = s.enc := rfl

@[simp] theorem State.withAgenda_dec (s : State) (l : List Event) : (s.withAgenda l).dec = s.dec := rfl

@[simp] theorem State.withAgenda_hrdata (s : State) (l : List Event) : (s.withAgenda l).hrdata = s.hrdata := rfl

@[simp] theorem State.withAgenda_draws (s : State) (l : List Event) : (s.withAgenda l).draws = s.draws := rfl

@[simp] theorem State.withAgenda_agenda (s : State) (l : List Event) : (s.withAgenda l).agenda = l := rfl

/-! ### `State.countDraw` -/

@[simp] theorem State.countDraw_cfg (s : State) : (s.countDraw).cfg = s.cfg := rfl

@[simp] theorem State.countDraw_enc (s : State) : (s.countDraw).enc = s.enc := rfl

@[simp] theorem State.countDraw_dec (s : State) : (s.countDraw).dec = s.dec := rfl

@[simp] theorem State.countDraw_hrdata (s : State) : (s.countDraw).hrdata = s.hrdata := rfl

@[simp] theorem State.countDraw_draws (s : State) : (s.countDraw).draws = s.draws + 1 := rfl

@[simp] theorem State.countDraw_agenda (s : State) : (s.countDraw).agenda = s.agenda := rfl

/-! ### `State.applyReset` -/

@[simp] theorem State.applyReset_cfg (s : State) : (s.applyReset).cfg = s.cfg := rfl

@[simp] theorem State.applyReset_enc (s : State) : (s.applyReset).enc = EncUnit.reset := rfl

@[simp] theorem State.applyReset_dec (s : State) : (s.applyReset).dec = DecUnit.reset := rfl

@[simp] theorem State.applyReset_hrdata (s : State) : (s.applyReset).hrdata = 0 := rfl

@[simp] theorem State.applyReset_draws (s : State) : (s.applyReset).draws = s.draws := rfl

@[simp] theorem State.applyReset_agenda (s : State) : (s.applyReset).agenda = s.agenda := rfl

/-! ### Updates of one unit chosen by its name -/

@[simp] theorem State.start_cfg (s : State) (u : UnitId) : (s.start u).cfg = s.cfg := by cases u <;> rfl

@[simp] theorem State.start_hrdata (s : State) (u : UnitId) : (s.start u).hrdata = s.hrdata := by cases u <;> rfl

@[simp] theorem State.start_draws (s : State) (u : UnitId) : (s.start u).draws = s.draws := by cases u <;> rfl

@[simp] theorem State.start_agenda (s : State) (u : UnitId) : (s.start u).agenda = s.agenda := by cases u <;> rfl

@[simp] theorem State.start_enc_enc (s : State) : (s.start .enc).enc = s.enc.start := rfl

@[simp] theorem State.start_enc_dec (s : State) : (s.start .enc).dec = s.dec := rfl

@[simp] theorem State.start_dec_enc (s : State) : (s.start .dec).enc = s.enc := rfl

@[simp] theorem State.start_dec_dec (s : State) : (s.start .dec).dec = s.dec.start := rfl

@[simp] theorem State.writeIlen_cfg (s : State) (u : UnitId) (v : Nat) : (s.writeIlen u v).cfg = s.cfg := by cases u <;> rfl

@[simp] theorem State.writeIlen_hrdata (s : State) (u : UnitId) (v : Nat) : (s.writeIlen u v).hrdata = s.hrdata := by cases u <;> rfl

@[simp] theorem State.writeIlen_draws (s : State) (u : UnitId) (v : Nat) : (s.writeIlen u v).draws = s.draws := by cases u <;> rfl

@[simp] theorem State.writeIlen_agenda (s : State) (u : UnitId) (v : Nat) : (s.writeIlen u v).agenda = s.agenda := by cases u <;> rfl

@[simp] theorem State.writeIlen_enc_enc (s : State) (v : Nat) : (s.writeIlen .enc v).enc = { s.enc with ilen := v % s.cfg.inEntries .enc } := rfl

@[simp] theorem State.writeIlen_enc_dec (s : State) (v : Nat) : (s.writeIlen .enc v).dec = s.dec := rfl

@[simp] theorem State.writeIlen_dec_enc (s : State) (v : Nat) : (s.writeIlen .dec v).enc = s.enc := rfl

@[simp] theorem State.writeIlen_dec_dec (s : State) (v : Nat) : (s.writeIlen .dec v).dec = { s.dec with ilen := v % s.cfg.inEntries .dec } := rfl

@[simp] theorem State.writeIbuf_cfg (s : State) (u : UnitId) (i v : Nat) : (s.writeIbuf u i v).cfg = s.cfg := by cases u <;> rfl

@[simp] theorem State.writeIbuf_hrdata (s : State) (u : UnitId) (i v : Nat) : (s.writeIbuf u i v).hrdata = s.hrdata := by cases u <;> rfl

@[simp] theorem State.writeIbuf_draws (s : State) (u : UnitId) (i v : Nat) : (s.writeIbuf u i v).draws = s.draws := by cases u <;> rfl

@[simp] theorem State.writeIbuf_agenda (s : State) (u : UnitId) (i v : Nat) : (s.writeIbuf u i v).agenda = s.agenda := by cases u <;> rfl

@[simp] theorem State.writeIbuf_enc_enc (s : State) (i v : Nat) : (s.writeIbuf .enc i v).enc = { s.enc with ibuf := s.enc.ibuf.write (i % s.cfg.inEntries .enc) (BitVec.ofNat 8 v) } := rfl

@[simp] theorem State.writeIbuf_enc_dec (s : State) (i v : Nat) : (s.writeIbuf .enc i v).dec = s.dec := rfl

@[simp] theorem State.writeIbuf_dec_enc (s : State) (i v : Nat) : (s.writeIbuf .dec i v).enc = s.enc := rfl

@[simp] theorem State.writeIbuf_dec_dec (s : State) (i v : Nat) : (s.writeIbuf .dec i v).dec = { s.dec with ibuf := s.dec.ibuf.write (i % s.cfg.inEntries .dec) (BitVec.ofNat 8 v) } := rfl

/-! ### The views of a unit -/

@[simp] theorem State.ibuf_enc (s : State) : s.ibuf .enc = s.enc.ibuf := rfl

@[simp] theorem State.ibuf_dec (s : State) : s.ibuf .dec = s.dec.ibuf := rfl

@[simp] theorem State.obuf_enc (s : State) : s.obuf .enc = s.enc.obuf := rfl

@[simp] theorem State.obuf_dec (s : State) : s.obuf .dec = s.dec.obuf := rfl

@[simp] theorem State.ilen_enc (s : State) : s.ilen .enc = s.enc.ilen := rfl

@[simp] theorem State.ilen_dec (s : State) : s.ilen .dec = s.dec.ilen := rfl

@[simp] theorem State.olen_enc (s : State) : s.olen .enc = s.enc.olen := rfl

@[simp] theorem State.olen_dec (s : State) : s.olen .dec = s.dec.olen := rfl

@[simp] theorem State.rp_enc (s : State) : s.rp .enc = s.enc.rp := rfl

@[simp] theorem State.rp_dec (s : State) : s.rp .dec = s.dec.rp := rfl

@[simp] theorem State.wp_enc (s : State) : s.wp .enc = s.enc.wp := rfl

@[simp] theorem State.wp_dec (s : State) : s.wp .dec = s.dec.wp := rfl

@[simp] theorem State.busy_enc (s : State) : s.busy .enc = (s.enc.state == .busy) := rfl

@[simp] theorem State.done_enc (s : State) : s.done .enc = (s.enc.state == .done) := rfl

@[simp] theorem State.busy_dec (s : State) : s.busy .dec = (s.dec.state == .busy) := rfl

@[simp] theorem State.done_dec (s : State) : s.done .dec = (s.dec.state == .done) := rfl

@[simp] theorem Config.inEntries_enc (cfg : Config) : cfg.inEntries .enc = 2 ^ cfg.encLenW := rfl

@[simp] theorem Config.inEntries_dec (cfg : Config) : cfg.inEntries .dec = 2 ^ cfg.decLenW := rfl

@[simp] theorem Config.outEntries_enc (cfg : Config) : cfg.outEntries .enc = cfg.encOcap := rfl

@[simp] theorem Config.outEntries_dec (cfg : Config) : cfg.outEntries .dec = cfg.decOcap := rfl

end Sys2Proof.Machine
end

