-- ==== Sys2Proof/Laws/Ops.lean ====
section
/-! SUPPORT. What each shared operation can do, said once: an inversion lemma (if it answers next, fault or refused,
then …) and its evaluation under the premises a claim has. -/

namespace Sys2Proof.Machine

/-! ### `State.fetchEntry` -/

theorem State.fetchEntry_of_read {s : State} {u : UnitId} {i : Nat} {b : Byte} (h : (s.ibuf u).read i = some b)
    (k : Byte → Result) : s.fetchEntry u i k = k b := by
  simp only [State.fetchEntry, h]

theorem State.fetchEntry_of_unwritten {s : State} {u : UnitId} {i : Nat} (h : (s.ibuf u).read i = none)
    (k : Byte → Result) : s.fetchEntry u i k = .fault (.ibufUnwritten u i) := by
  simp only [State.fetchEntry, h]

/-- Everything `fetchEntry` can do: go on with the entry's value, or fault on an unwritten entry. -/
theorem State.fetchEntry_cases (s : State) (u : UnitId) (i : Nat) (k : Byte → Result) :
    (∃ b, (s.ibuf u).read i = some b ∧ s.fetchEntry u i k = k b) ∨
      ((s.ibuf u).read i = none ∧ s.fetchEntry u i k = .fault (.ibufUnwritten u i)) := by
  cases h : (s.ibuf u).read i with
  | none => exact .inr ⟨rfl, State.fetchEntry_of_unwritten h k⟩
  | some b => exact .inl ⟨b, rfl, State.fetchEntry_of_read h k⟩

theorem State.fetchEntry_eq_next {s t : State} {u : UnitId} {i : Nat} {k : Byte → Result}
    (h : s.fetchEntry u i k = .next t) : ∃ b, (s.ibuf u).read i = some b ∧ k b = .next t := by
  rcases s.fetchEntry_cases u i k with ⟨b, hb, e⟩ | ⟨-, e⟩
  · exact ⟨b, hb, e ▸ h⟩
  · rw [e] at h; cases h

theorem State.fetchEntry_eq_fault {s : State} {f : Fault} {u : UnitId} {i : Nat} {k : Byte → Result}
    (h : s.fetchEntry u i k = .fault f) :
    (∃ b, (s.ibuf u).read i = some b ∧ k b = .fault f) ∨ ((s.ibuf u).read i = none ∧ f = .ibufUnwritten u i) := by
  rcases s.fetchEntry_cases u i k with ⟨b, hb, e⟩ | ⟨hn, e⟩
  · exact .inl ⟨b, hb, e ▸ h⟩
  · rw [e] at h
    exact .inr ⟨hn, by cases h; rfl⟩

/-! ### `State.withRoom` -/

theorem State.withRoom_of_le {s : State} {u : UnitId} {n : Nat} (h : s.wp u + n ≤ s.cfg.outEntries u) (k : Result) :
    s.withRoom u n k = k := if_pos h

theorem State.withRoom_eq_next {s t : State} {u : UnitId} {n : Nat} {k : Result} (h : s.withRoom u n k = .next t) :
    s.wp u + n ≤ s.cfg.outEntries u ∧ k = .next t := by
  unfold State.withRoom at h
  split_ifs at h with hr
  exact ⟨hr, h⟩

theorem State.withRoom_eq_fault {s : State} {f : Fault} {u : UnitId} {n : Nat} {k : Result}
    (h : s.withRoom u n k = .fault f) : k = .fault f ∨ s.cfg.outEntries u < s.wp u + n := by
  unfold State.withRoom at h
  split_ifs at h with hr
  · exact .inl h
  · exact .inr (by omega)

/-! ### `withGroupDigit` -/

theorem withGroupDigit_of_digit {c : Byte} {d : Digit} (h : c2d c = some d) (k : Digit → Result) :
    withGroupDigit c k = k d := by
  simp only [withGroupDigit, h]

theorem withGroupDigit_eq_next {c : Byte} {t : State} {k : Digit → Result} (h : withGroupDigit c k = .next t) :
    ∃ d, c2d c = some d ∧ k d = .next t := by
  unfold withGroupDigit at h
  split at h
  · exact ⟨_, ‹_›, h⟩
  · cases h

theorem withGroupDigit_eq_fault {c : Byte} {f : Fault} {k : Digit → Result} (h : withGroupDigit c k = .fault f) :
    (∃ d, c2d c = some d ∧ k d = .fault f) ∨ c2d c = none := by
  unfold withGroupDigit at h
  split at h
  · exact .inl ⟨_, ‹_›, h⟩
  · exact .inr ‹_›

/-! ### `State.scanChar` -/

@[simp] theorem State.scanChar_none (s : State) : s.scanChar none = s.decFail .char := rfl

@[simp] theorem State.scanChar_some (s : State) (d : Digit) : s.scanChar (some d) = s.withDec s.dec.scanned := rfl

/-! ### `State.drawRdata` -/

/-- A draw is a word of the port's width, whatever its value. -/
theorem State.drawRdata_lt (s : State) : s.drawRdata.hrdata < 2 ^ s.cfg.hdataW := BitVec.isLt _

end Sys2Proof.Machine
end

