-- ==== Sys2Proof/Laws/Fetch.lean ====
section
/-! SUPPORT. Which operation a unit's dispatch key selects, by the remaining count and the phase; what a turn is; what a
step can be. -/

namespace Sys2Proof.Machine

/-- The encoder's operation by the remaining count. -/
def encOpOf (n : Nat) : Instr := if n = 0 then .encEnd else if n = 1 then .enc1 else .enc2

/-- The decoder's operation by the phase and the remaining count. -/
def decOpOf (p : Phase) (n : Nat) : Instr :=
  match p with
  | .scan => if n = 0 then .decLenchk else .decScan
  | .group => if n = 0 then .decEnd else if n = 1 then .decBadrem else if n = 2 then .dec2 else .dec3

theorem geBit_eq_true (n k : Nat) : geBit n k = true ↔ k ≤ n := decide_eq_true_iff

/-- A key keeps of the remaining count whether it is 0, 1, 2 or more. -/
theorem keyWord_min (unit phase : Bool) (n : Nat) : keyWord unit phase n = keyWord unit phase (min n 3) := by
  simp only [keyWord, geBit, show (3 ≤ min n 3) = (3 ≤ n) by simp, show (2 ≤ min n 3) = (2 ≤ n) by simp,
    show (1 ≤ min n 3) = (1 ≤ n) by simp]

theorem encOpOf_min (n : Nat) : encOpOf n = encOpOf (min n 3) := by
  unfold encOpOf
  split_ifs <;> first | rfl | omega

theorem decOpOf_min (p : Phase) (n : Nat) : decOpOf p n = decOpOf p (min n 3) := by
  cases p <;> unfold decOpOf <;> split_ifs <;> first | rfl | omega

/-- The encoder's key decodes to the operation of the remaining count (R39, R38). -/
theorem decodeKey_keyWord_enc (n : Nat) : decodeKey (keyWord false false n) = .ok (encOpOf n) := by
  rw [keyWord_min, encOpOf_min]
  have h : min n 3 ≤ 3 := min_le_right _ _
  generalize min n 3 = m at h
  revert m
  decide

/-- The decoder's key decodes to the operation of the phase and the remaining count (R39, R38). -/
theorem decodeKey_keyWord_dec (p : Phase) (n : Nat) : decodeKey (keyWord true p.bit n) = .ok (decOpOf p n) := by
  rw [keyWord_min, decOpOf_min]
  have h : min n 3 ≤ 3 := min_le_right _ _
  generalize min n 3 = m at h
  revert m
  cases p <;> decide

/-- The operation a unit's key selects. -/
def State.opOf (s : State) : UnitId → Instr
  | .enc => encOpOf (s.enc.ilen - s.enc.rp)
  | .dec => decOpOf s.dec.phase (s.dec.ilen - s.dec.rp)

theorem decodeKey_dispatchKey (s : State) (u : UnitId) : decodeKey (s.dispatchKey u) = .ok (s.opOf u) := by
  cases u
  · exact decodeKey_keyWord_enc _
  · exact decodeKey_keyWord_dec _ _

/-- Running a unit's key runs its operation. -/
theorem runCode_key (s : State) (u : UnitId) : runCode (.key (s.dispatchKey u)) s = exec (s.opOf u) s := by
  simp only [runCode, decode, decodeKey_dispatchKey]

theorem runCode_access (s : State) (a : HostAccess) :
    runCode (.access a) s = exec (decodeAccess (s.busy a.unit) a) s := rfl

/-! ### The turn does not touch what a unit or its key is made of -/

@[simp] theorem State.busy_withAgenda (s : State) (l : List Event) (u : UnitId) : (s.withAgenda l).busy u = s.busy u := by
  cases u <;> rfl

@[simp] theorem State.opOf_withAgenda (s : State) (l : List Event) (u : UnitId) : (s.withAgenda l).opOf u = s.opOf u := by
  cases u <;> rfl

@[simp] theorem State.dispatchKey_withAgenda (s : State) (l : List Event) (u : UnitId) :
    (s.withAgenda l).dispatchKey u = s.dispatchKey u := by
  cases u <;> rfl

@[simp] theorem State.busy_countDraw (s : State) (u : UnitId) : s.countDraw.busy u = s.busy u := by
  cases u <;> rfl

@[simp] theorem State.opOf_countDraw (s : State) (u : UnitId) : s.countDraw.opOf u = s.opOf u := by
  cases u <;> rfl

@[simp] theorem State.dispatchKey_countDraw (s : State) (u : UnitId) : s.countDraw.dispatchKey u = s.dispatchKey u := by
  cases u <;> rfl

theorem State.seqTurn_of_busy {s : State} {u : UnitId} (h : s.busy u = true) :
    s.seqTurn u = .run (.key (s.dispatchKey u)) := if_pos h

theorem State.seqTurn_of_not_busy {s : State} {u : UnitId} (h : s.busy u = false) : s.seqTurn u = .idle := by
  simp only [State.seqTurn, h]
  rfl

/-! ### What a step is -/

theorem step_access {s : State} {a : HostAccess} {rest : List Event} (h : s.agenda = .access a :: rest) :
    step s = exec (decodeAccess (s.busy a.unit) a) (s.withAgenda rest) := by
  simp only [step, State.turn, h, runCode_access, State.busy_withAgenda]

theorem step_reset {s : State} {rest : List Event} (h : s.agenda = .reset :: rest) :
    step s = .next (s.withAgenda rest).applyReset := by
  simp only [step, State.turn, h]

theorem step_seq_busy {s : State} {u : UnitId} {rest : List Event} (h : s.agenda = .seq u :: rest)
    (hb : s.busy u = true) : step s = exec (s.opOf u) (s.withAgenda rest) := by
  have e : s.turn = (.run (.key (s.dispatchKey u)), s.withAgenda rest) := by
    simp only [State.turn, h, State.seqTurn_of_busy hb]
  simp only [step, e]
  rw [← State.dispatchKey_withAgenda s rest u, runCode_key, State.opOf_withAgenda]

theorem step_seq_idle {s : State} {u : UnitId} {rest : List Event} (h : s.agenda = .seq u :: rest)
    (hb : s.busy u = false) : step s = .next (s.withAgenda rest) := by
  have e : s.turn = (.idle, s.withAgenda rest) := by
    simp only [State.turn, h, State.seqTurn_of_not_busy hb]
  simp only [step, e]

/-- With no event left: the only BUSY unit steps. -/
theorem step_free_one {s : State} {u : UnitId} (h : s.agenda = []) (hb : s.busy u = true)
    (ho : ∀ w, w ≠ u → s.busy w = false) : step s = exec (s.opOf u) s := by
  have e : s.turn = (.run (.key (s.dispatchKey u)), s) := by
    cases u with
    | enc => simp only [State.turn, h, State.freeTurn, hb, ho .dec (by decide), State.seqTurn_of_busy hb]
    | dec => simp only [State.turn, h, State.freeTurn, hb, ho .enc (by decide), State.seqTurn_of_busy hb]
  simp only [step, e, runCode_key]

/-- With no event left and both units BUSY: one of them steps, and the free choice is counted. -/
theorem step_free_both {s : State} (h : s.agenda = []) (he : s.busy .enc = true) (hd : s.busy .dec = true) :
    step s = exec (s.opOf (Config.freeUnit s.draws)) s.countDraw := by
  have hu : s.busy (Config.freeUnit s.draws) = true := by
    cases Config.freeUnit s.draws <;> assumption
  have e : s.turn = (.run (.key (s.dispatchKey (Config.freeUnit s.draws))), s.countDraw) := by
    simp only [State.turn, h, State.freeTurn, he, hd, State.seqTurn_of_busy hu]
  simp only [step, e]
  rw [← State.dispatchKey_countDraw s, runCode_key, State.opOf_countDraw]

/-- With no event left and no unit BUSY nothing happens. -/
theorem step_free_idle {s : State} (h : s.agenda = []) (he : s.busy .enc = false) (hd : s.busy .dec = false) :
    step s = .next s := by
  have e : s.turn = (.idle, s) := by
    simp only [State.turn, h, State.freeTurn, he, hd, State.seqTurn_of_not_busy hd]
  simp only [step, e]

/-- Everything a step can be: a reset, an access, an operation of a BUSY unit, or nothing; around it only the events to
come and the count of draws change. -/
theorem step_cases (s : State) :
    (∃ rest, s.agenda = .reset :: rest ∧ step s = .next (s.withAgenda rest).applyReset) ∨
    (∃ a rest, s.agenda = .access a :: rest ∧
      step s = exec (decodeAccess (s.busy a.unit) a) (s.withAgenda rest)) ∨
    (∃ u s', s.busy u = true ∧ s'.cfg = s.cfg ∧ s'.enc = s.enc ∧ s'.dec = s.dec ∧ s'.hrdata = s.hrdata ∧
      (∀ v rest, s.agenda = .seq v :: rest → u = v ∧ s' = s.withAgenda rest) ∧
      (s.agenda = [] → s'.agenda = []) ∧ (∀ a rest, s.agenda ≠ .access a :: rest) ∧
      step s = exec (s.opOf u) s') ∨
    (∃ s', s'.cfg = s.cfg ∧ s'.enc = s.enc ∧ s'.dec = s.dec ∧ s'.hrdata = s.hrdata ∧ s'.draws = s.draws ∧
      (∀ v rest, s.agenda = .seq v :: rest → s.busy v = false ∧ s' = s.withAgenda rest) ∧
      (∀ a rest, s.agenda ≠ .access a :: rest) ∧ step s = .next s') := by
  cases h : s.agenda with
  | nil =>
    cases he : s.busy .enc <;> cases hd : s.busy .dec
    · exact .inr (.inr (.inr ⟨s, rfl, rfl, rfl, rfl, rfl, by simp, by simp, step_free_idle h he hd⟩))
    · refine .inr (.inr (.inl ⟨.dec, s, hd, rfl, rfl, rfl, rfl, by simp, by simp [h], by simp, step_free_one h hd ?_⟩))
      intro w hw; cases w
      · exact he
      · exact absurd rfl hw
    · refine .inr (.inr (.inl ⟨.enc, s, he, rfl, rfl, rfl, rfl, by simp, by simp [h], by simp, step_free_one h he ?_⟩))
      intro w hw; cases w
      · exact absurd rfl hw
      · exact hd
    · refine .inr (.inr (.inl ⟨Config.freeUnit s.draws, s.countDraw, ?_, rfl, rfl, rfl, rfl, by simp, by simp [h], by simp,
        step_free_both h he hd⟩))
      cases Config.freeUnit s.draws <;> assumption
  | cons ev rest =>
    cases ev with
    | access a => exact .inr (.inl ⟨a, rest, rfl, step_access h⟩)
    | reset => exact .inl ⟨rest, rfl, step_reset h⟩
    | seq u =>
      cases hb : s.busy u
      · refine .inr (.inr (.inr ⟨s.withAgenda rest, rfl, rfl, rfl, rfl, rfl, ?_, by simp, step_seq_idle h hb⟩))
        rintro v r e; cases e; exact ⟨hb, rfl⟩
      · refine .inr (.inr (.inl ⟨u, s.withAgenda rest, hb, rfl, rfl, rfl, rfl, ?_, by simp, by simp, step_seq_busy h hb⟩))
        rintro v r e; cases e; exact ⟨rfl, rfl⟩

end Sys2Proof.Machine
end

