-- ==== Sys2Proof/Laws/Exec.lean ====
section
/-! SUPPORT. What the two kinds of step can do, said once: a host access, and an operation of a sequencer. -/

namespace Sys2Proof.Machine

/-- Everything a host access can do (R68 to R73): nothing; return a value or a draw; start a unit; write its length or
one input entry. What it changes belongs to a unit that is not BUSY. -/
theorem access_cases (s : State) (a : HostAccess) :
    ∃ t, exec (decodeAccess (s.busy a.unit) a) s = .next t ∧
      (t = s ∨
        (∃ v, t = s.withRdata v ∧ (v < 256 ∨ ∃ u, v = s.ilen u ∨ v = s.olen u)) ∨
        t = s.drawRdata ∨
        (∃ u, s.busy u = false ∧ decodeAccess false a = startInstr u ∧ t = s.start u) ∨
        (∃ u v, s.busy u = false ∧ t = s.writeIlen u v) ∨
        ∃ u i v, s.busy u = false ∧ t = s.writeIbuf u i v) := by
  unfold decodeAccess
  split
  · split
    · refine ⟨_, rfl, .inr (.inl ⟨_, rfl, ?_⟩)⟩
      split
      · exact .inl (by decide)
      · exact .inl (lt_trans (BitVec.isLt _) (by decide))
      · exact .inr ⟨_, .inl rfl⟩
      · exact .inr ⟨_, .inr rfl⟩
    · exact ⟨_, rfl, .inr (.inr (.inl rfl))⟩
  · split
    · rename_i r _
      unfold decodeRegWrite
      by_cases hc : r = .ctrl ∧ a.data % 2 = 1 ∧ s.busy a.unit = false
      · rw [if_pos hc]
        refine ⟨s.start a.unit, by cases a.unit <;> rfl, .inr (.inr (.inr (.inl ⟨a.unit, hc.2.2, ?_, rfl⟩)))⟩
        exact if_pos ⟨hc.1, hc.2.1, rfl⟩
      · rw [if_neg hc]
        refine ⟨_, rfl, ?_⟩
        cases r
        · exact .inl (if_neg fun h => hc ⟨rfl, h⟩)
        · exact .inl rfl
        · cases hb : s.busy a.unit
          · exact .inr (.inr (.inr (.inr (.inl ⟨a.unit, a.data, hb, if_neg (by simp)⟩))))
          · exact .inl (if_pos rfl)
        · exact .inl rfl
    · exact ⟨_, rfl, .inl rfl⟩
  · exact ⟨_, rfl, .inr (.inr (.inl rfl))⟩
  · cases hb : s.busy a.unit
    · exact ⟨_, rfl, .inr (.inr (.inr (.inr (.inr ⟨a.unit, a.index, a.data, hb, if_neg (by simp [hb])⟩))))⟩
    · exact ⟨_, rfl, .inl (if_pos hb)⟩
  · refine ⟨_, rfl, ?_⟩
    split_ifs
    · split
      · exact .inr (.inl ⟨_, rfl, .inl (BitVec.isLt _)⟩)
      · exact .inr (.inr (.inl rfl))
    · exact .inr (.inr (.inl rfl))
  · exact ⟨_, rfl, .inl rfl⟩
  · exact ⟨_, rfl, .inr (.inr (.inl rfl))⟩
  · exact ⟨_, rfl, .inl rfl⟩

/-- Everything an operation of the encoder can do when it answers a next state (R50 to R52). -/
theorem exec_encOpOf {s t : State} {n : Nat} (h : exec (encOpOf n) s = .next t) :
    (n = 0 ∧ t = s.withEnc s.enc.finish) ∨
    (n = 1 ∧ ∃ v d0 d1, s.enc.wp + 2 ≤ s.cfg.encOcap ∧
      t = s.withEnc ((s.enc.latch2 v d0 d1).advance 1 [a2c d0, a2c d1])) ∨
    (2 ≤ n ∧ ∃ v d0 d1 d2, s.enc.wp + 3 ≤ s.cfg.encOcap ∧
      t = s.withEnc ((s.enc.latch3 v d0 d1 d2).advance 2 [a2c d0, a2c d1, a2c d2])) := by
  unfold encOpOf at h
  split_ifs at h with h0 h1
  · cases h
    exact .inl ⟨h0, rfl⟩
  · obtain ⟨b, -, h⟩ := State.fetchEntry_eq_next h
    obtain ⟨hr, h⟩ := State.withRoom_eq_next h
    cases h
    exact .inr (.inl ⟨h1, _, _, _, hr, rfl⟩)
  · obtain ⟨b0, -, h⟩ := State.fetchEntry_eq_next h
    obtain ⟨b1, -, h⟩ := State.fetchEntry_eq_next h
    obtain ⟨hr, h⟩ := State.withRoom_eq_next h
    cases h
    exact .inr (.inr ⟨by omega, _, _, _, _, hr, rfl⟩)

/-- Everything an operation of the decoder can do when it answers a next state (R59 to R64). -/
theorem exec_decOpOf {s t : State} {p : Phase} {n : Nat} (h : exec (decOpOf p n) s = .next t) :
    (p = .scan ∧ n = 0 ∧ t = if s.dec.ilen % 3 = 1 then s.decFail .length else s.withDec s.dec.toGroup) ∨
    (p = .scan ∧ n ≠ 0 ∧ ∃ c, s.dec.ibuf.read s.dec.rp = some c ∧ t = s.scanChar (c2d c)) ∨
    (p = .group ∧ n = 0 ∧ t = s.withDec s.dec.finish) ∨
    (p = .group ∧ n = 1 ∧ t = s.decFail .length) ∨
    (p = .group ∧ n = 2 ∧ ∃ v d0 d1,
      t = (s.withDec (s.dec.latch2 v d0 d1)).decFail .range8 ∨
      ∃ b, s.dec.wp + 1 ≤ s.cfg.decOcap ∧ t = s.withDec ((s.dec.latch2 v d0 d1).advance 2 [b])) ∨
    (p = .group ∧ 3 ≤ n ∧ ∃ v d0 d1 d2,
      t = (s.withDec (s.dec.latch3 v d0 d1 d2)).decFail .range16 ∨
      ∃ b0 b1, s.dec.wp + 2 ≤ s.cfg.decOcap ∧ t = s.withDec ((s.dec.latch3 v d0 d1 d2).advance 3 [b0, b1])) := by
  cases p
  · simp only [decOpOf] at h
    split_ifs at h with h0
    · cases h
      exact .inl ⟨rfl, h0, rfl⟩
    · obtain ⟨c, hc, h⟩ := State.fetchEntry_eq_next h
      cases h
      exact .inr (.inl ⟨rfl, h0, c, hc, rfl⟩)
  · simp only [decOpOf] at h
    split_ifs at h with h0 h1 h2
    · cases h
      exact .inr (.inr (.inl ⟨rfl, h0, rfl⟩))
    · cases h
      exact .inr (.inr (.inr (.inl ⟨rfl, h1, rfl⟩)))
    · obtain ⟨c0, -, h⟩ := State.fetchEntry_eq_next h
      obtain ⟨c1, -, h⟩ := State.fetchEntry_eq_next h
      obtain ⟨d0, -, h⟩ := withGroupDigit_eq_next h
      obtain ⟨d1, -, h⟩ := withGroupDigit_eq_next h
      simp only at h
      refine .inr (.inr (.inr (.inr (.inl ⟨rfl, h2, mac45 d0 d1 0, d0, d1, ?_⟩))))
      split_ifs at h
      · cases h
        exact .inl rfl
      · obtain ⟨hr, h⟩ := State.withRoom_eq_next h
        cases h
        exact .inr ⟨_, hr, rfl⟩
    · obtain ⟨c0, -, h⟩ := State.fetchEntry_eq_next h
      obtain ⟨c1, -, h⟩ := State.fetchEntry_eq_next h
      obtain ⟨c2, -, h⟩ := State.fetchEntry_eq_next h
      obtain ⟨d0, -, h⟩ := withGroupDigit_eq_next h
      obtain ⟨d1, -, h⟩ := withGroupDigit_eq_next h
      obtain ⟨d2, -, h⟩ := withGroupDigit_eq_next h
      simp only at h
      refine .inr (.inr (.inr (.inr (.inr ⟨rfl, by omega, mac45 d0 d1 d2, d0, d1, d2, ?_⟩))))
      split_ifs at h
      · cases h
        exact .inl rfl
      · obtain ⟨hr, h⟩ := State.withRoom_eq_next h
        cases h
        exact .inr ⟨_, _, hr, rfl⟩

/-- Every fault an operation of the encoder can raise: an entry it reads was not written, or there is no room. -/
theorem exec_encOpOf_fault {s : State} {f : Fault} {n : Nat} (h : exec (encOpOf n) s = .fault f) :
    (∃ i, s.enc.rp ≤ i ∧ i < s.enc.rp + min n 2 ∧ s.enc.ibuf.read i = none ∧ f = .ibufUnwritten .enc i) ∨
    (1 ≤ n ∧ s.cfg.encOcap < s.enc.wp + (1 + min n 2)) := by
  unfold encOpOf at h
  split_ifs at h with h0 h1
  · cases h
  · rcases State.fetchEntry_eq_fault h with ⟨b, -, h⟩ | ⟨hn, rfl⟩
    · rcases State.withRoom_eq_fault h with h | h
      · cases h
      · exact .inr ⟨by omega, by subst h1; exact h⟩
    · exact .inl ⟨_, le_rfl, by omega, hn, rfl⟩
  · have h2 : min n 2 = 2 := by omega
    rw [h2]
    rcases State.fetchEntry_eq_fault h with ⟨b, -, h⟩ | ⟨hn, rfl⟩
    · rcases State.fetchEntry_eq_fault h with ⟨b, -, h⟩ | ⟨hn, rfl⟩
      · rcases State.withRoom_eq_fault h with h | h
        · cases h
        · exact .inr ⟨by omega, h⟩
      · exact .inl ⟨_, by omega, by omega, hn, rfl⟩
    · exact .inl ⟨_, le_rfl, by omega, hn, rfl⟩

/-- Every fault an operation of the decoder can raise: an entry it reads was not written, a character of a group is no
digit, or there is no room. -/
theorem exec_decOpOf_fault {s : State} {f : Fault} {p : Phase} {n : Nat} (h : exec (decOpOf p n) s = .fault f) :
    (∃ i, s.dec.rp ≤ i ∧ i < s.dec.rp + min n 3 ∧ s.dec.ibuf.read i = none ∧ f = .ibufUnwritten .dec i) ∨
    (p = .group ∧ ∃ i c, s.dec.rp ≤ i ∧ i < s.dec.rp + min n 3 ∧ s.dec.ibuf.read i = some c ∧ c2d c = none) ∨
    (p = .group ∧ 2 ≤ n ∧ s.cfg.decOcap < s.dec.wp + (min n 3 - 1)) := by
  cases p
  · simp only [decOpOf] at h
    split_ifs at h with h0
    · cases h
    · rcases State.fetchEntry_eq_fault h with ⟨c, -, h⟩ | ⟨hn, rfl⟩
      · cases h
      · exact .inl ⟨_, le_rfl, by omega, hn, rfl⟩
  · simp only [decOpOf] at h
    split_ifs at h with h0 h1 h2
    · cases h
    · cases h
    · subst h2
      rcases State.fetchEntry_eq_fault h with ⟨c0, r0, h⟩ | ⟨hn, rfl⟩
      · rcases State.fetchEntry_eq_fault h with ⟨c1, r1, h⟩ | ⟨hn, rfl⟩
        · rcases withGroupDigit_eq_fault h with ⟨d0, -, h⟩ | hn
          · rcases withGroupDigit_eq_fault h with ⟨d1, -, h⟩ | hn
            · simp only at h
              split_ifs at h
              rcases State.withRoom_eq_fault h with h | h
              · cases h
              · exact .inr (.inr ⟨rfl, le_rfl, h⟩)
            · exact .inr (.inl ⟨rfl, _, _, by omega, by omega, r1, hn⟩)
          · exact .inr (.inl ⟨rfl, _, _, le_rfl, by omega, r0, hn⟩)
        · exact .inl ⟨_, by omega, by omega, hn, rfl⟩
      · exact .inl ⟨_, le_rfl, by omega, hn, rfl⟩
    · have h3 : min n 3 = 3 := by omega
      rw [h3]
      rcases State.fetchEntry_eq_fault h with ⟨c0, r0, h⟩ | ⟨hn, rfl⟩
      · rcases State.fetchEntry_eq_fault h with ⟨c1, r1, h⟩ | ⟨hn, rfl⟩
        · rcases State.fetchEntry_eq_fault h with ⟨c2, r2, h⟩ | ⟨hn, rfl⟩
          · rcases withGroupDigit_eq_fault h with ⟨d0, -, h⟩ | hn
            · rcases withGroupDigit_eq_fault h with ⟨d1, -, h⟩ | hn
              · rcases withGroupDigit_eq_fault h with ⟨d2, -, h⟩ | hn
                · simp only at h
                  split_ifs at h
                  rcases State.withRoom_eq_fault h with h | h
                  · cases h
                  · exact .inr (.inr ⟨rfl, by omega, h⟩)
                · exact .inr (.inl ⟨rfl, _, _, by omega, by omega, r2, hn⟩)
              · exact .inr (.inl ⟨rfl, _, _, by omega, by omega, r1, hn⟩)
            · exact .inr (.inl ⟨rfl, _, _, le_rfl, by omega, r0, hn⟩)
          · exact .inl ⟨_, by omega, by omega, hn, rfl⟩
        · exact .inl ⟨_, by omega, by omega, hn, rfl⟩
      · exact .inl ⟨_, le_rfl, by omega, hn, rfl⟩

end Sys2Proof.Machine
end

