-- ==== Sys2Proof/Laws/Memory.lean ====
section
/-! SUPPORT. The laws of the buffers: a read after a write, a write leaves every other entry alone, and every write
keeps the canonical form and the buffer's bounds. -/

namespace Sys2Proof.Machine

@[simp] theorem Memory.read_nil (i : Nat) : Memory.read [] i = none := rfl

theorem Memory.read_cons (k : Nat) (v : Byte) (m : Memory) (i : Nat) :
    Memory.read ((k, v) :: m) i = if k = i then some v else m.read i := rfl

/-- Reading after writing: the written entry has the new value, every other entry its old one. -/
theorem Memory.read_write (m : Memory) (i j : Nat) (b : Byte) :
    (m.write i b).read j = if j = i then some b else m.read j := by
  induction m with
  | nil => simp [Memory.write, Memory.read, eq_comm]
  | cons c rest ih =>
    obtain ⟨k, v⟩ := c
    simp only [Memory.write]
    split_ifs with h1 h2 <;> simp only [Memory.read_cons, ih] <;> split_ifs <;> first | rfl | omega

@[simp] theorem Memory.read_write_same (m : Memory) (i : Nat) (b : Byte) : (m.write i b).read i = some b := by
  simp [Memory.read_write]

theorem Memory.read_write_ne (m : Memory) {i j : Nat} (b : Byte) (h : j ≠ i) :
    (m.write i b).read j = m.read j := by
  simp [Memory.read_write, h]

/-- Writing a run of entries: entry `j` of the run has its new value, every other entry its old one. -/
theorem Memory.read_writeList (m : Memory) (i j : Nat) (l : List Byte) :
    (m.writeList i l).read j = if i ≤ j ∧ j < i + l.length then l[j - i]? else m.read j := by
  induction l generalizing m i with
  | nil =>
    simp only [Memory.writeList, List.length_nil]
    split_ifs <;> first | rfl | omega
  | cons b bs ih =>
    simp only [Memory.writeList, ih, Memory.read_write, List.length_cons]
    by_cases h1 : i + 1 ≤ j ∧ j < i + 1 + bs.length
    · rw [if_pos h1, if_pos (by omega), show j - i = (j - (i + 1)) + 1 by omega, List.getElem?_cons_succ]
    · rw [if_neg h1]
      by_cases h2 : j = i
      · subst h2; simp
      · rw [if_neg h2, if_neg (by omega)]

theorem Memory.read_writeList_other (m : Memory) {i j : Nat} {l : List Byte} (h : j < i ∨ i + l.length ≤ j) :
    (m.writeList i l).read j = m.read j := by
  rw [Memory.read_writeList, if_neg (by omega)]

/-- A run written at the end of a filled stretch fills the longer stretch. -/
theorem Memory.filledBelow_writeList {m : Memory} {n : Nat} (h : m.FilledBelow n) (l : List Byte) :
    (m.writeList n l).FilledBelow (n + l.length) := by
  intro i hi
  rw [Memory.read_writeList]
  split_ifs with hc
  · rw [List.getElem?_eq_getElem (by omega)]; rfl
  · exact h i (by omega)

theorem Memory.FilledBelow.mono {m : Memory} {n k : Nat} (h : m.FilledBelow n) (hk : k ≤ n) : m.FilledBelow k :=
  fun i hi => h i (by omega)

/-! ### The canonical form -/

theorem Memory.wf_tail {c : Host.Cell} {m : Memory} (h : Memory.wf (c :: m) = true) : m.wf = true := by
  cases m with
  | nil => rfl
  | cons c' m => simp only [Memory.wf, Bool.and_eq_true] at h; exact h.2

theorem Memory.wf_cons_iff (k : Nat) (v : Byte) (m : Memory) :
    Memory.wf ((k, v) :: m) = true ↔ m.wf = true ∧ ∀ c ∈ m, k < c.1 := by
  induction m generalizing k v with
  | nil => simp [Memory.wf]
  | cons c m ih =>
    obtain ⟨k', v'⟩ := c
    simp only [Memory.wf, Bool.and_eq_true, decide_eq_true_eq, List.mem_cons, forall_eq_or_imp]
    constructor
    · rintro ⟨hk, hw⟩
      exact ⟨hw, hk, fun c hc => lt_trans hk (((ih k' v').mp hw).2 c hc)⟩
    · rintro ⟨hw, hk, -⟩
      exact ⟨hk, hw⟩

theorem Memory.mem_write {m : Memory} {i : Nat} {b : Byte} {c : Host.Cell} (h : c ∈ m.write i b) :
    c = (i, b) ∨ c ∈ m := by
  induction m with
  | nil => simpa [Memory.write] using h
  | cons d m ih =>
    obtain ⟨k, v⟩ := d
    simp only [Memory.write] at h
    split_ifs at h with h1 h2
    · simpa using h
    · rcases List.mem_cons.mp h with h | h
      · exact .inl h
      · exact .inr (List.mem_cons_of_mem _ h)
    · rcases List.mem_cons.mp h with h | h
      · exact .inr (by simp [h])
      · exact (ih h).imp id (List.mem_cons_of_mem _)

/-- Every write keeps the canonical form. -/
theorem Memory.wf_write {m : Memory} (h : m.wf = true) (i : Nat) (b : Byte) : (m.write i b).wf = true := by
  induction m with
  | nil => rfl
  | cons d m ih =>
    obtain ⟨k, v⟩ := d
    obtain ⟨hm, hk⟩ := (Memory.wf_cons_iff k v m).mp h
    simp only [Memory.write]
    split_ifs with h1 h2
    · rw [Memory.wf_cons_iff]
      refine ⟨h, fun c hc => ?_⟩
      rcases List.mem_cons.mp hc with rfl | hc
      · exact h1
      · exact lt_trans h1 (hk c hc)
    · subst h2
      exact (Memory.wf_cons_iff _ _ _).mpr ⟨hm, hk⟩
    · refine (Memory.wf_cons_iff _ _ _).mpr ⟨ih hm, fun c hc => ?_⟩
      rcases Memory.mem_write hc with rfl | hc
      · simp only; omega
      · exact hk c hc

theorem Memory.wf_writeList {m : Memory} (h : m.wf = true) (i : Nat) (l : List Byte) :
    (m.writeList i l).wf = true := by
  induction l generalizing m i with
  | nil => exact h
  | cons b bs ih => exact ih (Memory.wf_write h i b) (i + 1)

/-- A write inside the bounds keeps the bounds. -/
theorem Memory.below_write {m : Memory} {n i : Nat} (h : m.Below n) (hi : i < n) (b : Byte) :
    (m.write i b).Below n := by
  intro c hc
  rcases Memory.mem_write hc with rfl | hc
  · exact hi
  · exact h c hc

theorem Memory.below_writeList {m : Memory} {n i : Nat} {l : List Byte} (h : m.Below n) (hi : i + l.length ≤ n) :
    (m.writeList i l).Below n := by
  induction l generalizing m i with
  | nil => exact h
  | cons b bs ih =>
    simp only [List.length_cons] at hi
    exact ih (Memory.below_write h (by omega) b) (by omega)

/-- In the canonical form equal reads are equal buffers: a buffer's listed entries are exactly what it reads as. -/
theorem Memory.read_eq_some_iff {m : Memory} (h : m.wf = true) (i : Nat) (b : Byte) :
    m.read i = some b ↔ (i, b) ∈ m := by
  induction m with
  | nil => simp
  | cons d m ih =>
    obtain ⟨k, v⟩ := d
    obtain ⟨hm, hk⟩ := (Memory.wf_cons_iff k v m).mp h
    simp only [Memory.read_cons, List.mem_cons, Prod.mk.injEq]
    split_ifs with hki
    · subst hki
      constructor
      · rintro h; exact .inl ⟨rfl, (Option.some.inj h).symm⟩
      · rintro (⟨-, h⟩ | h)
        · rw [h]
        · exact absurd (hk _ h) (lt_irrefl _)
    · rw [ih hm]
      constructor
      · exact .inr
      · rintro (⟨h, -⟩ | h)
        · exact absurd h.symm hki
        · exact h

end Sys2Proof.Machine
end

