-- ==== Sys2Proof/Laws/PerInstr.lean ====
section
/-! SUPPORT. Statements about every instruction as syntax, one lemma per constructor of Instr. The family RoundTrip: the
decoder reads the instruction back from its own code word, for every operand its fields allow. -/

namespace Sys2Proof.Laws.RoundTrip

/-- Decoding the code word of a well-formed instruction gives it back, under the STATE that selects it. -/
def Statement (i : Instr) : Prop :=
  ∀ (cfg : Config) (busy : Bool), WellFormed cfg i = true → i.selectedWhen busy = true →
    decode busy (encode i) = .ok i

theorem encEnd : Statement .encEnd := fun _ _ _ _ => rfl

theorem enc1 : Statement .enc1 := fun _ _ _ _ => rfl

theorem enc2 : Statement .enc2 := fun _ _ _ _ => rfl

theorem decLenchk : Statement .decLenchk := fun _ _ _ _ => rfl

theorem decScan : Statement .decScan := fun _ _ _ _ => rfl

theorem decEnd : Statement .decEnd := fun _ _ _ _ => rfl

theorem decBadrem : Statement .decBadrem := fun _ _ _ _ => rfl

theorem dec2 : Statement .dec2 := fun _ _ _ _ => rfl

theorem dec3 : Statement .dec3 := fun _ _ _ _ => rfl

theorem encStart : Statement .encStart := by
  intro cfg busy _ h
  cases busy
  · rfl
  · cases h

theorem decStart : Statement .decStart := by
  intro cfg busy _ h
  cases busy
  · rfl
  · cases h

theorem hrdReg (u : UnitId) (r : RegNum) : Statement (.hrdReg u r) := by
  intro cfg busy _ _
  simp only [encode, decode, decodeAccess_reg_read, RegNum.ofIndex?_index]

theorem hwrReg (u : UnitId) (r : RegNum) (data : Nat) : Statement (.hwrReg u r data) := by
  intro cfg busy _ h
  simp only [encode, decode, decodeAccess_reg_write, RegNum.ofIndex?_index, decodeRegWrite]
  rw [if_neg]
  rintro ⟨rfl, hd, rfl⟩
  simp [Instr.selectedWhen, hd] at h

theorem hwrIbuf (u : UnitId) (index data : Nat) : Statement (.hwrIbuf u index data) := by
  intro cfg busy _ _
  simp only [encode, decode, decodeAccess_ibuf_write]

theorem hrdObuf (u : UnitId) (index : Nat) : Statement (.hrdObuf u index) := by
  intro cfg busy _ _
  simp only [encode, decode, decodeAccess_obuf_read]

theorem hill (u : UnitId) (kind : IllegalKind) (index data : Nat) : Statement (.hill u kind index data) := by
  intro cfg busy h _
  simp only [WellFormed, Bool.and_eq_true] at h
  obtain ⟨hi, hd⟩ := h
  cases kind <;> simp only [IllegalKind.isRead, if_true, decide_eq_true_eq] at hi hd <;>
    simp only [encode, decode, IllegalKind.desc, decodeAccess_ibuf_read, decodeAccess_obuf_write,
      decodeAccess_reserved_read, decodeAccess_reserved_write, decodeAccess_reg_read, decodeAccess_reg_write,
      RegNum.ofIndex?_eq_none.mpr, hi, hd]

theorem sym00 : Statement .sym00 := fun _ _ _ _ => rfl

theorem sym01 : Statement .sym01 := fun _ _ _ _ => rfl

theorem sym02 : Statement .sym02 := fun _ _ _ _ => rfl

theorem sym03 : Statement .sym03 := fun _ _ _ _ => rfl

theorem sym04 : Statement .sym04 := fun _ _ _ _ => rfl

theorem sym05 : Statement .sym05 := fun _ _ _ _ => rfl

theorem sym06 : Statement .sym06 := fun _ _ _ _ => rfl

theorem sym07 : Statement .sym07 := fun _ _ _ _ => rfl

theorem sym08 : Statement .sym08 := fun _ _ _ _ => rfl

theorem sym09 : Statement .sym09 := fun _ _ _ _ => rfl

theorem sym10 : Statement .sym10 := fun _ _ _ _ => rfl

theorem sym11 : Statement .sym11 := fun _ _ _ _ => rfl

theorem sym12 : Statement .sym12 := fun _ _ _ _ => rfl

theorem sym13 : Statement .sym13 := fun _ _ _ _ => rfl

theorem sym14 : Statement .sym14 := fun _ _ _ _ => rfl

theorem sym15 : Statement .sym15 := fun _ _ _ _ => rfl

theorem sym16 : Statement .sym16 := fun _ _ _ _ => rfl

theorem sym17 : Statement .sym17 := fun _ _ _ _ => rfl

theorem sym18 : Statement .sym18 := fun _ _ _ _ => rfl

theorem sym19 : Statement .sym19 := fun _ _ _ _ => rfl

theorem sym20 : Statement .sym20 := fun _ _ _ _ => rfl

theorem sym21 : Statement .sym21 := fun _ _ _ _ => rfl

theorem sym22 : Statement .sym22 := fun _ _ _ _ => rfl

theorem sym23 : Statement .sym23 := fun _ _ _ _ => rfl

theorem sym24 : Statement .sym24 := fun _ _ _ _ => rfl

theorem sym25 : Statement .sym25 := fun _ _ _ _ => rfl

theorem sym26 : Statement .sym26 := fun _ _ _ _ => rfl

theorem sym27 : Statement .sym27 := fun _ _ _ _ => rfl

theorem sym28 : Statement .sym28 := fun _ _ _ _ => rfl

theorem sym29 : Statement .sym29 := fun _ _ _ _ => rfl

theorem sym30 : Statement .sym30 := fun _ _ _ _ => rfl

theorem sym31 : Statement .sym31 := fun _ _ _ _ => rfl

theorem sym32 : Statement .sym32 := fun _ _ _ _ => rfl

theorem sym33 : Statement .sym33 := fun _ _ _ _ => rfl

theorem sym34 : Statement .sym34 := fun _ _ _ _ => rfl

theorem sym35 : Statement .sym35 := fun _ _ _ _ => rfl

theorem sym36 : Statement .sym36 := fun _ _ _ _ => rfl

theorem sym37 : Statement .sym37 := fun _ _ _ _ => rfl

theorem sym38 : Statement .sym38 := fun _ _ _ _ => rfl

theorem sym39 : Statement .sym39 := fun _ _ _ _ => rfl

theorem sym40 : Statement .sym40 := fun _ _ _ _ => rfl

theorem sym41 : Statement .sym41 := fun _ _ _ _ => rfl

theorem sym42 : Statement .sym42 := fun _ _ _ _ => rfl

theorem sym43 : Statement .sym43 := fun _ _ _ _ => rfl

theorem sym44 : Statement .sym44 := fun _ _ _ _ => rfl

theorem invalidChar (c : Byte) : Statement (.invalidChar c) := by
  intro cfg busy h _
  simp only [WellFormed, Option.isNone_iff_eq_none] at h
  rcases decodeChar_cases c with ⟨d, hd, -⟩ | ⟨-, hc⟩
  · rw [h] at hd; cases hd
  · simp only [encode, decode, hc]

end Sys2Proof.Laws.RoundTrip
end

