-- ==== Sys2Proof/Tests/Slice0.lean ====
section
/-! SUPPORT. Tests: ill-formed terms the checks refuse, words written out from the spec's encodings, one small step per
operation from the spec's own examples, and one witness for the hypotheses of each obligation that has any. -/

namespace Sys2Proof.Tests

open Sys2Proof Sys2Proof.Machine

/-! ### Small states -/

/-- Widths of 4 bits: 16 input entries, 23 encoder and 11 decoder output entries. -/
def cfg4 : Config := ⟨4, 4⟩

/-- The reset state at these widths. -/
def base : State := State.resetOf cfg4

/-- An encoder with the payload `x`, the pointers `rp`, `wp`, and what it has produced. -/
def encAt (x : List Byte) (rp wp : Nat) (out : List Byte) : State :=
  base.withEnc { base.enc with
    ibuf := Memory.writeList [] 0 x, ilen := x.length, rp := rp, wp := wp, obuf := Memory.writeList [] 0 out,
    state := .busy }

/-- A decoder with the text `x`, its phase and pointers, and what it has produced. -/
def decAt (x : List Byte) (p : Phase) (rp wp : Nat) (out : List Byte) : State :=
  base.withDec { base.dec with
    ibuf := Memory.writeList [] 0 x, ilen := x.length, rp := rp, wp := wp, obuf := Memory.writeList [] 0 out,
    phase := p, state := .busy }

/-- An encoder that has encoded the byte `64`: "A2". -/
def encDone : State :=
  base.withEnc { (encAt [0x64] 1 2 [0x41, 0x32]).enc with state := .done, olen := 2 }

/-- A decoder that has failed with `CHAR` on "@". -/
def decError : State :=
  base.withDec { (decAt [0x40] .scan 0 0 []).dec with state := .error, cause := .char }

/-- A decoder that has decoded "A2": the byte `64`. -/
def decDone : State :=
  base.withDec { (decAt [0x41, 0x32] .group 2 1 [0x64]).dec with state := .done, olen := 1 }

/-- The meaning answers a next state of which `p` holds. -/
def nextHas (r : Result) (p : State → Bool) : Bool :=
  match r with
  | .next t => p t
  | _ => false

/-! ### Well-formedness: one ill-formed term for each check -/

theorem test_wf_config_refuses_zero_width :
    Config.Legal ⟨0, 4⟩ = false ∧ Config.Legal ⟨4, 0⟩ = false ∧ Config.Legal ⟨1, 1⟩ = true := by decide

theorem test_wf_hwrReg_refuses_wide_data :
    WellFormed cfg4 (.hwrReg .enc .ilen 256) = false ∧ WellFormed cfg4 (.hwrReg .enc .ilen 255) = true := by decide

theorem test_wf_hwrIbuf_refuses_index_and_data :
    WellFormed cfg4 (.hwrIbuf .dec 16 0) = false ∧ WellFormed cfg4 (.hwrIbuf .dec 0 256) = false ∧
    WellFormed cfg4 (.hwrIbuf .dec 15 255) = true := by decide

theorem test_wf_hill_refuses_legal_register_and_data :
    WellFormed cfg4 (.hill .enc .regRead 3 0) = false ∧ WellFormed cfg4 (.hill .enc .regWrite 3 0) = false ∧
    WellFormed cfg4 (.hill .enc .obufWrite 0 256) = false ∧ WellFormed cfg4 (.hill .enc .ibufRead 0 1) = false ∧
    WellFormed cfg4 (.hill .enc .regWrite 4 255) = true := by decide

theorem test_wf_invalidChar_refuses_alphabet_code :
    WellFormed cfg4 (.invalidChar 0x3A) = false ∧ WellFormed cfg4 (.invalidChar 0x3B) = true := by decide

theorem test_wf_access_refuses_wide_fields :
    HostAccess.WellFormed cfg4 ⟨0b0011, 16, 0⟩ = false ∧ HostAccess.WellFormed cfg4 ⟨0b1011, 16, 0⟩ = false ∧
    HostAccess.WellFormed cfg4 ⟨0b0001, 2, 256⟩ = false ∧ HostAccess.WellFormed cfg4 ⟨0b0001, 99, 255⟩ = true := by
  decide

/-! ### Decoding: words written out from 30_encoding.md R39, R40, R32, R34 -/

theorem test_decode_keys_enc :
    decode false (.key 0b00000) = .ok .encEnd ∧ decode false (.key 0b00001) = .ok .enc1 ∧
    decode false (.key 0b00011) = .ok .enc2 ∧ decode false (.key 0b00111) = .ok .enc2 := by decide

theorem test_decode_keys_dec :
    decode false (.key 0b10000) = .ok .decLenchk ∧ decode false (.key 0b10001) = .ok .decScan ∧
    decode false (.key 0b10111) = .ok .decScan ∧ decode false (.key 0b11000) = .ok .decEnd ∧
    decode false (.key 0b11001) = .ok .decBadrem ∧ decode false (.key 0b11011) = .ok .dec2 ∧
    decode false (.key 0b11111) = .ok .dec3 := by decide

theorem test_decode_key_unassigned :
    decode false (.key 0b01000) = .error (.unassignedKey 0b01000) := by decide

theorem test_decode_reg :
    decode false (.access ⟨0b0000, 1, 0⟩) = .ok (.hrdReg .enc .status) ∧
    decode false (.access ⟨0b1000, 0, 0⟩) = .ok (.hrdReg .dec .ctrl) ∧
    decode false (.access ⟨0b1001, 2, 11⟩) = .ok (.hwrReg .dec .ilen 11) ∧
    decode false (.access ⟨0b0001, 3, 7⟩) = .ok (.hwrReg .enc .olen 7) := by decide

theorem test_decode_start :
    decode false (.access ⟨0b0001, 0, 1⟩) = .ok .encStart ∧ decode false (.access ⟨0b1001, 0, 1⟩) = .ok .decStart ∧
    decode false (.access ⟨0b0001, 0, 2⟩) = .ok (.hwrReg .enc .ctrl 2) ∧
    decode true (.access ⟨0b1001, 0, 1⟩) = .ok (.hwrReg .dec .ctrl 1) := by decide

theorem test_decode_buffers :
    decode false (.access ⟨0b0011, 0, 0x48⟩) = .ok (.hwrIbuf .enc 0 0x48) ∧
    decode false (.access ⟨0b1011, 3, 0x25⟩) = .ok (.hwrIbuf .dec 3 0x25) ∧
    decode false (.access ⟨0b1100, 0, 0⟩) = .ok (.hrdObuf .dec 0) ∧
    decode false (.access ⟨0b0100, 16, 0⟩) = .ok (.hrdObuf .enc 16) := by decide

theorem test_decode_illegal :
    decode false (.access ⟨0b1010, 0, 0⟩) = .ok (.hill .dec .ibufRead 0 0) ∧
    decode false (.access ⟨0b0101, 2, 9⟩) = .ok (.hill .enc .obufWrite 2 9) ∧
    decode false (.access ⟨0b0110, 0, 0⟩) = .ok (.hill .enc .reservedRead 0 0) ∧
    decode false (.access ⟨0b1111, 0, 5⟩) = .ok (.hill .dec .reservedWrite 0 5) ∧
    decode false (.access ⟨0b0000, 4, 0⟩) = .ok (.hill .enc .regRead 4 0) ∧
    decode false (.access ⟨0b1001, 4, 1⟩) = .ok (.hill .dec .regWrite 4 1) := by decide

/-- Every SYM row, by the code column of R32's table: the digits. -/
theorem test_decode_sym_digits :
    [0x30#8, 0x31, 0x32, 0x33, 0x34, 0x35, 0x36, 0x37, 0x38, 0x39].map decodeChar =
      [.sym00, .sym01, .sym02, .sym03, .sym04, .sym05, .sym06, .sym07, .sym08, .sym09] := by decide

/-- Every SYM row, by the code column of R32's table: the letters. -/
theorem test_decode_sym_letters :
    [0x41#8, 0x42, 0x43, 0x44, 0x45, 0x46, 0x47, 0x48, 0x49, 0x4A, 0x4B, 0x4C, 0x4D].map decodeChar =
      [.sym10, .sym11, .sym12, .sym13, .sym14, .sym15, .sym16, .sym17, .sym18, .sym19, .sym20, .sym21, .sym22] ∧
    [0x4E#8, 0x4F, 0x50, 0x51, 0x52, 0x53, 0x54, 0x55, 0x56, 0x57, 0x58, 0x59, 0x5A].map decodeChar =
      [.sym23, .sym24, .sym25, .sym26, .sym27, .sym28, .sym29, .sym30, .sym31, .sym32, .sym33, .sym34, .sym35] := by
  decide

/-- Every SYM row, by the code column of R32's table: the symbols; and characters outside the alphabet. -/
theorem test_decode_sym_symbols_and_invalid :
    [0x20#8, 0x24, 0x25, 0x2A, 0x2B, 0x2D, 0x2E, 0x2F, 0x3A].map decodeChar =
      [.sym36, .sym37, .sym38, .sym39, .sym40, .sym41, .sym42, .sym43, .sym44] ∧
    [0x40#8, 0x61, 0x2C, 0xFF].map decodeChar =
      [.invalidChar 0x40, .invalidChar 0x61, .invalidChar 0x2C, .invalidChar 0xFF] := by decide

/-- Words of opcode_table.json (log 12). -/
theorem test_table_words :
    decodeTableWord 5 0x02 = some .enc2 ∧ decodeTableWord 5 0x1C = some .dec3 ∧
    decodeTableWord 4 0x03 = some (.hwrIbuf .enc 0 0) ∧ decodeTableWord 8 0x5A = some .sym35 := by decide

/-! ### Functions, from the examples of R46 to R48 and R55 to R57 -/

theorem test_functions :
    pack16 0x48 0x65 = 18533 ∧ dig45 18533 .ones = 38 ∧ dig45 18533 .fortyFives = 6 ∧
    dig45 18533 .twentyTwentyFives = 9 ∧ a2c 38 = 0x25 ∧ a2c 6 = 0x36 ∧ a2c 9 = 0x39 ∧
    c2d 0x25 = some 38 ∧ c2d 0x40 = none ∧ mac45 38 6 9 = 18533 ∧ unpack16 18533 = (0x48, 0x65) := by decide

/-! ### One step of each operation -/

/-- R50's example: `48 65` gives "%69". -/
theorem test_enc2_example : nextHas (exec .enc2 (encAt [0x48, 0x65] 0 0 [])) (fun t =>
    t.enc.obuf == [(0, 0x25), (1, 0x36), (2, 0x39)] && t.enc.val == 18533 && t.enc.dg0 == 38 && t.enc.dg1 == 6 &&
      t.enc.dg2 == 9 && t.enc.rp == 2 && t.enc.wp == 3) = true := by decide

/-- R50: chunk `FF FF` gives "FGW". -/
theorem test_enc2_largest : nextHas (exec .enc2 (encAt [0xFF, 0xFF] 0 0 [])) (fun t =>
    t.enc.obuf == [(0, 0x46), (1, 0x47), (2, 0x57)]) = true := by decide

/-- R51's example: `64` gives "A2"; `DG2` unchanged. -/
theorem test_enc1_example : nextHas (exec .enc1 ((encAt [0x64] 0 0 []).withEnc
    { (encAt [0x64] 0 0 []).enc with dg2 := 7 })) (fun t =>
    t.enc.obuf == [(0, 0x41), (1, 0x32)] && t.enc.dg2 == 7 && t.enc.rp == 1 && t.enc.wp == 2) = true := by decide

/-- R51: byte `00` gives "00", byte `FF` gives "U5". -/
theorem test_enc1_ends : nextHas (exec .enc1 (encAt [0x00] 0 0 [])) (fun t => t.enc.obuf == [(0, 0x30), (1, 0x30)]) = true ∧
    nextHas (exec .enc1 (encAt [0xFF] 0 0 [])) (fun t => t.enc.obuf == [(0, 0x55), (1, 0x35)]) = true := by decide

/-- R52's example: `WP = 17` gives `OLEN = 17`, DONE. -/
theorem test_encEnd_example : nextHas (exec .encEnd (encAt [] 0 17 [])) (fun t =>
    t.enc.olen == 17 && t.enc.state == .done) = true := by decide

/-- R49: from DONE the result is discarded, the payload stays. -/
theorem test_encStart_from_done : nextHas (exec .encStart encDone) (fun t =>
    t.enc.olen == 0 && t.enc.state == .busy && t.enc.rp == 0 && t.enc.wp == 0 && t.enc.ilen == 1 &&
      t.enc.ibuf == [(0, 0x64)]) = true := by decide

/-- R58's example: from ERROR with CHAR. -/
theorem test_decStart_from_error : nextHas (exec .decStart decError) (fun t =>
    t.dec.state == .busy && t.dec.cause == .none && t.dec.phase == .scan && t.dec.olen == 0) = true := by decide

/-- R59's example: "@@@" fails at its first character. -/
theorem test_decScan_fails : nextHas (exec .decScan (decAt [0x40, 0x40, 0x40] .scan 0 0 [])) (fun t =>
    t.dec.state == .error && t.dec.cause == .char && t.dec.olen == 0 && t.dec.rp == 0) = true := by decide

/-- R59: a valid character passes. -/
theorem test_decScan_passes : nextHas (exec .decScan (decAt [0x30, 0x3A] .scan 1 0 [])) (fun t =>
    t.dec.state == .busy && t.dec.rp == 2 && t.dec.phase == .scan) = true := by decide

/-- R60's example: "AAAA" fails with LENGTH. -/
theorem test_decLenchk_fails : nextHas (exec .decLenchk (decAt [0x41, 0x41, 0x41, 0x41] .scan 4 0 [])) (fun t =>
    t.dec.state == .error && t.dec.cause == .length && t.dec.phase == .scan) = true := by decide

/-- R60: length 2 passes. -/
theorem test_decLenchk_passes : nextHas (exec .decLenchk (decAt [0x41, 0x32] .scan 2 0 [])) (fun t =>
    t.dec.state == .busy && t.dec.rp == 0 && t.dec.phase == .group) = true := by decide

/-- R61's example: "%69" gives `48 65`. -/
theorem test_dec3_example : nextHas (exec .dec3 (decAt [0x25, 0x36, 0x39] .group 0 0 [])) (fun t =>
    t.dec.obuf == [(0, 0x48), (1, 0x65)] && t.dec.val == 18533 && t.dec.dg0 == 38 && t.dec.rp == 3 &&
      t.dec.wp == 2) = true := by decide

/-- R61: "GGW" is the smallest failing value. -/
theorem test_dec3_range16 : nextHas (exec .dec3 (decAt [0x47, 0x47, 0x57] .group 0 0 [])) (fun t =>
    t.dec.state == .error && t.dec.cause == .range16 && t.dec.obuf == [] && t.dec.rp == 0 && t.dec.val == 65536 &&
      t.dec.dg2 == 32) = true := by decide

/-- R62's example: "A2" gives `64`; "U5" gives `FF`. -/
theorem test_dec2_examples : nextHas (exec .dec2 (decAt [0x41, 0x32] .group 0 0 [])) (fun t =>
    t.dec.obuf == [(0, 0x64)] && t.dec.rp == 2 && t.dec.wp == 1) = true ∧
    nextHas (exec .dec2 (decAt [0x55, 0x35] .group 0 0 [])) (fun t => t.dec.obuf == [(0, 0xFF)]) = true := by decide

/-- R62: "V5" is the smallest failing value. -/
theorem test_dec2_range8 : nextHas (exec .dec2 (decAt [0x56, 0x35] .group 0 0 [])) (fun t =>
    t.dec.state == .error && t.dec.cause == .range8 && t.dec.obuf == [] && t.dec.rp == 0) = true := by decide

/-- R63. -/
theorem test_decBadrem : nextHas (exec .decBadrem (decAt [0x41] .group 0 0 [])) (fun t =>
    t.dec.state == .error && t.dec.cause == .length) = true := by decide

/-- R64's example: `WP = 11` gives `OLEN = 11`. -/
theorem test_decEnd_example : nextHas (exec .decEnd (decAt [] .group 0 11 [])) (fun t =>
    t.dec.olen == 11 && t.dec.state == .done && t.dec.cause == .none) = true := by decide

/-- R70's example: STATUS of a finished encoder reads 2; a decoder failed with CHAR reads 4 * 1 + 3. -/
theorem test_hrdReg_status : nextHas (exec (.hrdReg .enc .status) encDone) (fun t => t.hrdata == 2) = true ∧
    nextHas (exec (.hrdReg .dec .status) decError) (fun t => t.hrdata == 7) = true := by decide

/-- R69: ILEN is cut to its width; its example reads 11 back. -/
theorem test_hwrReg_ilen : nextHas (exec (.hwrReg .enc .ilen 11) base) (fun t => t.enc.ilen == 11) = true ∧
    nextHas (exec (.hwrReg .dec .ilen 35) base) (fun t => t.dec.ilen == 3) = true := by decide

/-- R69, R71: dropped while BUSY. -/
theorem test_writes_dropped_while_busy :
    nextHas (exec (.hwrReg .enc .ctrl 1) (encAt [0x64] 1 2 [])) (fun t => t == encAt [0x64] 1 2 []) = true ∧
    nextHas (exec (.hwrIbuf .enc 0 9) (encAt [0x64] 1 2 [])) (fun t => t == encAt [0x64] 1 2 []) = true := by decide

/-- R71's example, and its low 8 bits. -/
theorem test_hwrIbuf_example : nextHas (exec (.hwrIbuf .enc 0 0x48) base) (fun t => t.enc.ibuf == [(0, 0x48)]) = true ∧
    nextHas (exec (.hwrIbuf .dec 15 0x1FF) base) (fun t => t.dec.ibuf == [(15, 0xFF)]) = true := by decide

/-- R72: a result entry in DONE. -/
theorem test_hrdObuf_result : nextHas (exec (.hrdObuf .enc 1) encDone) (fun t => t.hrdata == 0x32) = true := by decide

/-- R73: an illegal write changes nothing; an illegal read changes no unit. -/
theorem test_hill : nextHas (exec (.hill .enc .obufWrite 0 9) encDone) (fun t => t == encDone) = true ∧
    nextHas (exec (.hill .dec .ibufRead 0 0) decDone) (fun t => t.dec == decDone.dec) = true := by decide

/-- R32, R34: the rows of "Z" and of "@" on a scanning decoder. -/
theorem test_sym_and_invalid : nextHas (exec .sym35 (decAt [0x5A] .scan 0 0 [])) (fun t => t.dec.rp == 1) = true ∧
    nextHas (exec (.invalidChar 0x40) (decAt [0x40] .scan 0 0 [])) (fun t => t.dec.cause == .char) = true := by decide

/-- R90: the cause codes, and R12, R13: the state codes. -/
theorem test_codes :
    [Cause.none, .char, .length, .range16, .range8].map Cause.code = [0, 1, 2, 3, 4] ∧
    [DecState.idle, .busy, .done, .error].map DecState.code = [0, 1, 2, 3] ∧
    [EncState.idle, .busy, .done].map EncState.code = [0, 1, 2] := by decide

/-- The word an opcode-table row gives is the first instruction after reset (log 13). -/
theorem test_withFetchWord_runs :
    nextHas (step (State.reset.withFetchWord 5 0x02)) (fun t => t.enc.rp == 2) = true ∧
    nextHas (step (State.reset.withFetchWord 8 0x40)) (fun t => t.dec.cause == .char) = true := by decide

/-- 95_test_vectors.md S7: "Hello world" and its text, as functions. -/
theorem test_known_vector :
    encodeBytes [0x48, 0x65, 0x6C, 0x6C, 0x6F, 0x20, 0x77, 0x6F, 0x72, 0x6C, 0x64] =
      [0x25, 0x36, 0x39, 0x20, 0x56, 0x44, 0x38, 0x32, 0x45, 0x4B, 0x34, 0x46, 0x2E, 0x4B, 0x45, 0x41, 0x32] := by
  decide

/-! ### Witnesses: states and operands that meet the hypotheses of the obligations -/

/-- Encoders about to run ENC2 and ENC1 that keep the invariant. -/
theorem encAt_inv : (encAt [0x48, 0x65, 0x64] 0 0 []).Inv ∧ (encAt [0x48, 0x65, 0x64] 2 3 [0x25, 0x36, 0x39]).Inv := by
  constructor <;> refine ⟨by decide, ?_, ?_, by decide⟩ <;> constructor <;> decide

/-- Decoders about to run DEC3 and DEC2 that keep the invariant. -/
theorem decGroup_inv : (decAt [0x25, 0x36, 0x39, 0x41, 0x32] .group 0 0 []).Inv ∧
    (decAt [0x25, 0x36, 0x39, 0x41, 0x32] .group 3 2 [0x48, 0x65]).Inv := by
  constructor <;> refine ⟨by decide, ?_, ?_, by decide⟩ <;> constructor <;> decide

/-- Units that have ended, in each way, and keep the invariant. -/
theorem done_inv : encDone.Inv ∧ decDone.Inv ∧ decError.Inv := by
  refine ⟨?_, ?_, ?_⟩ <;> refine ⟨by decide, ?_, ?_, by decide⟩ <;> constructor <;> decide

theorem witness_DecodeOfEncodeIsIdentity :
    (WellFormed cfg4 .encStart = true ∧ Instr.selectedWhen false .encStart = true) ∧
    (WellFormed cfg4 (.hwrReg .dec .ctrl 255) = true ∧ Instr.selectedWhen true (.hwrReg .dec .ctrl 255) = true) := by
  decide

theorem witness_DecoderAnswersWellFormedInstructions :
    (Code.WellFormed cfg4 (.access ⟨0b0011, 15, 255⟩) = true ∧
      decode false (.access ⟨0b0011, 15, 255⟩) = .ok (.hwrIbuf .enc 15 255)) ∧
    (Code.WellFormed cfg4 (.key 0b01111) = true ∧
      decode true (.key 0b01111) = .error (.unassignedKey 0b01111)) := by decide

theorem witness_DescriptorSelectsTheAccess : RegNum.olen ≠ .ctrl ∧ 3 < 4 := by decide

theorem witness_StepRunsTheDecodedInstruction :
    (encAt [0x64] 0 0 []).turn = (.run (.key 0b00001), encAt [0x64] 0 0 []) ∧
    decode ((encAt [0x64] 0 0 []).addressedBusy (.key 0b00001)) (.key 0b00001) = .ok .enc1 := by decide

/-- The two units BUSY at once. -/
def bothBusy : State := (encAt [0x64] 0 0 []).withDec (decAt [0x41, 0x32] .scan 1 0 []).dec

theorem witness_TurnsFollowTheAgenda :
    (base.withAgenda [.access ⟨0b0000, 1, 0⟩]).agenda = .access ⟨0b0000, 1, 0⟩ :: [] ∧
    (((encAt [0x64] 0 0 []).withAgenda [.seq .enc]).agenda = .seq .enc :: [] ∧
      ((encAt [0x64] 0 0 []).withAgenda [.seq .enc]).busy .enc = true) ∧
    ((base.withAgenda [.seq .dec]).agenda = .seq .dec :: [] ∧ (base.withAgenda [.seq .dec]).busy .dec = false) ∧
    (base.agenda = [] ∧ base.busy .enc = false ∧ base.busy .dec = false) ∧
    ((encAt [0x64] 0 0 []).agenda = [] ∧ (encAt [0x64] 0 0 []).busy .enc = true ∧
      ∀ w, w ≠ UnitId.enc → (encAt [0x64] 0 0 []).busy w = false) ∧
    (bothBusy.agenda = [] ∧ bothBusy.busy .enc = true ∧ bothBusy.busy .dec = true) := by
  refine ⟨rfl, ⟨rfl, rfl⟩, ⟨rfl, rfl⟩, ⟨rfl, rfl, rfl⟩, ⟨rfl, rfl, ?_⟩, rfl, rfl, rfl⟩
  intro w hw
  cases w
  · exact absurd rfl hw
  · rfl

theorem witness_EveryAccessCompletesInItsStep :
    (base.withAgenda [.access ⟨0b0110, 0, 0⟩, .seq .enc]).agenda = .access ⟨0b0110, 0, 0⟩ :: [.seq .enc] := rfl

theorem witness_TablesAreInverse : (0x40 : Byte) ∉ alutRom := by decide

theorem witness_LookupsAreInverse : a2c 44 = a2c 44 ∧ c2d 0x3A = some 44 := by decide

theorem witness_DigitsRebuildTheValue : BitVec.toNat (255 : Val16) ≤ 255 ∧ BitVec.toNat (44 : Val16) < 45 := by decide

theorem witness_ReciprocalsAreExact : BitVec.toNat (255 : Val16) ≤ 255 := by decide

theorem witness_EncStartBeginsATransaction : (1 : Nat) % 2 = 1 ∧ (255 : Nat) % 2 = 1 := by decide

theorem witness_DecStartBeginsATransaction : (1 : Nat) % 2 = 1 ∧ (3 : Nat) % 2 = 1 := by decide

/-- Two bytes and room; the second clause's premises at a full chunk with one byte after it. -/
theorem witness_Enc2EncodesOneFullChunk :
    ((encAt [0xFF, 0xFF] 0 0 []).enc.ibuf.read 0 = some 0xFF ∧ (encAt [0xFF, 0xFF] 0 0 []).enc.ibuf.read (0 + 1) = some 0xFF ∧
      (encAt [0xFF, 0xFF] 0 0 []).enc.wp + 3 ≤ cfg4.encOcap) ∧
    ((encAt [0x48, 0x65, 0x64] 0 0 []).Inv ∧ (encAt [0x48, 0x65, 0x64] 0 0 []).Selects .enc .enc2) ∧
    (65535 : Nat) ≤ 65535 :=
  ⟨by decide, ⟨encAt_inv.1, rfl, rfl⟩, by decide⟩

theorem witness_Enc1EncodesTheTailByte :
    ((encAt [0x2C] 0 0 []).enc.ibuf.read 0 = some 0x2C ∧ (encAt [0x2C] 0 0 []).enc.wp + 2 ≤ cfg4.encOcap) ∧
    ((encAt [0x48, 0x65, 0x64] 2 3 [0x25, 0x36, 0x39]).Inv ∧
      (encAt [0x48, 0x65, 0x64] 2 3 [0x25, 0x36, 0x39]).Selects .enc .enc1) :=
  ⟨by decide, encAt_inv.2, rfl, rfl⟩

theorem witness_EncEndPublishesTheResult : ∃ t, exec .encEnd (encAt [] 0 0 []) = .next t := ⟨_, rfl⟩

/-- An invalid and a valid character at the read pointer. -/
theorem witness_DecScanChecksOneCharacter :
    ((decAt [0x40] .scan 0 0 []).dec.ibuf.read 0 = some 0x40 ∧ dlutRom[BitVec.toNat (0x40 : Byte)]? = some 0xFF) ∧
    ((decAt [0x5A] .scan 0 0 []).dec.ibuf.read 0 = some 0x5A ∧ dlutRom[BitVec.toNat (0x5A : Byte)]? ≠ some 0xFF) := by
  decide

theorem witness_DecLenchkChecksTheLength :
    (decAt [0x41] .scan 1 0 []).dec.ilen % 3 = 1 ∧ (decAt [0x41, 0x32] .scan 2 0 []).dec.ilen % 3 ≠ 1 ∧
    (decAt [] .scan 0 0 []).dec.ilen % 3 ≠ 1 := by decide

/-- "GGW" (65536) and "FGW" (65535) meet the two clauses; the third at a group with a tail after it. -/
theorem witness_Dec3DecodesOneFullGroup :
    ((decAt [0x47, 0x47, 0x57] .group 0 0 []).dec.ibuf.read 0 = some 0x47 ∧
      (decAt [0x47, 0x47, 0x57] .group 0 0 []).dec.ibuf.read (0 + 1) = some 0x47 ∧
      (decAt [0x47, 0x47, 0x57] .group 0 0 []).dec.ibuf.read (0 + 2) = some 0x57 ∧
      c2d 0x47 = some 16 ∧ c2d 0x57 = some 32 ∧ 65535 < 16 + 45 * 16 + 2025 * 32) ∧
    ((decAt [0x46, 0x47, 0x57] .group 0 0 []).dec.ibuf.read 0 = some 0x46 ∧
      (decAt [0x46, 0x47, 0x57] .group 0 0 []).dec.ibuf.read (0 + 1) = some 0x47 ∧
      (decAt [0x46, 0x47, 0x57] .group 0 0 []).dec.ibuf.read (0 + 2) = some 0x57 ∧
      c2d 0x46 = some 15 ∧ 15 + 45 * 16 + 2025 * 32 ≤ 65535 ∧
      (decAt [0x46, 0x47, 0x57] .group 0 0 []).dec.wp + 2 ≤ cfg4.decOcap) ∧
    ((decAt [0x25, 0x36, 0x39, 0x41, 0x32] .group 0 0 []).Inv ∧
      (decAt [0x25, 0x36, 0x39, 0x41, 0x32] .group 0 0 []).Selects .dec .dec3) :=
  ⟨by decide, by decide, decGroup_inv.1, rfl, rfl⟩

/-- "V5" (256) and "U5" (255) meet the two clauses; the third at a tail after a group. -/
theorem witness_Dec2DecodesTheTailGroup :
    ((decAt [0x56, 0x35] .group 0 0 []).dec.ibuf.read 0 = some 0x56 ∧
      (decAt [0x56, 0x35] .group 0 0 []).dec.ibuf.read (0 + 1) = some 0x35 ∧
      c2d 0x56 = some 31 ∧ c2d 0x35 = some 5 ∧ 255 < 31 + 45 * 5) ∧
    ((decAt [0x55, 0x35] .group 0 0 []).dec.ibuf.read 0 = some 0x55 ∧
      (decAt [0x55, 0x35] .group 0 0 []).dec.ibuf.read (0 + 1) = some 0x35 ∧
      c2d 0x55 = some 30 ∧ 30 + 45 * 5 ≤ 255 ∧ (decAt [0x55, 0x35] .group 0 0 []).dec.wp + 1 ≤ cfg4.decOcap) ∧
    ((decAt [0x25, 0x36, 0x39, 0x41, 0x32] .group 3 2 [0x48, 0x65]).Inv ∧
      (decAt [0x25, 0x36, 0x39, 0x41, 0x32] .group 3 2 [0x48, 0x65]).Selects .dec .dec2) :=
  ⟨by decide, by decide, decGroup_inv.2, rfl, rfl⟩

theorem witness_DecBadremFailsAndIsUnreachable :
    (decAt [0x25, 0x36, 0x39, 0x41, 0x32] .group 3 2 [0x48, 0x65]).Inv := decGroup_inv.2

/-- The length says more entries than were written: each clause's unwritten entry. -/
theorem witness_UnwrittenInputFaults :
    (encAt [] 0 0 []).enc.ibuf.read 0 = none ∧
    ((encAt [0x48] 0 0 []).enc.ibuf.read 0 = some 0x48 ∧ (encAt [0x48] 0 0 []).enc.ibuf.read (0 + 1) = none) ∧
    (decAt [] .scan 0 0 []).dec.ibuf.read 0 = none ∧
    ((decAt [0x30] .group 0 0 []).dec.ibuf.read 0 = some 0x30 ∧
      (decAt [0x30] .group 0 0 []).dec.ibuf.read (0 + 1) = none) ∧
    ((decAt [0x30, 0x31] .group 0 0 []).dec.ibuf.read 0 = some 0x30 ∧
      (decAt [0x30, 0x31] .group 0 0 []).dec.ibuf.read (0 + 1) = some 0x31 ∧
      (decAt [0x30, 0x31] .group 0 0 []).dec.ibuf.read (0 + 2) = none) := by decide

theorem witness_SymbolRowsPassAndInvalidCharFails :
    Instr.symIndex? .sym00 = some 0 ∧ Instr.symIndex? .sym44 = some 44 := by decide

theorem witness_ScanRunsTheRowOfTheCharacter : (decAt [0x3A] .scan 0 0 []).dec.ibuf.read 0 = some 0x3A := by decide

theorem witness_HrdRegReturnsTheRegister : decError.Inv ∧ decError.done .dec = false := ⟨done_inv.2.2, rfl⟩

theorem witness_HwrRegWritesTheRegister :
    (encAt [0x64] 0 0 []).busy .enc = true ∧ (2 : Nat) % 2 = 0 ∧
    (encDone.enc.state ≠ .busy ∧ (1 : Nat) % 2 = 1) ∧ (decError.dec.state ≠ .busy ∧ (3 : Nat) % 2 = 1) := by decide

theorem witness_HwrIbufWritesOneEntry :
    (decAt [] .scan 0 0 []).busy .dec = true ∧ (encDone.enc.state ≠ .busy ∧ 15 < 2 ^ cfg4.encLenW) ∧
    (decError.dec.state ≠ .busy ∧ 15 < 2 ^ cfg4.decLenW) := by decide

/-- The last result entry in DONE; a read outside DONE; a read at OLEN. -/
theorem witness_HrdObufReturnsResultOrDraw :
    (encDone.done .enc = true ∧ 1 < encDone.olen .enc ∧ (encDone.obuf .enc).read 1 = some 0x32) ∧
    decError.done .dec = false ∧ encDone.olen .enc ≤ 2 := by decide

theorem witness_DoneResultIsReadable : encDone.Inv ∧ encDone.done .enc = true ∧ 1 < encDone.olen .enc :=
  ⟨done_inv.1, rfl, by decide⟩

theorem witness_HillChangesNothing :
    HostAccess.desc ⟨0b0010, 0, 0⟩ ∈ [0b0010#4, 0b0101] ∧
    HostAccess.desc ⟨0b1001, 4, 0⟩ ∈ [0b0000#4, 0b0001, 0b1000, 0b1001] ∧
    3 < HostAccess.index ⟨0b1001, 4, 0⟩ ∧
    IllegalKind.regWrite ∈ [IllegalKind.obufWrite, .reservedWrite, .regWrite] ∧
    IllegalKind.regRead ∈ [IllegalKind.ibufRead, .reservedRead, .regRead] := by decide

theorem witness_ResetMapsAnyStateToTheResetState : (decError.withAgenda [.reset]).agenda = .reset :: [] := rfl

theorem witness_EveryStepKeepsTheInvariant :
    (encAt [0x48, 0x65, 0x64] 0 0 []).Inv ∧ ∃ t, step (encAt [0x48, 0x65, 0x64] 0 0 []) = .next t :=
  ⟨encAt_inv.1, _, rfl⟩

/-- A started decoder whose only character was never written. -/
def unwritten : State := base.withDec { base.dec with ilen := 1, state := .busy }

theorem witness_OnlyUnwrittenInputCanFault :
    unwritten.Inv ∧ step unwritten = .fault (.ibufUnwritten .dec 0) := by
  refine ⟨⟨by decide, ?_, ?_, by decide⟩, rfl⟩ <;> constructor <;> decide

theorem witness_SequencerStepStaysInItsUnit :
    (((encAt [0x64] 0 0 []).withAgenda [.seq .enc]).agenda = .seq .enc :: [] ∧
      ∃ t, step ((encAt [0x64] 0 0 []).withAgenda [.seq .enc]) = .next t) ∧
    ((decDone.withAgenda [.seq .dec]).agenda = .seq .dec :: [] ∧ decDone.busy .dec = false ∧
      ∃ t, step (decDone.withAgenda [.seq .dec]) = .next t) :=
  ⟨⟨rfl, _, rfl⟩, rfl, rfl, _, rfl⟩

/-- A host write that meets a BUSY encoder. -/
theorem witness_InputIsFrozenWhileBusy :
    (encAt [0x64] 0 0 []).busy .enc = true ∧
    (∃ t, step ((encAt [0x64] 0 0 []).withAgenda [.access ⟨0b0011, 0, 9⟩]) = .next t) ∧
    ∀ rest, ((encAt [0x64] 0 0 []).withAgenda [.access ⟨0b0011, 0, 9⟩]).agenda ≠ .reset :: rest :=
  ⟨rfl, ⟨_, rfl⟩, fun _ h => by simp [State.withAgenda] at h⟩

/-- A host write to a finished encoder, which is no START; and the same for the decoder. -/
theorem witness_ResultPersistsUntilStartOrReset :
    (∃ t, step (encDone.withAgenda [.access ⟨0b0011, 0, 9⟩]) = .next t) ∧
    (∀ rest, (encDone.withAgenda [.access ⟨0b0011, 0, 9⟩]).agenda ≠ .reset :: rest) ∧
    encDone.busy .enc = false ∧ encDone.busy .dec = false ∧
    decodeAccess false ⟨0b0011, 0, 9⟩ ≠ .encStart ∧ decodeAccess false ⟨0b0011, 0, 9⟩ ≠ .decStart :=
  ⟨⟨_, rfl⟩, fun _ h => by simp [State.withAgenda] at h, rfl, rfl, by decide, by decide⟩

/-- The same encoder beside two different decoders. -/
theorem witness_SequencerStepDependsOnItsUnitAlone :
    bothBusy.cfg = (encAt [0x64] 0 0 []).cfg ∧ bothBusy.enc = (encAt [0x64] 0 0 []).enc ∧
    (∃ t, step (bothBusy.withAgenda [.seq .enc]) = .next t) ∧
    bothBusy.dec = (decAt [0x41, 0x32] .scan 1 0 []).dec ∧ ∃ t, step (bothBusy.withAgenda [.seq .dec]) = .next t :=
  ⟨rfl, rfl, ⟨_, rfl⟩, rfl, _, rfl⟩

theorem witness_LengthLaw : decodeText [0x41, 0x32] = .ok [0x64] := by decide

theorem witness_EncodedTextsStayInTheAlphabet : 0 < [0xFF#8, 0xFF, 0x64].length / 2 ∧ [0xFF#8, 0xFF, 0x64].length % 2 = 1 := by
  decide

theorem witness_ChunksBecomeGroupsInOrder :
    ([0x48#8, 0x65, 0x64][2 * 0]? = some 0x48 ∧ [0x48#8, 0x65, 0x64][2 * 0 + 1]? = some 0x65) ∧
    [0x48#8, 0x65, 0x64].length % 2 = 1 := by decide

theorem witness_DecoderAcceptsExactlyTheEncodersImage :
    decodeText [0x46, 0x47, 0x57] = .ok [0xFF, 0xFF] ∧ encodeBytes [0xFF, 0xFF] = [0x46, 0x47, 0x57] := by decide

/-- "GGW", a length of 4, and "V5". -/
theorem witness_MalformedTextsAreRejected :
    ([0x47#8, 0x47, 0x57][3 * 0]? = some 0x47 ∧ [0x47#8, 0x47, 0x57][3 * 0 + 1]? = some 0x47 ∧
      [0x47#8, 0x47, 0x57][3 * 0 + 2]? = some 0x57 ∧ c2d 0x47 = some 16 ∧ c2d 0x57 = some 32 ∧
      65535 < 16 + 45 * 16 + 2025 * 32) ∧
    [0x41#8, 0x41, 0x41, 0x41].length % 3 = 1 ∧
    ([0x56#8, 0x35].length % 3 = 2 ∧ [0x56#8, 0x35][2 - 2]? = some 0x56 ∧ [0x56#8, 0x35][2 - 1]? = some 0x35 ∧
      c2d 0x56 = some 31 ∧ c2d 0x35 = some 5 ∧ 255 < 31 + 45 * 5) := by decide

/-- R92's examples: ":::@", "::::", ":::::", "000::", and "U5" for the success. -/
theorem witness_CausesInTheOrderOfTheAlgorithm :
    (∃ c ∈ [0x3A#8, 0x3A, 0x3A, 0x40], c2d c = none) ∧
    ((∀ c ∈ [0x3A#8, 0x3A, 0x3A, 0x3A], c2d c ≠ none) ∧ [0x3A#8, 0x3A, 0x3A, 0x3A].length % 3 = 1) ∧
    ([0x3A#8, 0x3A, 0x3A, 0x3A, 0x3A].mapM c2d = some [44, 44, 44, 44, 44] ∧ 5 % 3 ≠ 1 ∧
      65535 < 44 + 45 * 44 + 2025 * 44) ∧
    ([0x30#8, 0x30, 0x30, 0x3A, 0x3A].mapM c2d = some [0, 0, 0, 44, 44] ∧ 0 + 45 * 0 + 2025 * 0 ≤ 65535 ∧
      255 < 44 + 45 * 44) ∧
    ([0x55#8, 0x35].mapM c2d = some [30, 5] ∧ 30 + 45 * 5 ≤ 255) := by decide

theorem witness_EncoderTransactionComputesEncode :
    (encAt [0x48, 0x65, 0x64] 0 0 []).enc.ilen = [0x48#8, 0x65, 0x64].length ∧
    (encAt [0x48, 0x65, 0x64] 0 0 []).enc.ibuf.Holds [0x48, 0x65, 0x64] ∧ [0x48#8, 0x65, 0x64].length < 2 ^ cfg4.encLenW ∧
    ((encAt [0x48, 0x65, 0x64] 0 0 []).withAgenda [.seq .enc, .seq .enc, .seq .enc]).agenda =
      List.replicate (encSteps [0x48#8, 0x65, 0x64].length) (.seq .enc) ++ [] := by decide

/-- A text that succeeds and one that fails. -/
theorem witness_DecoderTransactionComputesDecode :
    ((decAt [0x41, 0x32] .scan 0 0 []).dec.ilen = [0x41#8, 0x32].length ∧
      (decAt [0x41, 0x32] .scan 0 0 []).dec.ibuf.Holds [0x41, 0x32] ∧ [0x41#8, 0x32].length < 2 ^ cfg4.decLenW ∧
      ((decAt [0x41, 0x32] .scan 0 0 []).withAgenda (List.replicate 5 (.seq .dec))).agenda =
        List.replicate (decSteps [0x41, 0x32]) (.seq .dec) ++ [] ∧ decodeText [0x41, 0x32] = .ok [0x64]) ∧
    (decSteps [0x56, 0x35] = 4 ∧ decodeText [0x56, 0x35] = .error .range8) := by decide

/-- Both units running, a host access that meets a BUSY unit and one to the other unit between their steps. -/
def mixed (l : List Event) : State :=
  ((encAt [0x64] 0 0 []).withDec (decAt [0x40] .scan 0 0 []).dec).withAgenda l

theorem witness_ResultIsTheSameUnderEveryInterleaving :
    (Event.reset ∉ (mixed [.seq .enc, .access ⟨0b0011, 0, 9⟩, .seq .dec, .access ⟨0b1001, 0, 1⟩, .seq .enc]).agenda ∧
      (mixed [.seq .enc, .access ⟨0b0011, 0, 9⟩, .seq .dec, .access ⟨0b1001, 0, 1⟩, .seq .enc]).agenda.count (.seq .enc) =
        encSteps [0x64#8].length ∧
      ∃ t, core.run 5 (mixed [.seq .enc, .access ⟨0b0011, 0, 9⟩, .seq .dec, .access ⟨0b1001, 0, 1⟩, .seq .enc]) =
        .next t) ∧
    (mixed []).enc = { (mixed []).enc with ilen := [0x64#8].length, rp := 0, wp := 0, olen := 0, state := .busy } ∧
    (mixed []).enc.ibuf.Holds [0x64] ∧
    ((mixed [.seq .enc, .seq .dec]).agenda.count (.seq .dec) = decSteps [0x40] ∧
      (mixed [.seq .enc, .seq .dec]).agenda.getLast? = some (.seq .dec) ∧
      ∃ t, core.run 2 (mixed [.seq .enc, .seq .dec]) = .next t) ∧
    (mixed []).dec = { (mixed []).dec with
      ilen := [0x40#8].length, rp := 0, wp := 0, olen := 0, cause := .none, phase := .scan, state := .busy } ∧
    (mixed []).dec.ibuf.Holds [0x40] ∧ decodeText [0x40] = .error .char :=
  ⟨⟨by decide, by decide, _, rfl⟩, rfl, by decide, ⟨by decide, by decide, _, rfl⟩, rfl, by decide, by decide⟩

theorem witness_HostCallReturnsTheFunction :
    base.busy .enc = false ∧ base.busy .dec = false ∧ [0x64#8].length < 2 ^ cfg4.encLenW ∧
    (base.withAgenda ((hostCall .enc [0x64]).map .access ++ List.replicate (encSteps 1) (.seq .enc))).agenda =
      (hostCall .enc [0x64]).map .access ++ List.replicate (encSteps [0x64#8].length) (.seq .enc) ++ [] ∧
    (encodeBytes [0x64])[1]? = some 0x32 ∧ [0x41#8, 0x32].length < 2 ^ cfg4.decLenW ∧
    (base.withAgenda ((hostCall .dec [0x41, 0x32]).map .access ++ List.replicate 5 (.seq .dec))).agenda =
      (hostCall .dec [0x41, 0x32]).map .access ++ List.replicate (decSteps [0x41, 0x32]) (.seq .dec) ++ [] ∧
    decodeText [0x41, 0x32] = .ok [0x64] := by decide

theorem witness_BusyUnitsReachTheirEnd :
    bothBusy.Inv ∧ bothBusy.agenda = [] ∧ bothBusy.InputWritten .enc ∧ bothBusy.InputWritten .dec := by
  refine ⟨⟨by decide, ?_, ?_, by decide⟩, rfl, by decide, by decide⟩ <;> constructor <;> decide

end Sys2Proof.Tests
end

section
/-! Reset (10_state.md section 12): what the two units hold right after it. -/

namespace Sys2Proof.Machine

/-! ### What the reset state is made of -/

@[simp] theorem State.resetOf_enc (cfg : Config) : (State.resetOf cfg).enc = EncUnit.reset := rfl

@[simp] theorem State.resetOf_dec (cfg : Config) : (State.resetOf cfg).dec = DecUnit.reset := rfl

theorem State.reset_eq_resetOf_cfg : State.reset = State.resetOf State.reset.cfg := rfl

/-- No input entry holds a value after reset (R20). -/
theorem State.resetOf_ibuf_read (cfg : Config) (u : UnitId) (i : Nat) : ((State.resetOf cfg).ibuf u).read i = none := by
  cases u <;> rfl

/-- No output entry holds a value after reset (R20). -/
theorem State.resetOf_obuf_read (cfg : Config) (u : UnitId) (i : Nat) : ((State.resetOf cfg).obuf u).read i = none := by
  cases u <;> rfl

/-- Settles O38: the registers are the units' reset values, and the buffers are empty. -/
theorem resetLeavesTheSpecsValues : Obligations.ResetLeavesTheSpecsValues := by
  intro cfg
  simp only [State.resetOf_enc, State.resetOf_dec]
  exact ⟨rfl, rfl, rfl, rfl, rfl, rfl, rfl, rfl, rfl, rfl, rfl, rfl,
    fun u i => ⟨State.resetOf_ibuf_read cfg u i, State.resetOf_obuf_read cfg u i⟩, State.reset_eq_resetOf_cfg⟩

end Sys2Proof.Machine
end

section
/-! The result and the status of a unit that is not BUSY (10_state.md section 7): only its START and reset change
them. Each of the two other kinds of step, a host access and an operation of a sequencer, has its frame lemma. -/

namespace Sys2Proof.Machine

/-! ### A unit's status and result -/

/-- What a finished encoder shows the host: `STATE`, `OLEN` and `OBUF` (R16). -/
def EncUnit.result (e : EncUnit) : EncState × Nat × Memory := (e.state, e.olen, e.obuf)

/-- What a finished decoder shows the host: `STATE`, `CAUSE`, `OLEN` and `OBUF` (R16). -/
def DecUnit.result (d : DecUnit) : DecState × Cause × Nat × Memory := (d.state, d.cause, d.olen, d.obuf)

/-- Unit `u` shows the same status and result in both states. -/
def State.SameResult (s t : State) : UnitId → Prop
  | .enc => t.enc.result = s.enc.result
  | .dec => t.dec.result = s.dec.result

theorem State.sameResult_enc_iff (s t : State) :
    s.SameResult t .enc ↔ t.enc.state = s.enc.state ∧ t.enc.olen = s.enc.olen ∧ t.enc.obuf = s.enc.obuf := by
  simp only [State.SameResult, EncUnit.result, Prod.mk.injEq]

theorem State.sameResult_dec_iff (s t : State) :
    s.SameResult t .dec ↔ t.dec.state = s.dec.state ∧ t.dec.cause = s.dec.cause ∧ t.dec.olen = s.dec.olen ∧
      t.dec.obuf = s.dec.obuf := by
  simp only [State.SameResult, DecUnit.result, Prod.mk.injEq]

/-- A step that leaves both units as they are keeps both results. -/
theorem State.sameResult_of_units_eq {s t : State} (he : t.enc = s.enc) (hd : t.dec = s.dec) (u : UnitId) :
    s.SameResult t u := by
  cases u
  · exact congrArg EncUnit.result he
  · exact congrArg DecUnit.result hd

/-! ### The host's accesses -/

theorem State.sameResult_start_other (s : State) {u w : UnitId} (h : w ≠ u) : s.SameResult (s.start w) u := by
  cases w <;> cases u
  · exact absurd rfl h
  · rfl
  · rfl
  · exact absurd rfl h

theorem State.sameResult_writeIlen (s : State) (w u : UnitId) (v : Nat) : s.SameResult (s.writeIlen w v) u := by
  cases w <;> cases u <;> rfl

theorem State.sameResult_writeIbuf (s : State) (w u : UnitId) (i v : Nat) : s.SameResult (s.writeIbuf w i v) u := by
  cases w <;> cases u <;> rfl

/-- Of the host's accesses only a unit's START touches its status and result. -/
theorem access_sameResult {s t : State} {a : HostAccess} {u : UnitId}
    (h : exec (decodeAccess (s.busy a.unit) a) s = .next t) (hns : decodeAccess false a ≠ startInstr u) :
    s.SameResult t u := by
  obtain ⟨t', e, hc⟩ := access_cases s a
  obtain rfl : t' = t := by simpa [e] using h
  rcases hc with rfl | ⟨v, rfl, -⟩ | rfl | ⟨w, -, hw, rfl⟩ | ⟨w, v, -, rfl⟩ | ⟨w, i, v, -, rfl⟩
  · exact State.sameResult_of_units_eq rfl rfl u
  · exact State.sameResult_of_units_eq rfl rfl u
  · exact State.sameResult_of_units_eq rfl rfl u
  · exact s.sameResult_start_other fun hwu => hns (hwu ▸ hw)
  · exact s.sameResult_writeIlen w u v
  · exact s.sameResult_writeIbuf w u i v

/-! ### A sequencer's operations leave the other unit alone -/

theorem exec_encOpOf_dec {s t : State} {n : Nat} (h : exec (encOpOf n) s = .next t) : t.dec = s.dec := by
  rcases exec_encOpOf h with ⟨-, rfl⟩ | ⟨-, v, d0, d1, -, rfl⟩ | ⟨-, v, d0, d1, d2, -, rfl⟩ <;> rfl

theorem State.scanChar_enc (s : State) (d : Option Digit) : (s.scanChar d).enc = s.enc := by
  cases d <;> rfl

theorem exec_decOpOf_enc {s t : State} {p : Phase} {n : Nat} (h : exec (decOpOf p n) s = .next t) : t.enc = s.enc := by
  rcases exec_decOpOf h with ⟨-, -, rfl⟩ | ⟨-, -, c, -, rfl⟩ | ⟨-, -, rfl⟩ | ⟨-, -, rfl⟩ |
    ⟨-, -, v, d0, d1, rfl | ⟨b, -, rfl⟩⟩ | ⟨-, -, v, d0, d1, d2, rfl | ⟨b0, b1, -, rfl⟩⟩
  · split_ifs <;> rfl
  · exact s.scanChar_enc _
  all_goals rfl

/-- An operation of unit `w`, run in any state, keeps the other unit's status and result. -/
theorem exec_opOf_sameResult_other {s s' t : State} {u w : UnitId} (h : exec (s.opOf w) s' = .next t) (hwu : w ≠ u) :
    s'.SameResult t u := by
  cases w <;> cases u
  · exact absurd rfl hwu
  · exact congrArg DecUnit.result (exec_encOpOf_dec h)
  · exact congrArg EncUnit.result (exec_decOpOf_enc h)
  · exact absurd rfl hwu

/-! ### Every step -/

theorem State.SameResult.congr_left {s s' t : State} {u : UnitId} (h : s'.SameResult t u) (he : s'.enc = s.enc)
    (hd : s'.dec = s.dec) : s.SameResult t u := by
  cases u
  · exact h.trans (congrArg EncUnit.result he)
  · exact h.trans (congrArg DecUnit.result hd)

/-- A step that is neither reset nor the unit's START keeps the status and result of a unit that is not BUSY: an
operation is always that of a BUSY unit, so of the other one. -/
theorem step_sameResult {s t : State} {u : UnitId} (h : step s = .next t)
    (hnr : ∀ rest, s.agenda ≠ .reset :: rest) (hb : s.busy u = false)
    (hns : ∀ a rest, s.agenda = .access a :: rest → decodeAccess false a ≠ startInstr u) : s.SameResult t u := by
  rcases step_cases s with ⟨rest, hr, -⟩ | ⟨a, rest, ha, e⟩ | ⟨w, s', hw, -, he, hd, -, -, -, -, e⟩ |
    ⟨s', -, he, hd, -, -, -, -, e⟩
  · exact absurd hr (hnr rest)
  · rw [e, ← State.busy_withAgenda s rest] at h
    exact (access_sameResult h (hns a rest ha)).congr_left rfl rfl
  · have hwu : w ≠ u := by
      rintro rfl
      simp [hw] at hb
    exact (exec_opOf_sameResult_other (e ▸ h) hwu).congr_left he hd
  · obtain rfl : s' = t := by simpa [e] using h
    exact State.sameResult_of_units_eq he hd u

/-- Settles O46: both halves are `step_sameResult`, at the encoder and at the decoder. -/
theorem resultPersistsUntilStartOrReset : Obligations.ResultPersistsUntilStartOrReset := by
  intro s t h hnr
  exact ⟨fun hb hns => (State.sameResult_enc_iff s t).mp (step_sameResult h hnr hb hns),
    fun hb hns => (State.sameResult_dec_iff s t).mp (step_sameResult h hnr hb hns)⟩

end Sys2Proof.Machine
end

section
/-! The input of a BUSY unit (20_memory.md section 7, consequence 2 of R29): the host writes the input of a unit that is
not BUSY only, and no operation of a sequencer writes an input. -/

namespace Sys2Proof.Machine

/-- Unit `u` holds the same input, `IBUF` and `ILEN`, in both states. -/
def State.SameInput (s t : State) (u : UnitId) : Prop := t.ibuf u = s.ibuf u ∧ t.ilen u = s.ilen u

/-- What the two units hold decides their inputs. -/
theorem State.SameInput.congr_left {s s' t : State} {u : UnitId} (h : s'.SameInput t u) (he : s'.enc = s.enc)
    (hd : s'.dec = s.dec) : s.SameInput t u := by
  cases u <;> simpa [State.SameInput, he, hd] using h

/-- A step that leaves both units as they are keeps both inputs. -/
theorem State.sameInput_of_units_eq {s t : State} (he : t.enc = s.enc) (hd : t.dec = s.dec) (u : UnitId) :
    s.SameInput t u :=
  State.SameInput.congr_left (s' := t) ⟨rfl, rfl⟩ he hd

/-! ### The host's accesses -/

theorem State.sameInput_start (s : State) (w u : UnitId) : s.SameInput (s.start w) u := by
  cases w <;> cases u <;> exact ⟨rfl, rfl⟩

theorem State.sameInput_writeIlen_other (s : State) {w u : UnitId} (h : w ≠ u) (v : Nat) :
    s.SameInput (s.writeIlen w v) u := by
  cases w <;> cases u
  · exact absurd rfl h
  · exact ⟨rfl, rfl⟩
  · exact ⟨rfl, rfl⟩
  · exact absurd rfl h

theorem State.sameInput_writeIbuf_other (s : State) {w u : UnitId} (h : w ≠ u) (i v : Nat) :
    s.SameInput (s.writeIbuf w i v) u := by
  cases w <;> cases u
  · exact absurd rfl h
  · exact ⟨rfl, rfl⟩
  · exact ⟨rfl, rfl⟩
  · exact absurd rfl h

/-- No access of the host touches the input of a BUSY unit: a write that takes effect is to a unit that is not BUSY. -/
theorem access_sameInput {s t : State} {a : HostAccess} {u : UnitId}
    (h : exec (decodeAccess (s.busy a.unit) a) s = .next t) (hb : s.busy u = true) : s.SameInput t u := by
  have other {w : UnitId} (hw : s.busy w = false) : w ≠ u := by
    rintro rfl
    simp [hw] at hb
  obtain ⟨t', e, hc⟩ := access_cases s a
  obtain rfl : t' = t := by simpa [e] using h
  rcases hc with rfl | ⟨v, rfl, -⟩ | rfl | ⟨w, -, -, rfl⟩ | ⟨w, v, hw, rfl⟩ | ⟨w, i, v, hw, rfl⟩
  · exact State.sameInput_of_units_eq rfl rfl u
  · exact State.sameInput_of_units_eq rfl rfl u
  · exact State.sameInput_of_units_eq rfl rfl u
  · exact s.sameInput_start w u
  · exact s.sameInput_writeIlen_other (other hw) v
  · exact s.sameInput_writeIbuf_other (other hw) i v

/-! ### A sequencer's operations read its input and never write it -/

theorem exec_encOpOf_sameInput {s t : State} {n : Nat} (h : exec (encOpOf n) s = .next t) : s.SameInput t .enc := by
  rcases exec_encOpOf h with ⟨-, rfl⟩ | ⟨-, v, d0, d1, -, rfl⟩ | ⟨-, v, d0, d1, d2, -, rfl⟩ <;> exact ⟨rfl, rfl⟩

theorem State.scanChar_sameInput (s : State) (d : Option Digit) : s.SameInput (s.scanChar d) .dec := by
  cases d <;> exact ⟨rfl, rfl⟩

theorem exec_decOpOf_sameInput {s t : State} {p : Phase} {n : Nat} (h : exec (decOpOf p n) s = .next t) :
    s.SameInput t .dec := by
  rcases exec_decOpOf h with ⟨-, -, rfl⟩ | ⟨-, -, c, -, rfl⟩ | ⟨-, -, rfl⟩ | ⟨-, -, rfl⟩ |
    ⟨-, -, v, d0, d1, rfl | ⟨b, -, rfl⟩⟩ | ⟨-, -, v, d0, d1, d2, rfl | ⟨b0, b1, -, rfl⟩⟩
  · split_ifs <;> exact ⟨rfl, rfl⟩
  · exact s.scanChar_sameInput _
  all_goals exact ⟨rfl, rfl⟩

/-- An operation of either unit, run in any state, keeps the input of both. -/
theorem exec_opOf_sameInput {s s' t : State} {w : UnitId} (h : exec (s.opOf w) s' = .next t) (u : UnitId) :
    s'.SameInput t u := by
  cases w <;> cases u
  · exact exec_encOpOf_sameInput h
  · have hd := exec_encOpOf_dec h
    exact ⟨congrArg DecUnit.ibuf hd, congrArg DecUnit.ilen hd⟩
  · have he := exec_decOpOf_enc h
    exact ⟨congrArg EncUnit.ibuf he, congrArg EncUnit.ilen he⟩
  · exact exec_decOpOf_sameInput h

/-! ### Every step -/

/-- Settles O45: by what a step can be, a reset aside; only a host access could write an input, and it finds the unit
BUSY. -/
theorem inputIsFrozenWhileBusy : Obligations.InputIsFrozenWhileBusy := by
  intro s t u hb h hnr
  change s.SameInput t u
  rcases step_cases s with ⟨rest, hr, -⟩ | ⟨a, rest, -, e⟩ | ⟨w, s', -, -, he, hd, -, -, -, -, e⟩ |
    ⟨s', -, he, hd, -, -, -, -, e⟩
  · exact absurd hr (hnr rest)
  · rw [e, ← State.busy_withAgenda s rest] at h
    exact (access_sameInput h ((State.busy_withAgenda s rest u).trans hb)).congr_left rfl rfl
  · exact (exec_opOf_sameInput (e ▸ h) u).congr_left he hd
  · obtain rfl : s' = t := by simpa [e] using h
    exact State.sameInput_of_units_eq he hd u

end Sys2Proof.Machine
end

section
/-! The layout of an encoded text (20_memory.md R24): its groups stand in the order of the payload's chunks, so dropping
groups from the text drops chunks from the payload. -/

namespace Sys2Proof.Machine

@[simp] theorem encodeBytes_nil : encodeBytes [] = [] := rfl

@[simp] theorem encodeBytes_singleton (b : Byte) : encodeBytes [b] = tailGroup b := rfl

@[simp] theorem encodeBytes_cons_cons (b0 b1 : Byte) (rest : List Byte) :
    encodeBytes (b0 :: b1 :: rest) = fullGroup b0 b1 ++ encodeBytes rest := rfl

@[simp] theorem fullGroup_length (b0 b1 : Byte) : (fullGroup b0 b1).length = 3 := rfl

@[simp] theorem tailGroup_length (b : Byte) : (tailGroup b).length = 2 := rfl

/-- Without its first group a text is the text of the payload without its first chunk. -/
theorem drop_three_encodeBytes (p : List Byte) : (encodeBytes p).drop 3 = encodeBytes (p.drop 2) := by
  match p with
  | [] => rfl
  | [_] => rfl
  | _ :: _ :: _ => rfl

/-- Without its first `k` groups a text is the text of the payload without its first `k` chunks. -/
theorem drop_encodeBytes (p : List Byte) (k : Nat) :
    (encodeBytes p).drop (3 * k) = encodeBytes (p.drop (2 * k)) := by
  induction k generalizing p with
  | zero => rfl
  | succ k ih =>
    calc (encodeBytes p).drop (3 * (k + 1))
        = ((encodeBytes p).drop 3).drop (3 * k) := by rw [List.drop_drop, Nat.mul_succ, Nat.add_comm]
      _ = encodeBytes ((p.drop 2).drop (2 * k)) := by rw [drop_three_encodeBytes, ih]
      _ = encodeBytes (p.drop (2 * (k + 1))) := by rw [List.drop_drop, Nat.mul_succ, Nat.add_comm]

/-- A full chunk at index `i` begins what is left of the payload there. -/
theorem drop_eq_chunk_append {p : List Byte} {i : Nat} {b0 b1 : Byte} (h0 : p[i]? = some b0) (h1 : p[i + 1]? = some b1) :
    p.drop i = b0 :: b1 :: p.drop (i + 2) := by
  obtain ⟨hi0, rfl⟩ := List.getElem?_eq_some_iff.mp h0
  obtain ⟨hi1, rfl⟩ := List.getElem?_eq_some_iff.mp h1
  rw [List.drop_eq_getElem_cons hi0, List.drop_eq_getElem_cons hi1]

/-- After all full chunks of a payload of odd length its last byte is left. -/
theorem drop_full_chunks_of_odd {p : List Byte} (h : p.length % 2 = 1) :
    ∃ b, p[p.length - 1]? = some b ∧ p.drop (2 * (p.length / 2)) = [b] := by
  have hlt : p.length - 1 < p.length := by omega
  have hi : 2 * (p.length / 2) = p.length - 1 := by omega
  refine ⟨p[p.length - 1], List.getElem?_eq_getElem hlt, ?_⟩
  rw [hi, List.drop_eq_getElem_cons hlt, List.drop_eq_nil_of_le (by omega)]

/-- Settles O51: what is left of the text from group `k` on is the text of what is left of the payload from chunk `k`
on, and that begins with the chunk's two bytes, or is the odd last byte. -/
theorem chunksBecomeGroupsInOrder : Obligations.ChunksBecomeGroupsInOrder := by
  intro p
  refine ⟨fun k b0 b1 h0 h1 => ?_, fun hodd => ?_⟩
  · rw [drop_encodeBytes, drop_eq_chunk_append h0 h1, encodeBytes_cons_cons,
      List.take_left' (fullGroup_length b0 b1)]
  · obtain ⟨b, hb, hdrop⟩ := drop_full_chunks_of_odd hodd
    exact ⟨b, hb, by rw [drop_encodeBytes, hdrop, encodeBytes_singleton]⟩

end Sys2Proof.Machine
end

section
/-! The round trip of every instruction (30_encoding.md sections 1 and 6): the lemmas of the family RoundTrip, put
together. -/

namespace Sys2Proof.Laws.RoundTrip

theorem statement : (i : Instr) → Statement i
  | .encEnd => encEnd | .enc1 => enc1 | .enc2 => enc2
  | .decLenchk => decLenchk | .decScan => decScan | .decEnd => decEnd
  | .decBadrem => decBadrem | .dec2 => dec2 | .dec3 => dec3
  | .encStart => encStart
  | .decStart => decStart
  | .hrdReg u r => hrdReg u r
  | .hwrReg u r data => hwrReg u r data
  | .hwrIbuf u index data => hwrIbuf u index data
  | .hrdObuf u index => hrdObuf u index
  | .hill u kind index data => hill u kind index data
  | .sym00 => sym00 | .sym01 => sym01 | .sym02 => sym02 | .sym03 => sym03 | .sym04 => sym04
  | .sym05 => sym05 | .sym06 => sym06 | .sym07 => sym07 | .sym08 => sym08 | .sym09 => sym09
  | .sym10 => sym10 | .sym11 => sym11 | .sym12 => sym12 | .sym13 => sym13 | .sym14 => sym14
  | .sym15 => sym15 | .sym16 => sym16 | .sym17 => sym17 | .sym18 => sym18 | .sym19 => sym19
  | .sym20 => sym20 | .sym21 => sym21 | .sym22 => sym22 | .sym23 => sym23 | .sym24 => sym24
  | .sym25 => sym25 | .sym26 => sym26 | .sym27 => sym27 | .sym28 => sym28 | .sym29 => sym29
  | .sym30 => sym30 | .sym31 => sym31 | .sym32 => sym32 | .sym33 => sym33 | .sym34 => sym34
  | .sym35 => sym35 | .sym36 => sym36 | .sym37 => sym37 | .sym38 => sym38 | .sym39 => sym39
  | .sym40 => sym40 | .sym41 => sym41 | .sym42 => sym42 | .sym43 => sym43 | .sym44 => sym44
  | .invalidChar c => invalidChar c

/-- Settles O1: every constructor has its lemma in this family. -/
theorem decodeOfEncodeIsIdentity : Obligations.DecodeOfEncodeIsIdentity :=
  fun cfg busy i hwf hsel => statement i cfg busy hwf hsel

end Sys2Proof.Laws.RoundTrip
end

section
/-! The dispatch key (30_encoding.md R39): its five bits read back, and the single row of the dispatch table that
applies to a key a unit can form. -/

namespace Sys2Proof.Machine

/-! ### The bits of a key -/

/-- A key is `{UNIT, PHASE, GE3, GE2, GE1}`, bit 0 listed first here (R39). -/
theorem keyWord_getLsbD (unit phase : Bool) (n : Nat) {i : Nat} (hi : i < 5) :
    (keyWord unit phase n).getLsbD i = [geBit n 1, geBit n 2, geBit n 3, phase, unit][i] := by
  unfold keyWord
  generalize geBit n 1 = ge1, geBit n 2 = ge2, geBit n 3 = ge3
  revert unit phase ge1 ge2 ge3 i
  decide

theorem unitBit_eq_true (u : UnitId) : unitBit u = true ↔ u = .dec := by
  cases u <;> decide

theorem Phase.bit_eq_true (p : Phase) : p.bit = true ↔ p = .group := by
  cases p <;> decide

/-- The encoder's keys have no phase (R39). -/
theorem State.phaseBit_eq_true (s : State) (u : UnitId) : s.phaseBit u = true ↔ u = .dec ∧ s.dec.phase = .group := by
  cases u
  · simp [State.phaseBit]
  · simp [State.phaseBit, Phase.bit_eq_true]

/-! ### The row that applies -/

/-- When a single row applies to a key, the decoder answers it: the first row that applies is that row. -/
theorem decodeKey_of_filter_eq {k : BitVec 5} {r : KeyRow} (h : dispatchRows.filter (·.applies k) = [r]) :
    decodeKey k = .ok r.instr := by
  have hf : dispatchRows.find? (·.applies k) = some r := by
    rw [← List.head?_filter, h, List.head?_cons]
  simp only [decodeKey, hf]

/-- A single row applies to every key but those of UNIT 0 with PHASE 1. -/
theorem exists_filter_keyWord_eq {unit phase : Bool} (h : phase = true → unit = true) (n : Nat) :
    ∃ r, dispatchRows.filter (·.applies (keyWord unit phase n)) = [r] := by
  rw [keyWord_min, ← List.length_eq_one_iff]
  have hn : min n 3 ≤ 3 := min_le_right _ _
  generalize min n 3 = m at hn
  revert unit phase m
  decide

/-- Settles O4: the bits of the key word, its single row, and the turn of a sequencer by definition. -/
theorem dispatchKeySelectsTheOneOperation : Obligations.DispatchKeySelectsTheOneOperation := by
  intro s u
  have hphase : s.phaseBit u = true → unitBit u = true := fun h =>
    (unitBit_eq_true u).mpr ((s.phaseBit_eq_true u).mp h).1
  obtain ⟨r, hr⟩ := exists_filter_keyWord_eq hphase (s.remaining u)
  simp only [State.dispatchKey, keyWord_getLsbD, Nat.reduceLT]
  exact ⟨unitBit_eq_true u, s.phaseBit_eq_true u, geBit_eq_true _ 3, geBit_eq_true _ 2, geBit_eq_true _ 1,
    ⟨r, hr, decodeKey_of_filter_eq hr⟩, rfl⟩

end Sys2Proof.Machine
end

section
/-! No refusal (30_encoding.md R39, R40; 42_host_transactions.md R68): the shared operations of a sequencer pass a
refusal on and never make one, and every access answers a next state. -/

namespace Sys2Proof.Machine

/-! ### The shared operations refuse only when what follows them does -/

theorem State.fetchEntry_ne_refused {s : State} {u : UnitId} {i : Nat} {k : Byte → Result} {r : Refusal}
    (hk : ∀ b, k b ≠ .refused r) : s.fetchEntry u i k ≠ .refused r := by
  rcases s.fetchEntry_cases u i k with ⟨b, -, e⟩ | ⟨-, e⟩ <;> rw [e]
  · exact hk b
  · nofun

theorem State.withRoom_ne_refused {s : State} {u : UnitId} {n : Nat} {k : Result} {r : Refusal}
    (hk : k ≠ .refused r) : s.withRoom u n k ≠ .refused r := by
  unfold State.withRoom
  split_ifs
  · exact hk
  · nofun

theorem withGroupDigit_ne_refused {c : Byte} {k : Digit → Result} {r : Refusal}
    (hk : ∀ d, k d ≠ .refused r) : withGroupDigit c k ≠ .refused r := by
  unfold withGroupDigit
  split
  · exact hk _
  · nofun

/-! ### The operations of the sequencers -/

theorem execEnc1_ne_refused (s : State) (r : Refusal) : execEnc1 s ≠ .refused r :=
  State.fetchEntry_ne_refused fun _ => State.withRoom_ne_refused nofun

theorem execEnc2_ne_refused (s : State) (r : Refusal) : execEnc2 s ≠ .refused r :=
  State.fetchEntry_ne_refused fun _ => State.fetchEntry_ne_refused fun _ => State.withRoom_ne_refused nofun

theorem execDecScan_ne_refused (s : State) (r : Refusal) : execDecScan s ≠ .refused r :=
  State.fetchEntry_ne_refused fun _ => nofun

theorem execDec2_ne_refused (s : State) (r : Refusal) : execDec2 s ≠ .refused r := by
  refine State.fetchEntry_ne_refused fun c0 => State.fetchEntry_ne_refused fun c1 =>
    withGroupDigit_ne_refused fun d0 => withGroupDigit_ne_refused fun d1 => ?_
  dsimp only
  split_ifs
  · nofun
  · exact State.withRoom_ne_refused nofun

theorem execDec3_ne_refused (s : State) (r : Refusal) : execDec3 s ≠ .refused r := by
  refine State.fetchEntry_ne_refused fun c0 => State.fetchEntry_ne_refused fun c1 =>
    State.fetchEntry_ne_refused fun c2 => withGroupDigit_ne_refused fun d0 =>
    withGroupDigit_ne_refused fun d1 => withGroupDigit_ne_refused fun d2 => ?_
  dsimp only
  split_ifs
  · nofun
  · exact State.withRoom_ne_refused nofun

theorem exec_encOpOf_ne_refused (n : Nat) (s : State) (r : Refusal) : exec (encOpOf n) s ≠ .refused r := by
  unfold encOpOf
  split_ifs
  · nofun
  · exact execEnc1_ne_refused s r
  · exact execEnc2_ne_refused s r

theorem exec_decOpOf_ne_refused (p : Phase) (n : Nat) (s : State) (r : Refusal) :
    exec (decOpOf p n) s ≠ .refused r := by
  cases p <;> dsimp only [decOpOf] <;> split_ifs
  · nofun
  · exact execDecScan_ne_refused s r
  · nofun
  · nofun
  · exact execDec2_ne_refused s r
  · exact execDec3_ne_refused s r

/-- The operation a unit's key selects in `s` refuses in no state `s'`. -/
theorem exec_opOf_ne_refused (s s' : State) (u : UnitId) (r : Refusal) : exec (s.opOf u) s' ≠ .refused r := by
  cases u
  · exact exec_encOpOf_ne_refused _ s' r
  · exact exec_decOpOf_ne_refused _ _ s' r

/-! ### Every step -/

/-- Settles O42: by what a step can be; an access answers a next state, and a BUSY unit's key selects an operation. -/
theorem noStepRefuses : Obligations.NoStepRefuses := by
  intro s r
  rcases step_cases s with ⟨rest, -, e⟩ | ⟨a, rest, -, e⟩ | ⟨u, s', -, -, -, -, -, -, -, -, e⟩ |
    ⟨s', -, -, -, -, -, -, -, e⟩
  · rw [e]
    nofun
  · obtain ⟨t, ht, -⟩ := access_cases (s.withAgenda rest) a
    rw [e, ← State.busy_withAgenda s rest, ht]
    nofun
  · rw [e]
    exact exec_opOf_ne_refused s s' u r
  · rw [e]
    nofun

end Sys2Proof.Machine
end

section
/-! Words of the spec's tables, and the two ROMs against each other and against the rows of the alphabet
(30_encoding.md R32, R34, R35, R39, R40). -/

namespace Sys2Proof

/-- Settles O3: the decoder run on each of the fifteen words. -/
theorem wordsWrittenFromTheSpecDecode : Obligations.WordsWrittenFromTheSpecDecode :=
  ⟨rfl, rfl, rfl, rfl, rfl, rfl, rfl, rfl, rfl, rfl, rfl, rfl, rfl, rfl, rfl⟩

/-- The alphabet ROM lists the character of every digit. -/
theorem a2c_mem_alutRom (d : Digit) : a2c d ∈ alutRom :=
  List.mem_of_getElem? (alutRom_getElem? d)

theorem c2d_a2c (d : Digit) : c2d (a2c d) = some d :=
  (c2d_eq_some _ _).mpr (dlut_a2c d)

/-- A code outside the alphabet has the word `INVALID` (R34, R35). -/
theorem dlut_of_notMem_alutRom {c : Byte} (h : c ∉ alutRom) : dlut c = 0xFF := by
  rcases dlut_cases c with hc | ⟨d, -, rfl⟩
  · exact hc
  · exact absurd (a2c_mem_alutRom d) h

theorem decodeChar_of_c2d_eq_none {c : Byte} (h : c2d c = none) : decodeChar c = .invalidChar c := by
  rcases decodeChar_cases c with ⟨d, hd, -⟩ | ⟨-, hc⟩
  · cases h.symm.trans hd
  · exact hc

theorem symIndex?_decodeChar_of_c2d_eq_some {c : Byte} {d : Digit} (h : c2d c = some d) :
    (decodeChar c).symIndex? = some d := by
  rcases decodeChar_cases c with ⟨e, he, hs⟩ | ⟨hc, -⟩
  · rw [hs, ← he, h]
  · cases hc.symm.trans h

theorem length_dlutRom : dlutRom.length = 256 := by
  simp only [dlutRom, List.length_append, List.length_cons, List.length_nil]

/-- The words `INVALID` (R35), counted row by row of the table of R34. -/
theorem length_filter_invalid_dlutRom : (dlutRom.filter (· = 0xFF)).length = 211 := by
  simp only [dlutRom, List.filter_append, List.length_append]
  decide

/-- Settles O9: the sizes and the distinctness by evaluation; the inverses from what `DLUT` and the SYM rows
are at a character of the alphabet and at any other code. -/
theorem tablesAreInverse : Obligations.TablesAreInverse := by
  refine ⟨rfl, by decide, length_dlutRom, length_filter_invalid_dlutRom, fun d => ⟨?_, ?_⟩, fun c hc => ⟨?_, ?_⟩⟩
  · rw [dlutRom_getElem?, dlut_a2c]
  · exact symIndex?_decodeChar_of_c2d_eq_some (c2d_a2c d)
  · rw [dlutRom_getElem?, dlut_of_notMem_alutRom hc]
  · exact decodeChar_of_c2d_eq_none ((c2d_eq_none c).mpr (dlut_of_notMem_alutRom hc))

end Sys2Proof
end

section
/-! The combinational functions of the encoder and the two lookups (40_encoder_ops.md R46, R48; 41_decoder_ops.md
R55). -/

namespace Sys2Proof

/-- Settles O11: both sides have the number `b0*256 + b1`. -/
theorem pack16IsBigEndian : Obligations.Pack16IsBigEndian := by
  intro b0 b1
  refine ⟨pack16_toNat b0 b1, BitVec.eq_of_toNat_eq ?_⟩
  rw [pack16_toNat, BitVec.toNat_append, ← Nat.shiftLeft_add_eq_or_of_lt b1.isLt, Nat.shiftLeft_eq]

theorem a2c_injective : Function.Injective a2c := by
  intro d e h
  have hde : some d = some e := by rw [← c2d_a2c d, h, c2d_a2c]
  exact Option.some.inj hde

/-- A character with a digit is that digit's own character. -/
theorem a2c_of_c2d_eq_some {c : Byte} {d : Digit} (h : c2d c = some d) : a2c d = c := by
  rcases dlut_cases c with hc | ⟨e, -, rfl⟩
  · cases h.symm.trans ((c2d_eq_none c).mpr hc)
  · rw [c2d_a2c] at h
    rw [Option.some.inj h]

/-- The codes with no digit are those outside the alphabet (R34). -/
theorem c2d_eq_none_iff_notMem_alutRom (c : Byte) : c2d c = none ↔ c ∉ alutRom := by
  constructor
  · intro h hc
    obtain ⟨i, hi, rfl⟩ := List.mem_iff_getElem.mp hc
    have hd : a2c ⟨i, hi⟩ = alutRom[i] := (List.getElem_eq_getD 0).symm
    rw [← hd, c2d_a2c] at h
    cases h
  · exact fun h => (c2d_eq_none c).mpr (dlut_of_notMem_alutRom h)

/-- Settles O10: what each ROM holds at an index, and that `C2D` undoes `A2C`. -/
theorem lookupsAreInverse : Obligations.LookupsAreInverse := by
  refine ⟨fun d => ⟨alutRom_getElem? d, c2d_a2c d⟩, fun d e h => a2c_injective h, fun c d => ?_, fun c => ?_,
    c2d_eq_none_iff_notMem_alutRom, fun c d => a2c_of_c2d_eq_some⟩
  · rw [c2d_eq_some, dlutRom_getElem?, Option.some.injEq]
  · rw [c2d_eq_none, dlutRom_getElem?, Option.some.injEq]

/-- The first `k` characters of the alphabet contain every entry below `k`. -/
theorem exists_mem_take_alutRom {n k : Nat} (hk : n < k) (hn : n < 45) :
    ∃ c ∈ alutRom.take k, alutRom[n]? = some c := by
  have hc : alutRom[n]? = some (a2c ⟨n, hn⟩) := alutRom_getElem? ⟨n, hn⟩
  refine ⟨a2c ⟨n, hn⟩, List.mem_of_getElem? (i := n) ?_, hc⟩
  rw [List.getElem?_take_of_lt hk, hc]

end Sys2Proof
end

section
/-! Which of its operations the encoder selects (30_encoding.md R39), the beginning and the end of its transactions
(40_encoder_ops.md R49, R52), and the write of `CTRL` that begins one (30_encoding.md R40). -/

namespace Sys2Proof

theorem decodeAccess_ctrl_write (busy : Bool) (u : UnitId) (data : Nat) :
    decodeAccess busy ⟨descOf u .reg true, 0, data⟩ = decodeRegWrite busy u .ctrl data :=
  decodeAccess_reg_write busy u 0 data

theorem decodeRegWrite_ctrl_not_busy (u : UnitId) {data : Nat} (h : data % 2 = 1) :
    decodeRegWrite false u .ctrl data = startInstr u :=
  if_pos ⟨rfl, h, rfl⟩

theorem decodeRegWrite_busy (u : UnitId) (r : RegNum) (data : Nat) : decodeRegWrite true u r data = .hwrReg u r data :=
  if_neg (by simp)

end Sys2Proof

namespace Sys2Proof.Machine

/-- A unit selects an operation when it is BUSY and the operation is that of its key. -/
theorem State.selects_iff (s : State) (u : UnitId) (i : Instr) : s.Selects u i ↔ s.busy u = true ∧ s.opOf u = i := by
  rw [State.Selects, decodeKey_dispatchKey, Except.ok.injEq]
  refine and_congr_left fun _ => ⟨fun h => ?_, State.seqTurn_of_busy⟩
  by_contra hb
  rw [State.seqTurn_of_not_busy (Bool.eq_false_iff.mpr hb)] at h
  cases h

theorem State.selects_enc_iff (s : State) (i : Instr) :
    s.Selects .enc i ↔ s.enc.state = .busy ∧ encOpOf (s.enc.ilen - s.enc.rp) = i := by
  rw [State.selects_iff, State.busy_enc, beq_iff_eq, State.opOf]

theorem encOpOf_eq_encEnd (n : Nat) : encOpOf n = .encEnd ↔ n = 0 := by
  unfold encOpOf
  split_ifs with h0 <;> simp [h0]

theorem encOpOf_eq_enc2 (n : Nat) : encOpOf n = .enc2 ↔ 2 ≤ n := by
  unfold encOpOf
  split_ifs <;> simp <;> omega

/-- Settles O16: the effect is the update `EncUnit.start`; the descriptor 0001 with index 0 writes `ENC.CTRL`. -/
theorem encStartBeginsATransaction : Obligations.EncStartBeginsATransaction :=
  ⟨fun _ => rfl, fun data h =>
    ⟨(decodeAccess_ctrl_write false .enc data).trans (decodeRegWrite_ctrl_not_busy .enc h),
      (decodeAccess_ctrl_write true .enc data).trans (decodeRegWrite_busy .enc .ctrl data)⟩⟩

/-- Settles O19: ENC.END is the operation of remaining count 0; its effect is the update `EncUnit.finish`, after which
the encoder is not BUSY. -/
theorem encEndPublishesTheResult : Obligations.EncEndPublishesTheResult := by
  refine ⟨fun s => ?_, fun _ => rfl, fun s t h => ?_⟩
  · rw [State.selects_enc_iff, encOpOf_eq_encEnd]
  · cases h
    exact State.seqTurn_of_not_busy rfl

end Sys2Proof.Machine
end

section
/-! The encoding of one full chunk (40_encoder_ops.md R50): the three entries it writes, what `exec` answers, and that
its output has room (43_codec_laws.md R77). -/

namespace Sys2Proof.Machine

/-! ### Buffers -/

@[simp] theorem Memory.writeList_nil (m : Memory) (i : Nat) : m.writeList i [] = m := rfl

/-- A run of entries read from its first entry on. -/
theorem Memory.read_writeList_cons (m : Memory) (i j : Nat) (b : Byte) (bs : List Byte) :
    (m.writeList i (b :: bs)).read j = if j = i then some b else (m.writeList (i + 1) bs).read j := by
  have hw : m.writeList i (b :: bs) = (m.write i b).writeList (i + 1) bs := rfl
  rw [hw, Memory.read_writeList, Memory.read_write, Memory.read_writeList]
  by_cases hj : j = i
  · rw [if_neg (by omega)]
    simp only [if_pos hj]
  · simp only [if_neg hj]

/-! ### Room in the output buffer -/

/-- Every chunk a BUSY encoder has left finds room for its characters: `OBUF` is deep enough for the longest message
(R5, R77). -/
theorem EncUnit.Inv.room {cfg : Config} {e : EncUnit} (h : e.Inv cfg) (hcfg : cfg.Legal = true) (hb : e.state = .busy)
    (hlt : e.rp < e.ilen) : e.wp + (1 + min (e.ilen - e.rp) 2) ≤ cfg.encOcap := by
  have hodd := h.busy_odd hb
  have hwp := h.busy_wp hb
  have hilen := h.ilen_fits
  have hw : 1 ≤ cfg.encLenW := by
    simp only [Config.Legal, Bool.and_eq_true, decide_eq_true_eq] at hcfg
    exact hcfg.1
  have hpow : 2 ^ cfg.encLenW = 2 * 2 ^ (cfg.encLenW - 1) := by rw [← pow_succ', Nat.sub_add_cancel hw]
  rw [hpow] at hilen
  unfold Config.encOcap
  generalize 2 ^ (cfg.encLenW - 1) = p at hilen ⊢
  omega

/-! ### The operation -/

/-- ENC2 with both bytes written and room answers the chunk's value, its digits and its group. -/
theorem exec_enc2_of_written {s : State} {b0 b1 : Byte} (h0 : s.enc.ibuf.read s.enc.rp = some b0)
    (h1 : s.enc.ibuf.read (s.enc.rp + 1) = some b1) (hr : s.enc.wp + 3 ≤ s.cfg.encOcap) :
    exec .enc2 s = .next (s.withEnc ((s.enc.latch3 (pack16 b0 b1) (dig45 (pack16 b0 b1) .ones)
      (dig45 (pack16 b0 b1) .fortyFives) (dig45 (pack16 b0 b1) .twentyTwentyFives)).advance 2 (fullGroup b0 b1))) := by
  have he : exec .enc2 s = execEnc2 s := rfl
  rw [he, execEnc2, State.fetchEntry_of_read (u := .enc) h0, State.fetchEntry_of_read (u := .enc) h1]
  exact State.withRoom_of_le hr _

/-- The three entries of a group, by the value `b0*256 + b1` of its chunk. -/
theorem Memory.read_writeList_fullGroup (m : Memory) (i j : Nat) (b0 b1 : Byte) {v : Nat}
    (hv : (pack16 b0 b1).toNat = v) :
    (m.writeList i (fullGroup b0 b1)).read j =
      if j = i then alutRom[v % 45]?
      else if j = i + 1 then alutRom[v / 45 % 45]?
      else if j = i + 2 then alutRom[v / 2025 % 45]?
      else m.read j := by
  subst hv
  rw [← dig45_ones, ← dig45_fortyFives, ← dig45_twentyTwentyFives]
  simp only [fullGroup, Memory.read_writeList_cons, Memory.writeList_nil, alutRom_getElem?, Nat.add_assoc,
    Nat.reduceAdd]

/-- Settles O17: ENC2 is the operation of a remaining count of at least 2; the digits of the chunk's value select its
characters; the third digit is at most 65535 / 2025 = 32. -/
theorem enc2EncodesOneFullChunk : Obligations.Enc2EncodesOneFullChunk := by
  refine ⟨fun s => ?_, fun s b0 b1 h0 h1 hr => ?_, fun s hinv hsel => ?_, fun v hv => ?_⟩
  · rw [State.selects_enc_iff, encOpOf_eq_enc2]
  · have hv := pack16_toNat b0 b1
    refine ⟨s.enc.obuf.writeList s.enc.wp (fullGroup b0 b1), ?_,
      fun j => Memory.read_writeList_fullGroup _ _ j b0 b1 hv⟩
    rw [exec_enc2_of_written h0 h1 hr, ← hv, BitVec.ofNat_toNat, BitVec.setWidth_eq]
    rfl
  · rw [State.selects_enc_iff, encOpOf_eq_enc2] at hsel
    obtain ⟨hb, hn⟩ := hsel
    have hroom := hinv.enc_inv.room hinv.cfg_legal hb (by omega)
    exact ⟨by omega, by omega⟩
  · have hd : v / 2025 % 45 < 33 := by omega
    exact exists_mem_take_alutRom hd (by omega)

end Sys2Proof.Machine
end

section
/-! `UNPACK16` (41_decoder_ops.md R57), and its bytes of a value of `MAC45` (R61). -/

namespace Sys2Proof

theorem unpack16_fst_toNat (v : Val16) : (unpack16 v).1.toNat = v.toNat / 256 := by
  have hv := v.isLt
  simp only [unpack16, BitVec.toNat_ofNat]
  omega

theorem unpack16_snd_toNat (v : Val16) : (unpack16 v).2.toNat = v.toNat % 256 := by
  simp only [unpack16, BitVec.toNat_ofNat]
  omega

/-- A legal value loses nothing when it is cut to 16 bits (R61). -/
theorem unpack16_truncate_mac45 {d0 d1 d2 : Digit} (h : (mac45 d0 d1 d2).toNat ≤ 65535) :
    unpack16 ((mac45 d0 d1 d2).truncate 16) =
      (BitVec.ofNat 8 ((mac45 d0 d1 d2).toNat / 256), BitVec.ofNat 8 ((mac45 d0 d1 d2).toNat % 256)) := by
  have ht : ((mac45 d0 d1 d2).truncate 16).toNat = (mac45 d0 d1 d2).toNat := by
    rw [BitVec.truncate_eq_setWidth, BitVec.toNat_setWidth]
    omega
  rw [unpack16, ht]

/-- Settles O14: the two fields of the word are its quotient and its remainder by 256, and `PACK16` puts two bytes
together in the same way. -/
theorem unpack16IsBigEndian : Obligations.Unpack16IsBigEndian := by
  refine ⟨fun v => ⟨?_, ?_, Prod.ext (BitVec.eq_of_toNat_eq ?_) (BitVec.eq_of_toNat_eq ?_)⟩,
    fun b0 b1 => Prod.ext (BitVec.eq_of_toNat_eq ?_) (BitVec.eq_of_toNat_eq ?_)⟩
  · exact unpack16_fst_toNat v
  · exact unpack16_snd_toNat v
  · have hv := v.isLt
    rw [unpack16_fst_toNat, BitVec.extractLsb'_toNat, Nat.shiftRight_eq_div_pow]
    omega
  · rw [unpack16_snd_toNat, BitVec.extractLsb'_toNat, Nat.shiftRight_zero]
  · have h1 := b1.isLt
    rw [unpack16_fst_toNat, pack16_toNat]
    dsimp only
    omega
  · have h1 := b1.isLt
    rw [unpack16_snd_toNat, pack16_toNat]
    dsimp only
    omega

end Sys2Proof
end

section
/-! Which of its operations the decoder selects (30_encoding.md R39), the beginning and the end of its transactions, its
failure (41_decoder_ops.md R58, R64, R65), and the two operations of the scan phase (R59, R60). -/

namespace Sys2Proof

/-- The word `INVALID` is what `C2D` rejects (R35, R55). -/
theorem dlutRom_getElem?_eq_invalid (c : Byte) : dlutRom[c.toNat]? = some 0xFF ↔ c2d c = none := by
  rw [dlutRom_getElem?, Option.some.injEq, c2d_eq_none]

end Sys2Proof

namespace Sys2Proof.Machine

/-! ### Selection -/

theorem State.selects_dec_iff (s : State) (i : Instr) :
    s.Selects .dec i ↔ s.dec.state = .busy ∧ decOpOf s.dec.phase (s.dec.ilen - s.dec.rp) = i := by
  rw [State.selects_iff, State.busy_dec, beq_iff_eq, State.opOf]

theorem decOpOf_scan (n : Nat) : decOpOf .scan n = if n = 0 then .decLenchk else .decScan := rfl

theorem decOpOf_group (n : Nat) :
    decOpOf .group n = if n = 0 then .decEnd else if n = 1 then .decBadrem else if n = 2 then .dec2 else .dec3 := rfl

theorem decOpOf_eq_decScan (p : Phase) (n : Nat) : decOpOf p n = .decScan ↔ p = .scan ∧ 1 ≤ n := by
  cases p
  · rw [decOpOf_scan]
    split_ifs <;> simp <;> omega
  · rw [decOpOf_group]
    split_ifs <;> simp

theorem decOpOf_eq_decLenchk (p : Phase) (n : Nat) : decOpOf p n = .decLenchk ↔ p = .scan ∧ n = 0 := by
  cases p
  · rw [decOpOf_scan]
    split_ifs with h0 <;> simp [h0]
  · rw [decOpOf_group]
    split_ifs <;> simp

theorem decOpOf_eq_decEnd (p : Phase) (n : Nat) : decOpOf p n = .decEnd ↔ p = .group ∧ n = 0 := by
  cases p
  · rw [decOpOf_scan]
    split_ifs <;> simp
  · rw [decOpOf_group]
    split_ifs with h0 <;> simp [h0]

theorem decOpOf_eq_decBadrem (p : Phase) (n : Nat) : decOpOf p n = .decBadrem ↔ p = .group ∧ n = 1 := by
  cases p
  · rw [decOpOf_scan]
    split_ifs <;> simp
  · rw [decOpOf_group]
    split_ifs <;> simp <;> omega

theorem decOpOf_eq_dec3 (p : Phase) (n : Nat) : decOpOf p n = .dec3 ↔ p = .group ∧ 3 ≤ n := by
  cases p
  · rw [decOpOf_scan]
    split_ifs <;> simp
  · rw [decOpOf_group]
    split_ifs <;> simp <;> omega

/-! ### The beginning, the end, the failure -/

/-- Settles O20: the effect is the update `DecUnit.start`; the descriptor 1001 with index 0 writes `DEC.CTRL`. -/
theorem decStartBeginsATransaction : Obligations.DecStartBeginsATransaction :=
  ⟨fun _ => rfl, fun data h =>
    ⟨(decodeAccess_ctrl_write false .dec data).trans (decodeRegWrite_ctrl_not_busy .dec h),
      (decodeAccess_ctrl_write true .dec data).trans (decodeRegWrite_busy .dec .ctrl data)⟩⟩

/-- Settles O21: the effect is the update `DecUnit.fail`, after which the decoder is not BUSY. -/
theorem decFailRecordsTheCauseOnly : Obligations.DecFailRecordsTheCauseOnly :=
  fun _ _ => ⟨rfl, rfl, State.seqTurn_of_not_busy rfl⟩

/-- Settles O27: DEC.END is the operation of remaining count 0 in the group phase; its effect is the update
`DecUnit.finish`. -/
theorem decEndPublishesTheResult : Obligations.DecEndPublishesTheResult := by
  refine ⟨fun s => ?_, fun _ => rfl⟩
  rw [State.selects_dec_iff, decOpOf_eq_decEnd]

/-! ### The scan phase -/

/-- DEC.SCAN with the character written answers the check of that character. -/
theorem exec_decScan_of_written {s : State} {c : Byte} (h : s.dec.ibuf.read s.dec.rp = some c) :
    exec .decScan s = .next (s.scanChar (c2d c)) :=
  State.fetchEntry_of_read (u := .dec) h _

/-- DEC.LENCHK fails or turns to the group phase. -/
theorem exec_decLenchk (s : State) :
    exec .decLenchk s =
      .next (if s.dec.ilen % 3 = 1 then s.decFail .length else s.withDec s.dec.toGroup) := rfl

/-- Settles O22: DEC.SCAN is the operation of a remaining count that is not 0 in the scan phase; the check fails on the
word `INVALID` and passes on a digit. -/
theorem decScanChecksOneCharacter : Obligations.DecScanChecksOneCharacter := by
  refine ⟨fun s => ?_, fun s c hc => ⟨fun hw => ?_, fun hw => ?_⟩⟩
  · rw [State.selects_dec_iff, decOpOf_eq_decScan]
  · rw [dlutRom_getElem?_eq_invalid] at hw
    rw [exec_decScan_of_written hc, hw]
    rfl
  · rw [ne_eq, dlutRom_getElem?_eq_invalid] at hw
    obtain ⟨d, hd⟩ := Option.ne_none_iff_exists'.mp hw
    rw [exec_decScan_of_written hc, hd]
    rfl

/-- Settles O23: DEC.LENCHK is the operation of remaining count 0 in the scan phase; its two outcomes are the updates
`DecUnit.fail` and `DecUnit.toGroup`. -/
theorem decLenchkChecksTheLength : Obligations.DecLenchkChecksTheLength := by
  refine ⟨fun s => ?_, fun s => ⟨fun h => ?_, fun h => ?_⟩⟩
  · rw [State.selects_dec_iff, decOpOf_eq_decLenchk]
  · rw [exec_decLenchk, if_pos h]
    rfl
  · rw [exec_decLenchk, if_neg h]
    rfl

end Sys2Proof.Machine
end

section
/-! The group phase (41_decoder_ops.md R61, R63): what the invariant says of the groups still to come, the decoding of
one full group, and the remainder that no message leaves. -/

namespace Sys2Proof.Machine

/-! ### The groups still to come -/

/-- A BUSY decoder with characters left stands at the beginning of a group (R15). -/
theorem DecUnit.Inv.rp_mod_three {cfg : Config} {d : DecUnit} (h : d.Inv cfg) (hb : d.state = .busy)
    (hp : d.phase = .group) (hlt : d.rp < d.ilen) : d.rp % 3 = 0 := by
  by_contra hne
  have hend : d.rp = d.ilen := (h.group_rp hb hp hne).2
  omega

/-- Every group a BUSY decoder has left finds room for its bytes: `OBUF` is deep enough for the longest message
(R5, R77). -/
theorem DecUnit.Inv.room {cfg : Config} {d : DecUnit} (h : d.Inv cfg) (hb : d.state = .busy) (hp : d.phase = .group)
    (hlt : d.rp < d.ilen) : d.wp + (min (d.ilen - d.rp) 3 - 1) ≤ cfg.decOcap := by
  have hrp := h.rp_mod_three hb hp hlt
  have hwp := h.group_wp hb hp
  have hilen := h.ilen_fits
  unfold Config.decOcap
  generalize 2 ^ cfg.decLenW = p at hilen ⊢
  omega

/-- The groups still to come never leave a single character (R60, R63). -/
theorem DecUnit.Inv.remaining_ne_one {cfg : Config} {d : DecUnit} (h : d.Inv cfg) (hb : d.state = .busy)
    (hp : d.phase = .group) : d.ilen - d.rp ≠ 1 := by
  intro h1
  have hrp := h.rp_mod_three hb hp (by omega)
  have hlen := h.group_len hb hp
  omega

theorem State.selects_decBadrem_iff (s : State) :
    s.Selects .dec .decBadrem ↔ s.dec.state = .busy ∧ s.dec.phase = .group ∧ s.dec.ilen - s.dec.rp = 1 := by
  rw [State.selects_dec_iff, decOpOf_eq_decBadrem]

/-- Settles O26: DEC.BADREM is the operation of remaining count 1 in the group phase; its effect is the update
`DecUnit.fail`; the checked length leaves no single character. -/
theorem decBadremFailsAndIsUnreachable : Obligations.DecBadremFailsAndIsUnreachable := by
  refine ⟨State.selects_decBadrem_iff, fun _ => rfl, fun s hinv h => ?_⟩
  obtain ⟨hb, hp, h1⟩ := s.selects_decBadrem_iff.mp h
  exact hinv.dec_inv.remaining_ne_one hb hp h1

/-! ### One full group -/

theorem State.selects_dec3_iff (s : State) :
    s.Selects .dec .dec3 ↔ s.dec.state = .busy ∧ s.dec.phase = .group ∧ 3 ≤ s.dec.ilen - s.dec.rp := by
  rw [State.selects_dec_iff, decOpOf_eq_dec3]

/-- DEC3 with three digits written: the value above 65535 fails, a legal one gives two bytes if there is room. -/
theorem exec_dec3_of_digits {s : State} {c0 c1 c2 : Byte} {d0 d1 d2 : Digit}
    (r0 : s.dec.ibuf.read s.dec.rp = some c0) (r1 : s.dec.ibuf.read (s.dec.rp + 1) = some c1)
    (r2 : s.dec.ibuf.read (s.dec.rp + 2) = some c2) (h0 : c2d c0 = some d0) (h1 : c2d c1 = some d1)
    (h2 : c2d c2 = some d2) :
    exec .dec3 s =
      if 65535 < (mac45 d0 d1 d2).toNat then
        .next ((s.withDec (s.dec.latch3 (mac45 d0 d1 d2) d0 d1 d2)).decFail .range16)
      else
        s.withRoom .dec 2 (.next (s.withDec ((s.dec.latch3 (mac45 d0 d1 d2) d0 d1 d2).advance 3
          [(unpack16 ((mac45 d0 d1 d2).truncate 16)).1, (unpack16 ((mac45 d0 d1 d2).truncate 16)).2]))) := by
  have he : exec .dec3 s = execDec3 s := rfl
  rw [he, execDec3, State.fetchEntry_of_read (u := .dec) r0, State.fetchEntry_of_read (u := .dec) r1,
    State.fetchEntry_of_read (u := .dec) r2, withGroupDigit_of_digit h0, withGroupDigit_of_digit h1,
    withGroupDigit_of_digit h2]

/-- Two entries written one after the other, read back. -/
theorem Memory.read_writeList_pair (m : Memory) (i j : Nat) (b0 b1 : Byte) :
    (m.writeList i [b0, b1]).read j = if j = i then some b0 else if j = i + 1 then some b1 else m.read j := by
  rw [Memory.read_writeList_cons, Memory.read_writeList_cons, Memory.writeList_nil]

/-- Settles O24: DEC3 is the operation of a remaining count of at least 3 in the group phase; the value is exact, and a
legal one keeps its two bytes in 16 bits; the invariant gives the digits and the room. -/
theorem dec3DecodesOneFullGroup : Obligations.Dec3DecodesOneFullGroup := by
  refine ⟨State.selects_dec3_iff, fun s c0 c1 c2 d0 d1 d2 r0 r1 r2 h0 h1 h2 => ?_, fun s hinv h => ?_⟩
  · have hv := mac45_toNat d0 d1 d2
    rw [exec_dec3_of_digits r0 r1 r2 h0 h1 h2, ← hv]
    refine ⟨fun hlt => ?_, fun hle hr => ⟨s.dec.obuf.writeList s.dec.wp
      [BitVec.ofNat 8 ((mac45 d0 d1 d2).toNat / 256), BitVec.ofNat 8 ((mac45 d0 d1 d2).toNat % 256)], ?_,
      fun j => Memory.read_writeList_pair _ _ j _ _⟩⟩
    · rw [if_pos hlt, BitVec.ofNat_toNat, BitVec.setWidth_eq]
      rfl
    · rw [if_neg (by omega), State.withRoom_of_le (u := .dec) hr, unpack16_truncate_mac45 hle, BitVec.ofNat_toNat,
        BitVec.setWidth_eq]
      rfl
  · obtain ⟨hb, hp, h3⟩ := s.selects_dec3_iff.mp h
    have hroom := hinv.dec_inv.room hb hp (by omega)
    exact ⟨by omega, fun k hk => hinv.dec_inv.group_digits hb hp _ (by omega)⟩

end Sys2Proof.Machine
end

section
/-! The result of a transaction at the host port (42_host_transactions.md R72): what a read of an output buffer returns,
and that in DONE every entry below `OLEN` is there to be read. -/

namespace Sys2Proof.Machine

/-! ### What the invariant says of the result -/

/-- In DONE every entry of the result is stored. -/
theorem State.Inv.result_stored {s : State} {u : UnitId} (h : s.Inv) (hd : s.done u = true) :
    (s.obuf u).FilledBelow (s.olen u) := by
  cases u
  · exact h.enc_inv.done_out (beq_iff_eq.mp hd)
  · exact h.dec_inv.done_out (beq_iff_eq.mp hd)

/-- Outside DONE a unit has no result: `OLEN` is 0 (R12, R13). -/
theorem State.Inv.olen_eq_zero {s : State} {u : UnitId} (h : s.Inv) (hd : s.done u = false) : s.olen u = 0 := by
  cases u
  · exact h.enc_inv.olen_zero (beq_eq_false_iff_ne.mp hd)
  · exact h.dec_inv.olen_zero (beq_eq_false_iff_ne.mp hd)

/-! ### The read of an output buffer -/

theorem exec_hrdObuf_of_stored {s : State} {u : UnitId} {j : Nat} {b : Byte} (hd : s.done u = true)
    (hj : j < s.olen u) (hb : (s.obuf u).read j = some b) :
    exec (.hrdObuf u j) s = .next (s.withRdata b.toNat) := by
  have he : exec (.hrdObuf u j) s = execHrdObuf u j s := rfl
  rw [he, execHrdObuf, if_pos ⟨hd, hj⟩, hb]

/-- Outside the result the read is a draw. -/
theorem exec_hrdObuf_of_no_result {s : State} {u : UnitId} {j : Nat} (h : s.done u = false ∨ s.olen u ≤ j) :
    exec (.hrdObuf u j) s = .next s.drawRdata := by
  have hn : ¬ (s.done u = true ∧ j < s.olen u) := by
    rintro ⟨hd, hj⟩
    rcases h with h | h
    · cases h.symm.trans hd
    · omega
  exact congrArg Host.Outcome.next (if_neg hn)

/-- Settles O34: a stored entry of the result is returned; any other read is a draw, a word of the port's width. -/
theorem hrdObufReturnsResultOrDraw : Obligations.HrdObufReturnsResultOrDraw := by
  intro s u j
  exact ⟨fun hd hj b hb => exec_hrdObuf_of_stored hd hj hb,
    fun h => ⟨s.drawRdata.hrdata, s.drawRdata_lt, exec_hrdObuf_of_no_result h⟩⟩

/-- Settles O35: the invariant stores the whole result, and a stored entry of it is returned. -/
theorem doneResultIsReadable : Obligations.DoneResultIsReadable := by
  intro s u j hinv hd hj
  obtain ⟨b, hb⟩ := Option.isSome_iff_exists.mp (hinv.result_stored hd j hj)
  exact ⟨b, hb, exec_hrdObuf_of_stored hd hj hb⟩

end Sys2Proof.Machine
end

section
/-! The host-visible registers (42_host_transactions.md R69, R70): the number of the STATUS word, and the writes that
take effect. -/

namespace Sys2Proof.Machine

/-! ### Reads -/

/-- `ENC.CAUSE` reads 0, so the word is the code of `STATE` (R70). -/
theorem State.statusWord_enc_toNat (s : State) : (s.statusWord .enc).toNat = s.enc.state.code.toNat := by
  rw [State.statusWord, BitVec.toNat_append, BitVec.ofNat_eq_ofNat, BitVec.toNat_zero, Nat.zero_shiftLeft,
    Nat.zero_or]

/-- `{CAUSE, STATE}`: `STATE` is two bits wide (R70). -/
theorem State.statusWord_dec_toNat (s : State) :
    (s.statusWord .dec).toNat = 4 * s.dec.cause.code.toNat + s.dec.state.code.toNat := by
  rw [State.statusWord, BitVec.toNat_append, ← Nat.shiftLeft_add_eq_or_of_lt s.dec.state.code.isLt, Nat.shiftLeft_eq]
  omega

theorem exec_hrdReg_status (u : UnitId) (s : State) :
    exec (.hrdReg u .status) s = .next (s.withRdata (s.statusWord u).toNat) := rfl

theorem exec_hrdReg_olen (u : UnitId) (s : State) : exec (.hrdReg u .olen) s = .next (s.withRdata (s.olen u)) := rfl

/-- Settles O31: each register's value by definition, the STATUS word as a number; outside DONE the invariant has
`OLEN` 0. -/
theorem hrdRegReturnsTheRegister : Obligations.HrdRegReturnsTheRegister := by
  intro s
  refine ⟨fun _ => rfl, ?_, ?_, rfl, rfl, rfl, rfl, fun u hinv hd => ?_⟩
  · rw [exec_hrdReg_status, s.statusWord_enc_toNat]
    rfl
  · rw [exec_hrdReg_status, s.statusWord_dec_toNat]
    rfl
  · rw [exec_hrdReg_olen, hinv.olen_eq_zero hd]
    rfl

/-! ### Writes -/

theorem State.busy_enc_eq_false_iff (s : State) : s.busy .enc = false ↔ s.enc.state ≠ .busy := beq_eq_false_iff_ne

theorem State.busy_dec_eq_false_iff (s : State) : s.busy .dec = false ↔ s.dec.state ≠ .busy := beq_eq_false_iff_ne

/-- While BUSY no register is written (R69). -/
theorem exec_hwrReg_of_busy {s : State} {u : UnitId} (hb : s.busy u = true) (r : RegNum) (v : Nat) :
    exec (.hwrReg u r v) s = .next s := by
  cases r
  case ctrl => exact congrArg Host.Outcome.next (if_neg (by simp [hb]))
  case status => rfl
  case ilen => exact congrArg Host.Outcome.next (if_pos hb)
  case olen => rfl

theorem exec_hwrReg_ctrl_of_even {v : Nat} (hv : v % 2 = 0) (u : UnitId) (s : State) :
    exec (.hwrReg u .ctrl v) s = .next s :=
  congrArg Host.Outcome.next (if_neg (by omega))

theorem exec_hwrReg_ctrl_of_odd {s : State} {u : UnitId} {v : Nat} (hb : s.busy u = false) (hv : v % 2 = 1) :
    exec (.hwrReg u .ctrl v) s = .next (s.start u) :=
  congrArg Host.Outcome.next (if_pos ⟨hv, hb⟩)

theorem exec_hwrReg_ilen_of_not_busy {s : State} {u : UnitId} (hb : s.busy u = false) (v : Nat) :
    exec (.hwrReg u .ilen v) s = .next (s.writeIlen u v) :=
  congrArg Host.Outcome.next (if_neg (by simp [hb]))

/-- Settles O32: the effects are the updates `State.start` and `State.writeIlen`, written out at each unit. -/
theorem hwrRegWritesTheRegister : Obligations.HwrRegWritesTheRegister := by
  intro s v
  exact ⟨fun _ => ⟨rfl, rfl⟩, fun _ r hb => exec_hwrReg_of_busy hb r v,
    fun u hv => exec_hwrReg_ctrl_of_even hv u s,
    fun he => exec_hwrReg_ctrl_of_odd (s.busy_enc_eq_false_iff.mpr he),
    fun hd => exec_hwrReg_ctrl_of_odd (s.busy_dec_eq_false_iff.mpr hd),
    fun he => exec_hwrReg_ilen_of_not_busy (s.busy_enc_eq_false_iff.mpr he) v,
    fun hd => exec_hwrReg_ilen_of_not_busy (s.busy_dec_eq_false_iff.mpr hd) v⟩

end Sys2Proof.Machine
end

section
/-! The write of one input entry (42_host_transactions.md R71). -/

namespace Sys2Proof.Machine

/-- An index in range is kept, the data is cut to its low 8 bits (R71). -/
theorem Memory.read_write_cut (m : Memory) {i n : Nat} (hi : i < n) (v j : Nat) :
    (m.write (i % n) (BitVec.ofNat 8 v)).read j = if j = i then some (BitVec.ofNat 8 (v % 256)) else m.read j := by
  have hv : BitVec.ofNat 8 (v % 256) = BitVec.ofNat 8 v := BitVec.eq_of_toNat_eq (Nat.mod_mod v 256)
  rw [Memory.read_write, Nat.mod_eq_of_lt hi, hv]

theorem exec_hwrIbuf_of_busy {s : State} {u : UnitId} (hb : s.busy u = true) (i v : Nat) :
    exec (.hwrIbuf u i v) s = .next s :=
  congrArg Host.Outcome.next (if_pos hb)

theorem exec_hwrIbuf_of_not_busy {s : State} {u : UnitId} (hb : s.busy u = false) (i v : Nat) :
    exec (.hwrIbuf u i v) s = .next (s.writeIbuf u i v) :=
  congrArg Host.Outcome.next (if_neg (by simp [hb]))

/-- Settles O33: the effect is the update `State.writeIbuf`, whose buffer is read back. -/
theorem hwrIbufWritesOneEntry : Obligations.HwrIbufWritesOneEntry := by
  intro s i v
  exact ⟨fun _ hb => exec_hwrIbuf_of_busy hb i v,
    fun he hi => ⟨s.enc.ibuf.write (i % 2 ^ s.cfg.encLenW) (BitVec.ofNat 8 v),
      exec_hwrIbuf_of_not_busy (s.busy_enc_eq_false_iff.mpr he) i v, s.enc.ibuf.read_write_cut hi v⟩,
    fun hd hi => ⟨s.dec.ibuf.write (i % 2 ^ s.cfg.decLenW) (BitVec.ofNat 8 v),
      exec_hwrIbuf_of_not_busy (s.busy_dec_eq_false_iff.mpr hd) i v, s.dec.ibuf.read_write_cut hi v⟩⟩

end Sys2Proof.Machine
end

section
/-! The illegal accesses (30_encoding.md R43; 42_host_transactions.md R73): which descriptors they have, their decoding
to HILL, and its effect. -/

namespace Sys2Proof

/-- The four descriptors of each unit that no legal access has: an `IBUF` read, an `OBUF` write, the reserved space
(R40). -/
theorem descOf_mem_illegal_iff (u : UnitId) (sp : Space) (we : Bool) :
    descOf u sp we ∈ [0b0010, 0b0101, 0b0110, 0b0111, 0b1010, 0b1101, 0b1110, 0b1111] ↔
      sp = .ibuf ∧ we = false ∨ sp = .obuf ∧ we = true ∨ sp = .reserved := by
  cases u <;> cases sp <;> cases we <;> decide

theorem descOf_mem_reg_iff (u : UnitId) (sp : Space) (we : Bool) :
    descOf u sp we ∈ [0b0000, 0b0001, 0b1000, 0b1001] ↔ sp = .reg := by
  cases u <;> cases sp <;> cases we <;> decide

/-- An access is its three descriptor fields, its index and its data. -/
theorem HostAccess.eq_mk_descOf (a : HostAccess) : a = ⟨descOf a.unit a.space a.we, a.index, a.data⟩ := by
  rw [← eq_descOf]

/-- What no legal row covers decodes to HILL, of a kind of the access's direction (R43). -/
theorem exists_decodeAccess_eq_hill {u : UnitId} {sp : Space} {we : Bool} {i : Nat} (busy : Bool) (d : Nat)
    (h : (sp = .ibuf ∧ we = false ∨ sp = .obuf ∧ we = true ∨ sp = .reserved) ∨ sp = .reg ∧ 3 < i) :
    ∃ k d', decodeAccess busy ⟨descOf u sp we, i, d⟩ = .hill u k i d' ∧ k.isRead = !we := by
  rcases h with (⟨rfl, rfl⟩ | ⟨rfl, rfl⟩ | rfl) | ⟨rfl, hi⟩
  · exact ⟨.ibufRead, 0, decodeAccess_ibuf_read busy u i d, rfl⟩
  · exact ⟨.obufWrite, d, decodeAccess_obuf_write busy u i d, rfl⟩
  · cases we
    · exact ⟨.reservedRead, 0, decodeAccess_reserved_read busy u i d, rfl⟩
    · exact ⟨.reservedWrite, d, decodeAccess_reserved_write busy u i d, rfl⟩
  · have hn : RegNum.ofIndex? i = none := RegNum.ofIndex?_eq_none.mpr hi
    cases we
    · exact ⟨.regRead, 0, by rw [decodeAccess_reg_read, hn], rfl⟩
    · exact ⟨.regWrite, d, by rw [decodeAccess_reg_write, hn], rfl⟩

end Sys2Proof

namespace Sys2Proof.Machine

theorem exec_hill_of_write {k : IllegalKind} (hk : k.isRead = false) (u : UnitId) (i v : Nat) (s : State) :
    exec (.hill u k i v) s = .next s :=
  congrArg Host.Outcome.next (if_neg (by simp [hk]))

theorem exec_hill_of_read {k : IllegalKind} (hk : k.isRead = true) (u : UnitId) (i v : Nat) (s : State) :
    exec (.hill u k i v) s = .next s.drawRdata :=
  congrArg Host.Outcome.next (if_pos hk)

/-- Settles O36: the illegal accesses by their descriptor fields; the effect by the direction of the kind. -/
theorem hillChangesNothing : Obligations.HillChangesNothing := by
  intro s u i v
  refine ⟨fun busy a h => ?_, fun k hk => ?_, fun k hk => ?_⟩
  · rw [eq_descOf a, descOf_mem_illegal_iff, descOf_mem_reg_iff] at h
    have hill := exists_decodeAccess_eq_hill (u := a.unit) busy a.data h
    rwa [← a.eq_mk_descOf] at hill
  · have hw : k.isRead = false := by
      revert k
      decide
    exact exec_hill_of_write hw u i v s
  · have hr : k.isRead = true := by
      revert k
      decide
    exact ⟨s.drawRdata.hrdata, s.drawRdata_lt, exec_hill_of_read hr u i v s⟩

end Sys2Proof.Machine
end

section
/-! The positional value of a group (40_encoder_ops.md R47, 41_decoder_ops.md R56): the digits of a value rebuild it,
and digits that sum to a value are its digits. -/

namespace Sys2Proof

/-- The three digits of a 16-bit value rebuild it. -/
theorem mac45_dig45_toNat (v : Val16) :
    (mac45 (dig45 v .ones) (dig45 v .fortyFives) (dig45 v .twentyTwentyFives)).toNat = v.toNat := by
  have hv := v.isLt
  rw [mac45_toNat, dig45_ones, dig45_fortyFives, dig45_twentyTwentyFives]
  omega

/-- A byte needs only the two lower digits. -/
theorem mac45_dig45_byte_toNat (b : Byte) :
    (mac45 (dig45 (b.zeroExtend 16) .ones) (dig45 (b.zeroExtend 16) .fortyFives) 0).toNat = b.toNat := by
  have hb := b.isLt
  have h0 : (0 : Digit).val = 0 := rfl
  rw [mac45_toNat, dig45_ones, dig45_fortyFives, h0, BitVec.toNat_setWidth]
  omega

/-- Base 45 is positional: three digits that sum to a value are that value's digits. -/
theorem dig45_of_toNat_eq {v : Val16} {d0 d1 d2 : Digit} (h : v.toNat = d0.val + 45 * d1.val + 2025 * d2.val) :
    dig45 v .ones = d0 ∧ dig45 v .fortyFives = d1 ∧ dig45 v .twentyTwentyFives = d2 := by
  have h0 := d0.isLt
  have h1 := d1.isLt
  have h2 := d2.isLt
  refine ⟨Fin.ext ?_, Fin.ext ?_, Fin.ext ?_⟩
  · rw [dig45_ones]
    omega
  · rw [dig45_fortyFives]
    omega
  · rw [dig45_twentyTwentyFives]
    omega

/-- `PACK16` undoes `UNPACK16`. -/
theorem pack16_unpack16 (v : Val16) : pack16 (unpack16 v).1 (unpack16 v).2 = v := by
  apply BitVec.eq_of_toNat_eq
  rw [pack16_toNat, unpack16_fst_toNat, unpack16_snd_toNat]
  omega

end Sys2Proof
end

section
/-! `DECODE` undoes `ENCODE` and accepts nothing else (43_codec_laws.md R83): a text is a sequence of digits, and the
digits of a payload are the only ones that decode to it. -/

namespace Sys2Proof.Machine

/-! ### The digits of a payload -/

/-- The digits `ENCODE` computes, before the alphabet lookup (R53). -/
def payloadDigits : List Byte → List Digit
  | b0 :: b1 :: rest =>
    dig45 (pack16 b0 b1) .ones :: dig45 (pack16 b0 b1) .fortyFives :: dig45 (pack16 b0 b1) .twentyTwentyFives ::
      payloadDigits rest
  | [b] => [dig45 (b.zeroExtend 16) .ones, dig45 (b.zeroExtend 16) .fortyFives]
  | [] => []

theorem map_a2c_payloadDigits : (p : List Byte) → (payloadDigits p).map a2c = encodeBytes p
  | [] => rfl
  | [_] => rfl
  | b0 :: b1 :: rest => congrArg (fullGroup b0 b1 ++ ·) (map_a2c_payloadDigits rest)

theorem length_encodeBytes : (p : List Byte) → (encodeBytes p).length = 3 * (p.length / 2) + 2 * (p.length % 2)
  | [] => rfl
  | [b] => by rw [encodeBytes_singleton, tailGroup_length, List.length_singleton]
  | b0 :: b1 :: rest => by
    rw [encodeBytes_cons_cons, List.length_append, fullGroup_length, length_encodeBytes rest, List.length_cons,
      List.length_cons]
    omega

/-- No text has a length of remainder 1 (R80). -/
theorem length_encodeBytes_mod_three_ne_one (p : List Byte) : (encodeBytes p).length % 3 ≠ 1 := by
  rw [length_encodeBytes]
  omega

/-! ### One group of digits -/

/-- The digits of a chunk decode to its two bytes. -/
theorem decodeDigits_chunk (b0 b1 : Byte) {ds : List Digit} {p : List Byte} (h : decodeDigits ds = .ok p) :
    decodeDigits (dig45 (pack16 b0 b1) .ones :: dig45 (pack16 b0 b1) .fortyFives ::
      dig45 (pack16 b0 b1) .twentyTwentyFives :: ds) = .ok (b0 :: b1 :: p) := by
  have hv := mac45_dig45_toNat (pack16 b0 b1)
  have hlt := (pack16 b0 b1).isLt
  have ht : (mac45 (dig45 (pack16 b0 b1) .ones) (dig45 (pack16 b0 b1) .fortyFives)
      (dig45 (pack16 b0 b1) .twentyTwentyFives)).truncate 16 = pack16 b0 b1 := by
    apply BitVec.eq_of_toNat_eq
    rw [BitVec.truncate_eq_setWidth, BitVec.toNat_setWidth, hv]
    omega
  rw [decodeDigits, if_neg (by omega), h, ht, unpack16IsBigEndian.2]

/-- The two digits of a tail byte decode to it. -/
theorem decodeDigits_tail (b : Byte) :
    decodeDigits [dig45 (b.zeroExtend 16) .ones, dig45 (b.zeroExtend 16) .fortyFives] = .ok [b] := by
  have hv := mac45_dig45_byte_toNat b
  have hlt := b.isLt
  have ht : (mac45 (dig45 (b.zeroExtend 16) .ones) (dig45 (b.zeroExtend 16) .fortyFives) 0).truncate 8 = b := by
    apply BitVec.eq_of_toNat_eq
    rw [BitVec.truncate_eq_setWidth, BitVec.toNat_setWidth, hv]
    omega
  rw [decodeDigits, if_neg (by omega), ht]

/-- A full group that decodes holds the digits of the chunk it decodes to. -/
theorem decodeDigits_full_eq_ok {d0 d1 d2 : Digit} {ds : List Digit} {p : List Byte}
    (h : decodeDigits (d0 :: d1 :: d2 :: ds) = .ok p) :
    ∃ b0 b1 q, p = b0 :: b1 :: q ∧ decodeDigits ds = .ok q ∧ dig45 (pack16 b0 b1) .ones = d0 ∧
      dig45 (pack16 b0 b1) .fortyFives = d1 ∧ dig45 (pack16 b0 b1) .twentyTwentyFives = d2 := by
  rw [decodeDigits] at h
  split_ifs at h with hr
  have hv : ((mac45 d0 d1 d2).truncate 16).toNat = d0.val + 45 * d1.val + 2025 * d2.val := by
    rw [BitVec.truncate_eq_setWidth, BitVec.toNat_setWidth, ← mac45_toNat]
    omega
  cases hq : decodeDigits ds with
  | error c =>
    rw [hq] at h
    cases h
  | ok q =>
    rw [hq] at h
    cases h
    refine ⟨_, _, q, rfl, rfl, ?_⟩
    rw [pack16_unpack16]
    exact dig45_of_toNat_eq hv

/-- A tail group that decodes holds the digits of the byte it decodes to. -/
theorem decodeDigits_tail_eq_ok {d0 d1 : Digit} {p : List Byte} (h : decodeDigits [d0, d1] = .ok p) :
    ∃ b : Byte, p = [b] ∧ dig45 (b.zeroExtend 16) .ones = d0 ∧ dig45 (b.zeroExtend 16) .fortyFives = d1 := by
  rw [decodeDigits] at h
  split_ifs at h with hr
  cases h
  have hv : (((mac45 d0 d1 0).truncate 8).zeroExtend 16).toNat = d0.val + 45 * d1.val + 2025 * (0 : Digit).val := by
    simp only [BitVec.truncate_eq_setWidth, BitVec.toNat_setWidth, ← mac45_toNat]
    omega
  obtain ⟨h0, h1, -⟩ := dig45_of_toNat_eq hv
  exact ⟨_, rfl, h0, h1⟩

/-! ### Whole messages -/

theorem decodeDigits_payloadDigits : (p : List Byte) → decodeDigits (payloadDigits p) = .ok p
  | [] => rfl
  | [b] => decodeDigits_tail b
  | b0 :: b1 :: rest => decodeDigits_chunk b0 b1 (decodeDigits_payloadDigits rest)

theorem eq_payloadDigits_of_decodeDigits : (ds : List Digit) → (p : List Byte) → decodeDigits ds = .ok p →
    ds = payloadDigits p
  | [], p, h => by
    cases h
    rfl
  | [_], _, h => by cases h
  | [_, _], p, h => by
    obtain ⟨b, rfl, rfl, rfl⟩ := decodeDigits_tail_eq_ok h
    rfl
  | d0 :: d1 :: d2 :: ds, p, h => by
    obtain ⟨b0, b1, q, rfl, hq, rfl, rfl, rfl⟩ := decodeDigits_full_eq_ok h
    rw [payloadDigits, eq_payloadDigits_of_decodeDigits ds q hq]

/-- A text passes the check of its characters exactly when it is a sequence of digits written in the alphabet. -/
theorem mapM_c2d_eq_some_iff (t : List Byte) (ds : List Digit) : t.mapM c2d = some ds ↔ t = ds.map a2c := by
  constructor
  · intro h
    induction t generalizing ds with
    | nil =>
      cases h
      rfl
    | cons c t ih =>
      simp only [List.mapM_cons, Option.bind_eq_bind, Option.bind_eq_some_iff, Option.pure_def, Option.some.injEq] at h
      obtain ⟨d, hd, es, hes, rfl⟩ := h
      rw [List.map_cons, a2c_of_c2d_eq_some hd, ← ih es hes]
  · rintro rfl
    induction ds with
    | nil => rfl
    | cons d ds ih => simp [ih, c2d_a2c]

/-- `DECODE` answers a payload exactly on that payload's text. -/
theorem decodeText_eq_ok_iff (t p : List Byte) : decodeText t = .ok p ↔ t = encodeBytes p := by
  constructor
  · intro h
    unfold decodeText at h
    split at h
    · cases h
    · rename_i ds hds
      split_ifs at h
      rw [(mapM_c2d_eq_some_iff t ds).mp hds, eq_payloadDigits_of_decodeDigits ds p h, map_a2c_payloadDigits]
  · rintro rfl
    have hds := (mapM_c2d_eq_some_iff _ _).mpr (map_a2c_payloadDigits p).symm
    simp only [decodeText, hds]
    rw [if_neg (length_encodeBytes_mod_three_ne_one p), decodeDigits_payloadDigits]

/-- Settles O48: `DECODE` answers `p` on the text of `p`; group by group by the lemmas of each pair of functions. -/
theorem decodeInvertsEncode : Obligations.DecodeInvertsEncode :=
  ⟨fun p => (decodeText_eq_ok_iff _ p).mpr rfl, fun b => ⟨rfl, (decodeText_eq_ok_iff _ [b]).mpr rfl⟩, rfl, rfl,
    c2d_a2c, mac45_dig45_toNat, unpack16IsBigEndian.2⟩

end Sys2Proof.Machine
end

section
/-! The lengths of texts and payloads (43_codec_laws.md R80), and the texts that `DECODE` rejects (R84): a text that it
accepts is the text of a payload, whose groups hold the digits of 16-bit values and of a byte. -/

namespace Sys2Proof.Machine

/-- Settles O49: a text that decodes is the text of its payload, whose length is known. -/
theorem lengthLaw : Obligations.LengthLaw := by
  refine ⟨length_encodeBytes, fun t p h => ?_, length_encodeBytes_mod_three_ne_one⟩
  rw [(decodeText_eq_ok_iff t p).mp h, length_encodeBytes]
  split_ifs <;> omega

/-- A text that is not the text of any payload is rejected. -/
theorem decodeText_fails_of_ne {t : List Byte} (h : ∀ p, t ≠ encodeBytes p) : ∃ c, decodeText t = .error c := by
  cases hd : decodeText t with
  | error c => exact ⟨c, rfl⟩
  | ok p => exact absurd ((decodeText_eq_ok_iff t p).mp hd) (h p)

/-- A character has one digit only. -/
theorem digit_eq_of_a2c_eq {c : Byte} {d e : Digit} (hd : c2d c = some d) (he : a2c e = c) : d = e := by
  rw [← he, c2d_a2c] at hd
  exact (Option.some.inj hd).symm

/-- Every full group of a text has a value of 16 bits. -/
theorem encodeBytes_full_group_value_le {p : List Byte} {g : Nat} {c0 c1 c2 : Byte} {d0 d1 d2 : Digit}
    (t0 : (encodeBytes p)[3 * g]? = some c0) (t1 : (encodeBytes p)[3 * g + 1]? = some c1)
    (t2 : (encodeBytes p)[3 * g + 2]? = some c2) (h0 : c2d c0 = some d0) (h1 : c2d c1 = some d1)
    (h2 : c2d c2 = some d2) : d0.val + 45 * d1.val + 2025 * d2.val ≤ 65535 := by
  rw [← Nat.add_zero (3 * g), ← List.getElem?_drop, drop_encodeBytes] at t0
  rw [← List.getElem?_drop, drop_encodeBytes] at t1 t2
  match hq : p.drop (2 * g) with
  | [] =>
    rw [hq] at t2
    cases t2
  | [b] =>
    rw [hq] at t2
    cases t2
  | b0 :: b1 :: rest =>
    rw [hq] at t0 t1 t2
    rw [digit_eq_of_a2c_eq h0 (Option.some.inj t0), digit_eq_of_a2c_eq h1 (Option.some.inj t1),
      digit_eq_of_a2c_eq h2 (Option.some.inj t2), ← mac45_toNat, mac45_dig45_toNat]
    have hlt := (pack16 b0 b1).isLt
    omega

/-- The tail group of a text has a value of 8 bits. -/
theorem encodeBytes_tail_group_value_le {p : List Byte} {c0 c1 : Byte} {d0 d1 : Digit}
    (hlen : (encodeBytes p).length % 3 = 2) (t0 : (encodeBytes p)[(encodeBytes p).length - 2]? = some c0)
    (t1 : (encodeBytes p)[(encodeBytes p).length - 1]? = some c1) (h0 : c2d c0 = some d0) (h1 : c2d c1 = some d1) :
    d0.val + 45 * d1.val ≤ 255 := by
  rw [length_encodeBytes] at hlen
  obtain ⟨b, -, hdrop⟩ := drop_full_chunks_of_odd (p := p) (by omega)
  have e0 : (encodeBytes p).length - 2 = 3 * (p.length / 2) + 0 := by
    rw [length_encodeBytes]
    omega
  have e1 : (encodeBytes p).length - 1 = 3 * (p.length / 2) + 1 := by
    rw [length_encodeBytes]
    omega
  rw [e0, ← List.getElem?_drop, drop_encodeBytes, hdrop] at t0
  rw [e1, ← List.getElem?_drop, drop_encodeBytes, hdrop] at t1
  have hv := mac45_dig45_byte_toNat b
  rw [mac45_toNat, ← digit_eq_of_a2c_eq h0 (Option.some.inj t0), ← digit_eq_of_a2c_eq h1 (Option.some.inj t1)] at hv
  have hlt := b.isLt
  omega

/-- Settles O53: each of the malformed texts is not the text of any payload. -/
theorem malformedTextsAreRejected : Obligations.MalformedTextsAreRejected := by
  refine ⟨by decide, fun t g c0 c1 c2 d0 d1 d2 t0 t1 t2 h0 h1 h2 hv => decodeText_fails_of_ne ?_,
    fun t hlen => decodeText_fails_of_ne ?_,
    fun t c0 c1 d0 d1 hlen t0 t1 h0 h1 hv => decodeText_fails_of_ne ?_⟩
  · rintro p rfl
    have hle := encodeBytes_full_group_value_le t0 t1 t2 h0 h1 h2
    omega
  · rintro p rfl
    exact length_encodeBytes_mod_three_ne_one p hlen
  · rintro p rfl
    have hle := encodeBytes_tail_group_value_le hlen t0 t1 h0 h1
    omega

end Sys2Proof.Machine
end

section
/-! A sequencer's step seen from its own unit (10_state.md R9, 43_codec_laws.md section 3): two runs from states that
agree on the unit and on the widths answer states that agree on the unit. -/

namespace Sys2Proof.Machine

/-! ### Answers that agree on a view of the state -/

/-- If `r` answers a next state, `r'` answers one with the same view `f`. -/
def SameNext {α : Type} (f : State → α) (r r' : Result) : Prop :=
  ∀ t, r = .next t → ∃ t', r' = .next t' ∧ f t' = f t

section

variable {α : Type} {f : State → α} {s s' : State} {u : UnitId}

theorem SameNext.next (h : f s' = f s) : SameNext f (.next s) (.next s') := by
  intro t ht
  cases ht
  exact ⟨s', rfl, h⟩

theorem SameNext.fetchEntry {i : Nat} {k k' : Byte → Result} (hb : s'.ibuf u = s.ibuf u)
    (hk : ∀ b, SameNext f (k b) (k' b)) : SameNext f (s.fetchEntry u i k) (s'.fetchEntry u i k') := by
  intro t h
  obtain ⟨b, hr, h⟩ := State.fetchEntry_eq_next h
  rw [State.fetchEntry_of_read (hb ▸ hr)]
  exact hk b t h

theorem SameNext.withRoom {n : Nat} {r r' : Result} (hw : s'.wp u = s.wp u) (hc : s'.cfg = s.cfg)
    (hr : SameNext f r r') : SameNext f (s.withRoom u n r) (s'.withRoom u n r') := by
  intro t h
  obtain ⟨hle, h⟩ := State.withRoom_eq_next h
  rw [State.withRoom_of_le (hw ▸ hc ▸ hle)]
  exact hr t h

theorem SameNext.withGroupDigit {c : Byte} {k k' : Digit → Result} (hk : ∀ d, SameNext f (k d) (k' d)) :
    SameNext f (withGroupDigit c k) (withGroupDigit c k') := by
  intro t h
  obtain ⟨d, hd, h⟩ := withGroupDigit_eq_next h
  rw [withGroupDigit_of_digit hd]
  exact hk d t h

/-- A sequencer's turn keeps an agreement that its operation and the idle turn keep. -/
theorem SameNext.step_seq {rest rest' : List Event} (ha : s.agenda = .seq u :: rest) (ha' : s'.agenda = .seq u :: rest')
    (hb : s'.busy u = s.busy u) (hf : f (s'.withAgenda rest') = f (s.withAgenda rest))
    (hx : SameNext f (exec (s.opOf u) (s.withAgenda rest)) (exec (s'.opOf u) (s'.withAgenda rest'))) :
    SameNext f (step s) (step s') := by
  cases hbs : s.busy u
  · rw [step_seq_idle ha hbs, step_seq_idle ha' (hb.trans hbs)]
    exact .next hf
  · rw [step_seq_busy ha hbs, step_seq_busy ha' (hb.trans hbs)]
    exact hx

end

/-! ### The encoder's operations -/

section

variable {s s' : State} (hc : s'.cfg = s.cfg) (he : s'.enc = s.enc)
include hc he

theorem execEnc1_sameNext : SameNext State.enc (execEnc1 s) (execEnc1 s') := by
  unfold execEnc1
  rw [he]
  exact .fetchEntry (congrArg EncUnit.ibuf he) fun _ => .withRoom (congrArg EncUnit.wp he) hc (.next rfl)

theorem execEnc2_sameNext : SameNext State.enc (execEnc2 s) (execEnc2 s') := by
  unfold execEnc2
  rw [he]
  exact .fetchEntry (congrArg EncUnit.ibuf he) fun _ => .fetchEntry (congrArg EncUnit.ibuf he) fun _ =>
    .withRoom (congrArg EncUnit.wp he) hc (.next rfl)

theorem exec_encOpOf_sameNext (n : Nat) : SameNext State.enc (exec (encOpOf n) s) (exec (encOpOf n) s') := by
  unfold encOpOf
  split_ifs
  · exact .next (congrArg EncUnit.finish he)
  · exact execEnc1_sameNext hc he
  · exact execEnc2_sameNext hc he

end

/-! ### The decoder's operations -/

section

variable {s s' : State} (hd : s'.dec = s.dec)
include hd

theorem State.scanChar_dec_congr (d : Option Digit) : (s'.scanChar d).dec = (s.scanChar d).dec := by
  cases d
  · exact congrArg (DecUnit.fail · .char) hd
  · exact congrArg DecUnit.scanned hd

theorem execDecScan_sameNext : SameNext State.dec (execDecScan s) (execDecScan s') := by
  unfold execDecScan
  rw [hd]
  exact .fetchEntry (congrArg DecUnit.ibuf hd) fun c => .next (State.scanChar_dec_congr hd (c2d c))

theorem execDecLenchk_sameNext : SameNext State.dec (execDecLenchk s) (execDecLenchk s') := by
  unfold execDecLenchk
  rw [hd]
  split_ifs
  · exact .next (congrArg (DecUnit.fail · .length) hd)
  · exact .next rfl

variable (hc : s'.cfg = s.cfg)
include hc

theorem execDec2_sameNext : SameNext State.dec (execDec2 s) (execDec2 s') := by
  unfold execDec2
  rw [hd]
  refine .fetchEntry (congrArg DecUnit.ibuf hd) fun _ => .fetchEntry (congrArg DecUnit.ibuf hd) fun _ =>
    .withGroupDigit fun _ => .withGroupDigit fun _ => ?_
  dsimp only
  split_ifs
  · exact .next rfl
  · exact .withRoom (congrArg DecUnit.wp hd) hc (.next rfl)

theorem execDec3_sameNext : SameNext State.dec (execDec3 s) (execDec3 s') := by
  unfold execDec3
  rw [hd]
  refine .fetchEntry (congrArg DecUnit.ibuf hd) fun _ => .fetchEntry (congrArg DecUnit.ibuf hd) fun _ =>
    .fetchEntry (congrArg DecUnit.ibuf hd) fun _ =>
      .withGroupDigit fun _ => .withGroupDigit fun _ => .withGroupDigit fun _ => ?_
  dsimp only
  split_ifs
  · exact .next rfl
  · exact .withRoom (congrArg DecUnit.wp hd) hc (.next rfl)

theorem exec_decOpOf_sameNext (p : Phase) (n : Nat) :
    SameNext State.dec (exec (decOpOf p n) s) (exec (decOpOf p n) s') := by
  cases p
  · rw [decOpOf_scan]
    split_ifs
    · exact execDecLenchk_sameNext hd
    · exact execDecScan_sameNext hd
  · rw [decOpOf_group]
    split_ifs
    · exact .next (congrArg DecUnit.finish hd)
    · exact .next (congrArg (DecUnit.fail · .length) hd)
    · exact execDec2_sameNext hd hc
    · exact execDec3_sameNext hd hc

end

/-- Settles O47: the turn and its operation are those of the unit's own registers, and every operation answers the same
unit in both states. -/
theorem sequencerStepDependsOnItsUnitAlone : Obligations.SequencerStepDependsOnItsUnitAlone := by
  intro s s' t rest rest' hc ht
  refine ⟨fun ha ha' he => ?_, fun ha ha' hd => ?_⟩
  · refine SameNext.step_seq (f := State.enc) ha ha' (by rw [State.busy_enc, State.busy_enc, he]) he.symm ?_ t ht
    rw [State.opOf, State.opOf, ← he]
    exact exec_encOpOf_sameNext (s := s.withAgenda rest) (s' := s'.withAgenda rest') hc.symm he.symm _
  · refine SameNext.step_seq (f := State.dec) ha ha' (by rw [State.busy_dec, State.busy_dec, hd]) hd.symm ?_ t ht
    rw [State.opOf, State.opOf, ← hd]
    exact exec_decOpOf_sameNext (s := s.withAgenda rest) (s' := s'.withAgenda rest') hd.symm hc.symm _ _

end Sys2Proof.Machine
end

section
/-! The level outputs (60_exceptions.md R91). -/

namespace Sys2Proof.Machine

/-- Settles O37: each output is the comparison of a status register with one of its values. -/
theorem levelOutputsMirrorState : Obligations.LevelOutputsMirrorState :=
  fun _ => ⟨beq_iff_eq, beq_iff_eq, beq_iff_eq, beq_iff_eq, beq_iff_eq⟩

end Sys2Proof.Machine
end

section
/-! The order of the causes (60_exceptions.md R92): `DECODE` checks all characters, then the length, then the full
groups in order, then the tail. -/

namespace Sys2Proof.Machine

/-! ### The characters and the length -/

/-- The check of the characters passes exactly when every character has a digit. -/
theorem exists_mapM_c2d_eq_some_iff (t : List Byte) : (∃ ds, t.mapM c2d = some ds) ↔ ∀ c ∈ t, c2d c ≠ none := by
  constructor
  · rintro ⟨ds, hds⟩ c hc
    rw [(mapM_c2d_eq_some_iff t ds).mp hds] at hc
    obtain ⟨d, -, rfl⟩ := List.mem_map.mp hc
    simp [c2d_a2c]
  · intro h
    have ht : t ∈ Set.range (List.map a2c) := by
      rw [Set.range_list_map]
      intro c hc
      obtain ⟨d, hd⟩ := Option.ne_none_iff_exists'.mp (h c hc)
      exact ⟨d, a2c_of_c2d_eq_some hd⟩
    obtain ⟨ds, rfl⟩ := ht
    exact ⟨ds, (mapM_c2d_eq_some_iff _ ds).mpr rfl⟩

theorem length_of_mapM_c2d {t : List Byte} {ds : List Digit} (h : t.mapM c2d = some ds) : ds.length = t.length := by
  rw [(mapM_c2d_eq_some_iff t ds).mp h, List.length_map]

theorem decodeText_of_invalid_char {t : List Byte} (h : ∃ c ∈ t, c2d c = none) : decodeText t = .error .char := by
  have hn : t.mapM c2d = none := by
    by_contra hne
    obtain ⟨c, hc, hcn⟩ := h
    exact (exists_mapM_c2d_eq_some_iff t).mp (Option.ne_none_iff_exists'.mp hne) c hc hcn
  rw [decodeText, hn]

theorem decodeText_of_length {t : List Byte} {ds : List Digit} (hds : t.mapM c2d = some ds) (h : t.length % 3 = 1) :
    decodeText t = .error .length := by
  simp only [decodeText, hds, if_pos h]

/-- Past the first two checks `DECODE` is its groups. -/
theorem decodeText_eq_decodeDigits {t : List Byte} {ds : List Digit} (hds : t.mapM c2d = some ds)
    (h : t.length % 3 ≠ 1) : decodeText t = decodeDigits ds := by
  simp only [decodeText, hds, if_neg h]

/-! ### The groups of a digit sequence -/

/-- The full group `g` of the digits `ds`, counted from 0, is `d0`, `d1`, `d2` (R66). -/
def GroupAt (ds : List Digit) (g : Nat) (d0 d1 d2 : Digit) : Prop :=
  ds[3 * g]? = some d0 ∧ ds[3 * g + 1]? = some d1 ∧ ds[3 * g + 2]? = some d2

/-- Every full group has a value of 16 bits. -/
def GroupsFit (ds : List Digit) : Prop :=
  ∀ g d0 d1 d2, GroupAt ds g d0 d1 d2 → d0.val + 45 * d1.val + 2025 * d2.val ≤ 65535

section

variable {e0 e1 e2 : Digit} {ds : List Digit}

theorem groupAt_zero (e0 e1 e2 : Digit) (ds : List Digit) : GroupAt (e0 :: e1 :: e2 :: ds) 0 e0 e1 e2 :=
  ⟨rfl, rfl, rfl⟩

theorem GroupAt.eq_of_zero {d0 d1 d2 : Digit} (h : GroupAt (e0 :: e1 :: e2 :: ds) 0 d0 d1 d2) :
    e0 = d0 ∧ e1 = d1 ∧ e2 = d2 := by
  obtain ⟨h0, h1, h2⟩ := h
  exact ⟨Option.some.inj h0, Option.some.inj h1, Option.some.inj h2⟩

theorem groupAt_succ_iff {g : Nat} {d0 d1 d2 : Digit} :
    GroupAt (e0 :: e1 :: e2 :: ds) (g + 1) d0 d1 d2 ↔ GroupAt ds g d0 d1 d2 := Iff.rfl

theorem GroupsFit.head (h : GroupsFit (e0 :: e1 :: e2 :: ds)) : e0.val + 45 * e1.val + 2025 * e2.val ≤ 65535 :=
  h 0 e0 e1 e2 (groupAt_zero e0 e1 e2 ds)

theorem GroupsFit.rest (h : GroupsFit (e0 :: e1 :: e2 :: ds)) : GroupsFit ds :=
  fun g d0 d1 d2 hg => h (g + 1) d0 d1 d2 hg

/-! ### `DECODE` on one group -/

theorem decodeDigits_of_overflow (ds : List Digit) (h : 65535 < e0.val + 45 * e1.val + 2025 * e2.val) :
    decodeDigits (e0 :: e1 :: e2 :: ds) = .error .range16 := by
  rw [decodeDigits, mac45_toNat, if_pos h]

/-- A group that fits gives two bytes and leaves a later failure as it is. -/
theorem decodeDigits_of_fits (ds : List Digit) (h : e0.val + 45 * e1.val + 2025 * e2.val ≤ 65535) :
    ∃ b0 b1, decodeDigits (e0 :: e1 :: e2 :: ds) = (decodeDigits ds).map fun p => b0 :: b1 :: p := by
  refine ⟨(unpack16 ((mac45 e0 e1 e2).truncate 16)).1, (unpack16 ((mac45 e0 e1 e2).truncate 16)).2, ?_⟩
  rw [decodeDigits, mac45_toNat, if_neg (by omega)]
  cases decodeDigits ds <;> rfl

theorem mac45_zero_toNat (d0 d1 : Digit) : (mac45 d0 d1 0).toNat = d0.val + 45 * d1.val := by
  rw [mac45_toNat]
  rfl

theorem decodeDigits_pair_of_overflow {d0 d1 : Digit} (h : 255 < d0.val + 45 * d1.val) :
    decodeDigits [d0, d1] = .error .range8 := by
  rw [decodeDigits, mac45_zero_toNat, if_pos h]

theorem decodeDigits_pair_of_fits {d0 d1 : Digit} (h : d0.val + 45 * d1.val ≤ 255) :
    decodeDigits [d0, d1] = .ok [(mac45 d0 d1 0).truncate 8] := by
  rw [decodeDigits, mac45_zero_toNat, if_neg (by omega)]

end

/-! ### `DECODE` on all groups -/

/-- Any overflowing full group gives RANGE16: the groups before it succeed or give RANGE16 themselves. -/
theorem decodeDigits_of_group_overflow {g : Nat} {d0 d1 d2 : Digit} (ds : List Digit) (hg : GroupAt ds g d0 d1 d2)
    (hv : 65535 < d0.val + 45 * d1.val + 2025 * d2.val) : decodeDigits ds = .error .range16 := by
  induction g generalizing ds with
  | zero =>
    match ds, hg with
    | e0 :: e1 :: e2 :: ds, hg =>
      obtain ⟨rfl, rfl, rfl⟩ := hg.eq_of_zero
      exact decodeDigits_of_overflow ds hv
  | succ g ih =>
    match ds, hg with
    | e0 :: e1 :: e2 :: ds, hg =>
      rcases Nat.lt_or_ge 65535 (e0.val + 45 * e1.val + 2025 * e2.val) with h | h
      · exact decodeDigits_of_overflow ds h
      · obtain ⟨b0, b1, hd⟩ := decodeDigits_of_fits ds h
        rw [hd, ih ds (groupAt_succ_iff.mp hg)]
        rfl

theorem exceptMap_self (r : Except Cause (List Byte)) : (r.map fun p => p) = r :=
  congrFun Except.map_id r

/-- When every full group fits, the digits after them decide. -/
theorem decodeDigits_of_groupsFit : (ds : List Digit) → GroupsFit ds →
    ∃ p, decodeDigits ds = (decodeDigits (ds.drop (3 * (ds.length / 3)))).map (p ++ ·)
  | [], _ => ⟨[], rfl⟩
  | [_], _ => ⟨[], by simp [exceptMap_self]⟩
  | [_, _], _ => ⟨[], by simp [exceptMap_self]⟩
  | e0 :: e1 :: e2 :: ds, hf => by
    obtain ⟨b0, b1, hd⟩ := decodeDigits_of_fits ds hf.head
    obtain ⟨p, hp⟩ := decodeDigits_of_groupsFit ds hf.rest
    have hn : 3 * ((e0 :: e1 :: e2 :: ds).length / 3) = 3 * (ds.length / 3) + 3 := by
      simp only [List.length_cons]
      omega
    refine ⟨b0 :: b1 :: p, ?_⟩
    rw [hd, hp, hn, List.drop_succ_cons, List.drop_succ_cons, List.drop_succ_cons]
    cases decodeDigits (ds.drop (3 * (ds.length / 3))) <;> rfl

/-- A length of remainder 2 leaves the last two digits after the full groups. -/
theorem drop_full_groups_eq_pair {ds : List Digit} {d0 d1 : Digit} (hlen : ds.length % 3 = 2)
    (h0 : ds[ds.length - 2]? = some d0) (h1 : ds[ds.length - 1]? = some d1) :
    ds.drop (3 * (ds.length / 3)) = [d0, d1] := by
  obtain ⟨hlt, h0⟩ := List.getElem?_eq_some_iff.mp h0
  obtain ⟨hlt', h1⟩ := List.getElem?_eq_some_iff.mp h1
  have e : 3 * (ds.length / 3) = ds.length - 2 := by omega
  have e' : ds.length - 2 + 1 = ds.length - 1 := by omega
  have e'' : ds.length - 1 + 1 = ds.length := by omega
  rw [e, List.drop_eq_getElem_cons hlt, h0]
  simp only [e', List.drop_eq_getElem_cons hlt', h1, e'', List.drop_length]

theorem decodeDigits_of_tail_overflow {ds : List Digit} {d0 d1 : Digit} (hf : GroupsFit ds)
    (hlen : ds.length % 3 = 2) (h0 : ds[ds.length - 2]? = some d0) (h1 : ds[ds.length - 1]? = some d1)
    (hv : 255 < d0.val + 45 * d1.val) : decodeDigits ds = .error .range8 := by
  obtain ⟨p, hp⟩ := decodeDigits_of_groupsFit ds hf
  rw [hp, drop_full_groups_eq_pair hlen h0 h1, decodeDigits_pair_of_overflow hv]
  rfl

/-- When every group fits, `DECODE` succeeds. -/
theorem exists_decodeDigits_eq_ok {ds : List Digit} (hf : GroupsFit ds) (hlen : ds.length % 3 ≠ 1)
    (ht : ∀ d0 d1 : Digit, ds.length % 3 = 2 → ds[ds.length - 2]? = some d0 → ds[ds.length - 1]? = some d1 →
      d0.val + 45 * d1.val ≤ 255) : ∃ p, decodeDigits ds = .ok p := by
  obtain ⟨p, hp⟩ := decodeDigits_of_groupsFit ds hf
  rw [hp]
  rcases (by omega : ds.length % 3 = 0 ∨ ds.length % 3 = 2) with h | h
  · rw [List.drop_of_length_le (by omega)]
    exact ⟨p ++ [], rfl⟩
  · have h0 := List.getElem?_eq_getElem (l := ds) (i := ds.length - 2) (by omega)
    have h1 := List.getElem?_eq_getElem (l := ds) (i := ds.length - 1) (by omega)
    rw [drop_full_groups_eq_pair h h0 h1, decodeDigits_pair_of_fits (ht _ _ h h0 h1)]
    exact ⟨_, rfl⟩

/-- Settles O54: one lemma for each check of `DECODE`, in its order. -/
theorem causesInTheOrderOfTheAlgorithm : Obligations.CausesInTheOrderOfTheAlgorithm := by
  intro t
  refine ⟨decodeText_of_invalid_char, fun hc hlen => ?_, fun ds hds hlen => ?_⟩
  · obtain ⟨ds, hds⟩ := (exists_mapM_c2d_eq_some_iff t).mpr hc
    exact decodeText_of_length hds hlen
  · rw [decodeText_eq_decodeDigits hds hlen]
    rw [← length_of_mapM_c2d hds] at hlen ⊢
    refine ⟨?_, fun hf => ⟨?_, ?_⟩⟩
    · rintro ⟨g, d0, d1, d2, h0, h1, h2, hv⟩
      exact decodeDigits_of_group_overflow ds ⟨h0, h1, h2⟩ hv
    all_goals
      have hfit : GroupsFit ds := fun g d0 d1 d2 ⟨h0, h1, h2⟩ => hf g d0 d1 d2 h0 h1 h2
    · rintro ⟨d0, d1, h, h0, h1, hv⟩
      exact decodeDigits_of_tail_overflow hfit h h0 h1 hv
    · exact exists_decodeDigits_eq_ok hfit hlen

end Sys2Proof.Machine
end

section
/-! The machine's invariant (10_state.md R12, R13, R15; 43_codec_laws.md R77): the reset state has it, every update of a
unit keeps it under the conditions that the unit's operation meets, and so every step keeps it. -/

namespace Sys2Proof.Machine

/-! ### The encoder unit -/

section

variable {cfg : Config} {e : EncUnit}

theorem EncUnit.inv_reset (cfg : Config) : EncUnit.reset.Inv cfg := by
  constructor <;> simp [EncUnit.reset, Memory.wf]

theorem EncUnit.Inv.start (h : e.Inv cfg) : e.start.Inv cfg :=
  { h with
    olen_fits := Nat.zero_le _
    rp_fits := Nat.two_pow_pos _
    wp_fits := Nat.zero_le _
    busy_rp := fun _ => Nat.zero_le _
    busy_odd := fun _ => nofun
    busy_wp := fun _ => by simp
    olen_zero := fun _ => rfl
    busy_out := fun _ _ => nofun
    done_out := nofun }

theorem EncUnit.Inv.finish (h : e.Inv cfg) (hb : e.state = .busy) : e.finish.Inv cfg :=
  { h with
    olen_fits := h.wp_fits
    busy_rp := nofun
    busy_odd := nofun
    busy_wp := nofun
    olen_zero := fun hn => absurd rfl hn
    busy_out := nofun
    done_out := fun _ => h.busy_out hb }

theorem EncUnit.Inv.latch2 (h : e.Inv cfg) (v : Val16) (d0 d1 : Digit) : (e.latch2 v d0 d1).Inv cfg :=
  { h with digits := ⟨digReg_toNat_lt d0, digReg_toNat_lt d1, h.digits.2.2⟩ }

theorem EncUnit.Inv.latch3 (h : e.Inv cfg) (v : Val16) (d0 d1 d2 : Digit) : (e.latch3 v d0 d1 d2).Inv cfg :=
  { h with digits := ⟨digReg_toNat_lt d0, digReg_toNat_lt d1, digReg_toNat_lt d2⟩ }

/-- Consuming what is left of a chunk, `n` of its two bytes, for `n + 1` characters. -/
theorem EncUnit.Inv.advance (h : e.Inv cfg) (hb : e.state = .busy) {n : Nat} {out : List Byte}
    (hn : n = min (e.ilen - e.rp) 2) (hpos : 0 < n) (hout : out.length = n + 1)
    (hroom : e.wp + out.length ≤ cfg.encOcap) : (e.advance n out).Inv cfg := by
  have hodd := h.busy_odd hb
  have hwp := h.busy_wp hb
  have hilen := h.ilen_fits
  refine { h with
    obuf_wf := Memory.wf_writeList h.obuf_wf _ _
    obuf_below := Memory.below_writeList h.obuf_below hroom
    rp_fits := ?_
    wp_fits := hroom
    busy_rp := fun _ => ?_
    busy_odd := fun _ => ?_
    busy_wp := fun _ => ?_
    busy_out := fun _ => Memory.filledBelow_writeList (h.busy_out hb) out
    done_out := fun hd => ?_ }
  · rw [advance_rp]
    omega
  · rw [advance_rp, advance_ilen]
    omega
  · rw [advance_rp, advance_ilen]
    omega
  · rw [advance_rp, advance_wp]
    omega
  · cases hb.symm.trans hd

/-- The host writes the length of a unit that is not BUSY. -/
theorem EncUnit.Inv.writeIlen (h : e.Inv cfg) (hb : e.state ≠ .busy) (v : Nat) :
    { e with ilen := v % 2 ^ cfg.encLenW }.Inv cfg :=
  { h with
    ilen_fits := Nat.mod_lt _ (Nat.two_pow_pos _)
    busy_rp := fun h => absurd h hb
    busy_odd := fun h => absurd h hb }

theorem EncUnit.Inv.writeIbuf (h : e.Inv cfg) (i : Nat) (b : Byte) :
    { e with ibuf := e.ibuf.write (i % 2 ^ cfg.encLenW) b }.Inv cfg :=
  { h with
    ibuf_wf := Memory.wf_write h.ibuf_wf _ _
    ibuf_below := Memory.below_write h.ibuf_below (Nat.mod_lt _ (Nat.two_pow_pos _)) _ }

end

/-! ### The decoder unit -/

section

variable {cfg : Config} {d : DecUnit}

theorem DecUnit.inv_reset (cfg : Config) : DecUnit.reset.Inv cfg := by
  constructor <;> simp [DecUnit.reset, Memory.wf]

theorem DecUnit.Inv.cause_eq_none (h : d.Inv cfg) (hs : d.state ≠ .error) : d.cause = .none := by
  by_contra hc
  exact hs (h.cause_error.mp hc)

theorem DecUnit.Inv.start (h : d.Inv cfg) : d.start.Inv cfg :=
  { h with
    olen_fits := Nat.zero_le _
    rp_fits := Nat.two_pow_pos _
    wp_fits := Nat.zero_le _
    busy_rp := fun _ => Nat.zero_le _
    scan_wp := fun _ _ => rfl
    scan_digits := fun _ _ _ => nofun
    group_digits := nofun
    group_len := nofun
    group_rp := nofun
    group_wp := nofun
    olen_zero := fun _ => rfl
    cause_error := ⟨fun hc => absurd rfl hc, nofun⟩
    busy_out := fun _ _ => nofun
    done_out := nofun }

theorem DecUnit.Inv.finish (h : d.Inv cfg) (hb : d.state = .busy) : d.finish.Inv cfg :=
  { h with
    olen_fits := h.wp_fits
    busy_rp := nofun
    scan_wp := nofun
    scan_digits := nofun
    group_digits := nofun
    group_len := nofun
    group_rp := nofun
    group_wp := nofun
    olen_zero := fun hn => absurd rfl hn
    cause_error := ⟨fun hc => absurd (h.cause_eq_none (by simp [hb])) hc, nofun⟩
    busy_out := nofun
    done_out := fun _ => h.busy_out hb }

theorem DecUnit.Inv.fail (h : d.Inv cfg) {c : Cause} (hc : c ≠ .none) : (d.fail c).Inv cfg :=
  { h with
    olen_fits := Nat.zero_le _
    busy_rp := nofun
    scan_wp := nofun
    scan_digits := nofun
    group_digits := nofun
    group_len := nofun
    group_rp := nofun
    group_wp := nofun
    olen_zero := fun _ => rfl
    cause_error := ⟨fun _ => rfl, fun _ => hc⟩
    busy_out := nofun
    done_out := nofun }

/-- The character at the read pointer is a digit. -/
theorem DecUnit.Inv.scanned (h : d.Inv cfg) (hb : d.state = .busy) (hp : d.phase = .scan) (hlt : d.rp < d.ilen)
    (hdig : ((d.ibuf.read d.rp).bind c2d).isSome = true) : d.scanned.Inv cfg := by
  have hilen := h.ilen_fits
  refine { h with
    rp_fits := by rw [scanned_rp]; omega
    busy_rp := fun _ => hlt
    scan_digits := fun _ _ i hi => ?_
    group_rp := fun _ hg => nomatch hp.symm.trans hg
    group_wp := fun _ hg => nomatch hp.symm.trans hg }
  rcases Nat.lt_succ_iff_lt_or_eq.mp hi with hi | rfl
  · exact h.scan_digits hb hp i hi
  · exact hdig

/-- The whole text was scanned and its length has passed. -/
theorem DecUnit.Inv.toGroup (h : d.Inv cfg) (hb : d.state = .busy) (hp : d.phase = .scan) (hend : d.ilen - d.rp = 0)
    (hlen : d.ilen % 3 ≠ 1) : d.toGroup.Inv cfg :=
  { h with
    rp_fits := Nat.two_pow_pos _
    busy_rp := fun _ => Nat.zero_le _
    scan_wp := nofun
    scan_digits := nofun
    group_digits := fun _ _ i hi => h.scan_digits hb hp i (by rw [toGroup_ilen] at hi; omega)
    group_len := fun _ _ => hlen
    group_rp := fun _ _ hn => absurd rfl hn
    group_wp := fun _ _ => by simpa using h.scan_wp hb hp }

theorem DecUnit.Inv.latch2 (h : d.Inv cfg) (v : Val17) (d0 d1 : Digit) : (d.latch2 v d0 d1).Inv cfg :=
  { h with digits := ⟨digReg_toNat_lt d0, digReg_toNat_lt d1, h.digits.2.2⟩ }

theorem DecUnit.Inv.latch3 (h : d.Inv cfg) (v : Val17) (d0 d1 d2 : Digit) : (d.latch3 v d0 d1 d2).Inv cfg :=
  { h with digits := ⟨digReg_toNat_lt d0, digReg_toNat_lt d1, digReg_toNat_lt d2⟩ }

/-- Consuming what is left of a group, `n` of its three characters, for `n - 1` bytes. -/
theorem DecUnit.Inv.advance (h : d.Inv cfg) (hb : d.state = .busy) (hp : d.phase = .group) {n : Nat} {out : List Byte}
    (hn : n = min (d.ilen - d.rp) 3) (hpos : 2 ≤ n) (hout : out.length + 1 = n)
    (hroom : d.wp + out.length ≤ cfg.decOcap) : (d.advance n out).Inv cfg := by
  have hrp := h.rp_mod_three hb hp (by omega)
  have hwp := h.group_wp hb hp
  have hilen := h.ilen_fits
  refine { h with
    obuf_wf := Memory.wf_writeList h.obuf_wf _ _
    obuf_below := Memory.below_writeList h.obuf_below hroom
    rp_fits := ?_
    wp_fits := hroom
    busy_rp := fun _ => ?_
    scan_wp := fun _ hs => nomatch hp.symm.trans hs
    scan_digits := fun _ hs => nomatch hp.symm.trans hs
    group_rp := fun _ _ => ?_
    group_wp := fun _ _ => ?_
    busy_out := fun _ => Memory.filledBelow_writeList (h.busy_out hb) out
    done_out := fun hd => nomatch hb.symm.trans hd }
  · rw [advance_rp]
    omega
  · rw [advance_rp, advance_ilen]
    omega
  · rw [advance_rp, advance_ilen]
    omega
  · rw [advance_rp, advance_wp]
    omega

theorem DecUnit.Inv.writeIlen (h : d.Inv cfg) (hb : d.state ≠ .busy) (v : Nat) :
    { d with ilen := v % 2 ^ cfg.decLenW }.Inv cfg :=
  { h with
    ilen_fits := Nat.mod_lt _ (Nat.two_pow_pos _)
    busy_rp := fun h => absurd h hb
    group_digits := fun h => absurd h hb
    group_len := fun h => absurd h hb
    group_rp := fun h => absurd h hb }

theorem DecUnit.Inv.writeIbuf (h : d.Inv cfg) (hb : d.state ≠ .busy) (i : Nat) (b : Byte) :
    { d with ibuf := d.ibuf.write (i % 2 ^ cfg.decLenW) b }.Inv cfg :=
  { h with
    ibuf_wf := Memory.wf_write h.ibuf_wf _ _
    ibuf_below := Memory.below_write h.ibuf_below (Nat.mod_lt _ (Nat.two_pow_pos _)) _
    scan_digits := fun h => absurd h hb
    group_digits := fun h => absurd h hb }

end

/-! ### The whole state -/

section

variable {s : State}

theorem State.Inv.withEnc (h : s.Inv) {e : EncUnit} (he : e.Inv s.cfg) : (s.withEnc e).Inv :=
  { h with enc_inv := he }

theorem State.Inv.withDec (h : s.Inv) {d : DecUnit} (hd : d.Inv s.cfg) : (s.withDec d).Inv :=
  { h with dec_inv := hd }

theorem State.Inv.withRdata (h : s.Inv) {v : Nat} (hv : v < 2 ^ s.cfg.hdataW) : (s.withRdata v).Inv :=
  { h with rdata_fits := hv }

theorem State.Inv.drawRdata (h : s.Inv) : s.drawRdata.Inv :=
  { h with rdata_fits := s.drawRdata_lt }

theorem State.Inv.decFail (h : s.Inv) {c : Cause} (hc : c ≠ .none) : (s.decFail c).Inv :=
  h.withDec (h.dec_inv.fail hc)

/-- The events to come and the count of draws are no part of the invariant. -/
theorem State.Inv.congr (h : s.Inv) {t : State} (hc : t.cfg = s.cfg) (he : t.enc = s.enc) (hd : t.dec = s.dec)
    (hr : t.hrdata = s.hrdata) : t.Inv where
  cfg_legal := hc ▸ h.cfg_legal
  enc_inv := hc ▸ he ▸ h.enc_inv
  dec_inv := hc ▸ hd ▸ h.dec_inv
  rdata_fits := hc ▸ hr ▸ h.rdata_fits

theorem State.inv_applyReset (h : s.cfg.Legal = true) : s.applyReset.Inv where
  cfg_legal := h
  enc_inv := EncUnit.inv_reset s.cfg
  dec_inv := DecUnit.inv_reset s.cfg
  rdata_fits := Nat.two_pow_pos _

/-- Settles O40: after reset the units are `EncUnit.reset` and `DecUnit.reset`, and the widths of `State.reset` are
legal. -/
theorem resetStateHasTheInvariant : Obligations.ResetStateHasTheInvariant :=
  State.inv_applyReset (s := State.reset) rfl

theorem State.Inv.start (h : s.Inv) (u : UnitId) : (s.start u).Inv := by
  cases u
  · exact h.withEnc h.enc_inv.start
  · exact h.withDec h.dec_inv.start

theorem State.Inv.writeIlen (h : s.Inv) {u : UnitId} (hb : s.busy u = false) (v : Nat) : (s.writeIlen u v).Inv := by
  cases u
  · exact h.withEnc (h.enc_inv.writeIlen (s.busy_enc_eq_false_iff.mp hb) v)
  · exact h.withDec (h.dec_inv.writeIlen (s.busy_dec_eq_false_iff.mp hb) v)

theorem State.Inv.writeIbuf (h : s.Inv) {u : UnitId} (hb : s.busy u = false) (i v : Nat) :
    (s.writeIbuf u i v).Inv := by
  cases u
  · exact h.withEnc (h.enc_inv.writeIbuf i _)
  · exact h.withDec (h.dec_inv.writeIbuf (s.busy_dec_eq_false_iff.mp hb) i _)

theorem Config.encOcap_lt {cfg : Config} (h : cfg.Legal = true) : cfg.encOcap < 2 ^ (cfg.encLenW + 1) := by
  simp only [Config.Legal, Bool.and_eq_true, decide_eq_true_eq] at h
  have hpow : 2 ^ (cfg.encLenW + 1) = 2 ^ (cfg.encLenW - 1) * 2 ^ 2 := by
    rw [← pow_add]
    congr 1
    omega
  have hpos := Nat.two_pow_pos (cfg.encLenW - 1)
  unfold Config.encOcap
  omega

theorem Config.decOcap_lt {cfg : Config} (h : cfg.Legal = true) : cfg.decOcap < 2 ^ cfg.decLenW := by
  simp only [Config.Legal, Bool.and_eq_true, decide_eq_true_eq] at h
  have hle : 2 ^ 1 ≤ 2 ^ cfg.decLenW := Nat.pow_le_pow_right (by decide) h.2
  unfold Config.decOcap
  omega

/-- Every register the host reads fits its data word (R17). -/
theorem State.Inv.readable_fits (h : s.Inv) {v : Nat} (hv : v < 256 ∨ ∃ u, v = s.ilen u ∨ v = s.olen u) :
    v < 2 ^ s.cfg.hdataW := by
  have fits {w : Nat} (hw : v < 2 ^ w) (hle : w ≤ s.cfg.hdataW) : v < 2 ^ s.cfg.hdataW :=
    lt_of_lt_of_le hw (Nat.pow_le_pow_right (by decide) hle)
  rcases hv with hv | ⟨u, hv⟩
  · exact fits (w := 8) hv (le_max_right _ _)
  · have henc : s.cfg.encLenW + 1 ≤ s.cfg.hdataW := (le_max_left _ _).trans (le_max_left _ _)
    have hdec : s.cfg.decLenW ≤ s.cfg.hdataW := (le_max_right _ _).trans (le_max_left _ _)
    cases u <;> rcases hv with rfl | rfl
    · exact fits h.enc_inv.ilen_fits (by omega)
    · exact fits (lt_of_le_of_lt h.enc_inv.olen_fits (Config.encOcap_lt h.cfg_legal)) henc
    · exact fits h.dec_inv.ilen_fits hdec
    · exact fits (lt_of_le_of_lt h.dec_inv.olen_fits (Config.decOcap_lt h.cfg_legal)) hdec

theorem access_inv (h : s.Inv) {t : State} {a : HostAccess}
    (he : exec (decodeAccess (s.busy a.unit) a) s = .next t) : t.Inv := by
  obtain ⟨t', e, hc⟩ := access_cases s a
  obtain rfl : t' = t := by simpa [e] using he
  rcases hc with rfl | ⟨v, rfl, hv⟩ | rfl | ⟨w, -, -, rfl⟩ | ⟨w, v, hw, rfl⟩ | ⟨w, i, v, hw, rfl⟩
  · exact h
  · exact h.withRdata (h.readable_fits hv)
  · exact h.drawRdata
  · exact h.start w
  · exact h.writeIlen hw v
  · exact h.writeIbuf hw i v

theorem exec_encOpOf_inv (h : s.Inv) (hb : s.enc.state = .busy) {t : State}
    (he : exec (encOpOf (s.enc.ilen - s.enc.rp)) s = .next t) : t.Inv := by
  rcases exec_encOpOf he with ⟨-, rfl⟩ | ⟨hn, v, d0, d1, hr, rfl⟩ | ⟨hn, v, d0, d1, d2, hr, rfl⟩
  · exact h.withEnc (h.enc_inv.finish hb)
  · refine h.withEnc ((h.enc_inv.latch2 v d0 d1).advance hb ?_ one_pos rfl hr)
    rw [EncUnit.latch2_ilen, EncUnit.latch2_rp]
    omega
  · refine h.withEnc ((h.enc_inv.latch3 v d0 d1 d2).advance hb ?_ two_pos rfl hr)
    rw [EncUnit.latch3_ilen, EncUnit.latch3_rp]
    omega

theorem scanChar_inv (h : s.Inv) (hb : s.dec.state = .busy) (hp : s.dec.phase = .scan) (hlt : s.dec.rp < s.dec.ilen)
    {c : Byte} (hc : s.dec.ibuf.read s.dec.rp = some c) : (s.scanChar (c2d c)).Inv := by
  cases hd : c2d c with
  | none => exact h.decFail (by decide)
  | some d => exact h.withDec (h.dec_inv.scanned hb hp hlt (by simp [hc, hd]))

theorem exec_decOpOf_inv (h : s.Inv) (hb : s.dec.state = .busy) {t : State}
    (he : exec (decOpOf s.dec.phase (s.dec.ilen - s.dec.rp)) s = .next t) : t.Inv := by
  rcases exec_decOpOf he with ⟨hp, hn, rfl⟩ | ⟨hp, hn, c, hc, rfl⟩ | ⟨-, -, rfl⟩ | ⟨-, -, rfl⟩ |
    ⟨hp, hn, v, d0, d1, ht⟩ | ⟨hp, hn, v, d0, d1, d2, ht⟩
  · split_ifs with hlen
    · exact h.decFail (by decide)
    · exact h.withDec (h.dec_inv.toGroup hb hp hn hlen)
  · exact scanChar_inv h hb hp (by omega) hc
  · exact h.withDec (h.dec_inv.finish hb)
  · exact h.decFail (by decide)
  · have hd := h.dec_inv.latch2 v d0 d1
    rcases ht with rfl | ⟨b, hr, rfl⟩
    · exact (h.withDec hd).decFail (by decide)
    · refine h.withDec (hd.advance hb hp ?_ le_rfl rfl hr)
      rw [DecUnit.latch2_ilen, DecUnit.latch2_rp]
      omega
  · have hd := h.dec_inv.latch3 v d0 d1 d2
    rcases ht with rfl | ⟨b0, b1, hr, rfl⟩
    · exact (h.withDec hd).decFail (by decide)
    · refine h.withDec (hd.advance hb hp ?_ (by decide) rfl hr)
      rw [DecUnit.latch3_ilen, DecUnit.latch3_rp]
      omega

/-- The operation of a BUSY unit keeps the invariant. -/
theorem exec_opOf_inv (h : s.Inv) {u : UnitId} (hb : s.busy u = true) {t : State}
    (he : exec (s.opOf u) s = .next t) : t.Inv := by
  cases u
  · exact exec_encOpOf_inv h (beq_iff_eq.mp hb) he
  · exact exec_decOpOf_inv h (beq_iff_eq.mp hb) he

end

/-- A unit's operation is chosen by the unit's own registers. -/
theorem State.opOf_congr {s t : State} (he : t.enc = s.enc) (hd : t.dec = s.dec) (u : UnitId) :
    t.opOf u = s.opOf u := by
  cases u
  · rw [State.opOf, State.opOf, he]
  · rw [State.opOf, State.opOf, hd]

theorem State.busy_congr {s t : State} (he : t.enc = s.enc) (hd : t.dec = s.dec) (u : UnitId) :
    t.busy u = s.busy u := by
  cases u
  · rw [State.busy_enc, State.busy_enc, he]
  · rw [State.busy_dec, State.busy_dec, hd]

/-- Settles O41: by what a step can be; each of them keeps the invariant. -/
theorem everyStepKeepsTheInvariant : Obligations.EveryStepKeepsTheInvariant := by
  intro s t h ht
  rcases step_cases s with ⟨rest, -, e⟩ | ⟨a, rest, -, e⟩ | ⟨u, s', hb, hc, he, hd, hr, -, -, -, e⟩ |
    ⟨s', hc, he, hd, hr, -, -, -, e⟩
  · obtain rfl : (s.withAgenda rest).applyReset = t := by simpa [e] using ht
    exact State.inv_applyReset h.cfg_legal
  · rw [e, ← State.busy_withAgenda s rest] at ht
    exact access_inv (s := s.withAgenda rest) (h.congr rfl rfl rfl rfl) ht
  · rw [e, ← State.opOf_congr he hd] at ht
    exact exec_opOf_inv (h.congr hc he hd hr) ((State.busy_congr he hd u).trans hb) ht
  · obtain rfl : s' = t := by simpa [e] using ht
    exact h.congr hc he hd hr

end Sys2Proof.Machine
end

section
/-! The decoder's image (43_codec_laws.md R86), and the alphabet of the texts (R81). -/

namespace Sys2Proof.Machine

/-- Settles O52: `DECODE` answers a payload exactly on its text; so two payloads with one text are the one payload that
`DECODE` answers on it. -/
theorem decoderAcceptsExactlyTheEncodersImage : Obligations.DecoderAcceptsExactlyTheEncodersImage := by
  refine ⟨decodeText_eq_ok_iff, fun p q h => ?_⟩
  have hp := (decodeText_eq_ok_iff (encodeBytes p) p).mpr rfl
  have hq := (decodeText_eq_ok_iff (encodeBytes p) q).mpr h
  exact Except.ok.inj (hp.symm.trans hq)

/-- A digit below `k` has one of the first `k` characters. -/
theorem a2c_mem_take_alutRom {d : Digit} {k : Nat} (h : d.val < k) : a2c d ∈ alutRom.take k := by
  obtain ⟨c, hc, e⟩ := exists_mem_take_alutRom h d.isLt
  rwa [← Option.some.inj ((alutRom_getElem? d).symm.trans e)] at hc

/-- Settles O50: a text is the characters of digits; the third digit of a chunk is at most 65535 / 2025, the second of
a byte at most 255 / 45. -/
theorem encodedTextsStayInTheAlphabet : Obligations.EncodedTextsStayInTheAlphabet := by
  refine ⟨fun p c hc => ?_, fun p k hk => ?_, fun p hodd => ?_⟩
  · rw [← map_a2c_payloadDigits] at hc
    obtain ⟨d, -, rfl⟩ := List.mem_map.mp hc
    exact a2c_mem_alutRom d
  · have h0 := List.getElem?_eq_getElem (l := p) (i := 2 * k) (by omega)
    have h1 := List.getElem?_eq_getElem (l := p) (i := 2 * k + 1) (by omega)
    refine ⟨a2c (dig45 (pack16 p[2 * k] p[2 * k + 1]) .twentyTwentyFives), ?_, a2c_mem_take_alutRom ?_⟩
    · rw [← List.getElem?_drop, drop_encodeBytes, drop_eq_chunk_append h0 h1]
      rfl
    · rw [dig45_twentyTwentyFives]
      omega
  · obtain ⟨b, -, hdrop⟩ := drop_full_chunks_of_odd hodd
    have hb := b.isLt
    refine ⟨a2c (dig45 (b.zeroExtend 16) .fortyFives), ?_, a2c_mem_take_alutRom ?_⟩
    · have hlen := length_encodeBytes p
      rw [List.getLast?_eq_getElem?, show (encodeBytes p).length - 1 = 3 * (p.length / 2) + 1 by omega,
        ← List.getElem?_drop, drop_encodeBytes, hdrop]
      rfl
    · rw [dig45_fortyFives, BitVec.toNat_setWidth]
      omega

end Sys2Proof.Machine
end

section
/-! The arithmetic of the datapath (40_encoder_ops.md R47; 41_decoder_ops.md R56; 43_codec_laws.md R79). -/

namespace Sys2Proof

/-- Settles O12: the digits as numbers, and the bound of the value. -/
theorem digitsRebuildTheValue : Obligations.DigitsRebuildTheValue := by
  intro v
  have hv := v.isLt
  simp only [dig45_ones, dig45_fortyFives, dig45_twentyTwentyFives]
  refine ⟨trivial, trivial, trivial, ?_, ?_, fun _ => ⟨?_, ?_, ?_⟩, fun _ => ?_, ?_⟩ <;> omega

/-- Settles O13: the sum is exact and each digit is below 45. -/
theorem mac45RebuildsTheValue : Obligations.Mac45RebuildsTheValue := by
  refine ⟨fun d0 d1 d2 => ?_, mac45_dig45_toNat⟩
  have h0 := d0.isLt
  have h1 := d1.isLt
  have h2 := d2.isLt
  rw [Machine.mac45_zero_toNat, mac45_toNat]
  refine ⟨rfl, ?_, ?_, ?_, ?_⟩ <;> omega

/-- Settles O15: `45 * 11651 = 2^19 + 7`, `2025 * 66281 = 2^27 + 1297` and `45 * 365 = 2^14 + 41`, and on the stated
ranges the excess is too small to reach the next quotient. -/
theorem reciprocalsAreExact : Obligations.ReciprocalsAreExact := by
  intro v
  have hv := v.isLt
  have h45 : v.toNat / 45 = v.toNat * 11651 / 2 ^ 19 := by omega
  have h2025 : v.toNat / 2025 = v.toNat * 66281 / 2 ^ 27 := by
    rw [show 2 ^ 27 = 134217728 from rfl]
    omega
  simp only [dig45_ones, dig45_fortyFives, dig45_twentyTwentyFives, ← h45, ← h2025]
  clear h45 h2025
  refine ⟨trivial, trivial, by omega, trivial, trivial, fun hle => ?_⟩
  have h365 : v.toNat / 45 = v.toNat * 365 / 2 ^ 14 := by omega
  exact ⟨h365, by rw [← h365, Nat.mod_eq_of_lt (by omega)]⟩

end Sys2Proof
end

section
/-! The code words (30_encoding.md R39, R40, R43): the instructions a decoder answers have operands that their fields
allow, and the descriptor written out bit by bit. -/

namespace Sys2Proof

/-! ### Dispatch keys -/

/-- A key's operation is that of a row of the table, so it has no operand. -/
theorem wellFormed_of_decodeKey (cfg : Config) {k : BitVec 5} {i : Instr} (h : decodeKey k = .ok i) :
    WellFormed cfg i = true := by
  unfold decodeKey at h
  split at h
  · rename_i r hr
    cases h
    have hmem := List.mem_of_find?_eq_some hr
    simp only [dispatchRows, List.mem_cons, List.not_mem_nil, or_false] at hmem
    rcases hmem with rfl | rfl | rfl | rfl | rfl | rfl | rfl | rfl | rfl <;> rfl
  · cases h

/-- A key that no row of the table covers has UNIT 0 and PHASE 1. -/
theorem unassignedKey_bits {k : BitVec 5} {r : Reject} (h : decodeKey k = .error r) :
    r = .unassignedKey k ∧ k.getLsbD 4 = false ∧ k.getLsbD 3 = true := by
  have hk : ∀ k : BitVec 5, (dispatchRows.find? (·.applies k)).isSome = true ∨
      k.getLsbD 4 = false ∧ k.getLsbD 3 = true := by decide
  unfold decodeKey at h
  split at h
  · cases h
  · rename_i hn
    cases h
    refine ⟨rfl, (hk k).resolve_left ?_⟩
    simp [hn]

/-! ### Host accesses -/

/-- What a presentable access's fields allow (R40, R71). -/
theorem HostAccess.wellFormed_descOf {cfg : Config} {u : UnitId} {sp : Space} {we : Bool} {i d : Nat}
    (h : HostAccess.WellFormed cfg ⟨descOf u sp we, i, d⟩ = true) :
    cfg.dataFits d = true ∧ (sp = .ibuf → we = true → i < cfg.inEntries u) := by
  rw [HostAccess.WellFormed, Bool.and_eq_true] at h
  obtain ⟨hd, hi⟩ := h
  refine ⟨hd, ?_⟩
  rintro rfl rfl
  cases u <;> exact of_decide_eq_true hi

theorem wellFormed_decodeRegWrite {cfg : Config} {d : Nat} (h : cfg.dataFits d = true) (busy : Bool) (u : UnitId)
    (r : RegNum) : WellFormed cfg (decodeRegWrite busy u r d) = true := by
  unfold decodeRegWrite
  split_ifs
  · cases u <;> rfl
  · exact h

theorem wellFormed_hill_read (cfg : Config) {k : IllegalKind} (hk : k.isRead = true) (u : UnitId) {i : Nat}
    (hi : k = .regRead → 4 ≤ i) : WellFormed cfg (.hill u k i 0) = true := by
  cases k
  case ibufRead => rfl
  case reservedRead => rfl
  case regRead => simp [WellFormed, IllegalKind.isRead, hi rfl]
  all_goals cases hk

theorem wellFormed_hill_write {cfg : Config} {k : IllegalKind} (hk : k.isRead = false) (u : UnitId) {i d : Nat}
    (hd : cfg.dataFits d = true) (hi : k = .regWrite → 4 ≤ i) : WellFormed cfg (.hill u k i d) = true := by
  cases k
  case obufWrite => exact hd
  case reservedWrite => exact hd
  case regWrite => simp [WellFormed, IllegalKind.isRead, hi rfl, hd]
  all_goals cases hk

/-- Every presentable access decodes to a well-formed instruction, by its space and direction. -/
theorem wellFormed_decodeAccess {cfg : Config} {a : HostAccess} (h : a.WellFormed cfg = true) (busy : Bool) :
    WellFormed cfg (decodeAccess busy a) = true := by
  rw [a.eq_mk_descOf] at h ⊢
  generalize a.unit = u, a.space = sp, a.we = we, a.index = i, a.data = d at h ⊢
  obtain ⟨hd, hi⟩ := HostAccess.wellFormed_descOf h
  cases sp <;> cases we
  · rw [decodeAccess_reg_read]
    cases hr : RegNum.ofIndex? i with
    | some r => rfl
    | none => exact wellFormed_hill_read cfg rfl u fun _ => RegNum.ofIndex?_eq_none.mp hr
  · rw [decodeAccess_reg_write]
    cases hr : RegNum.ofIndex? i with
    | some r => exact wellFormed_decodeRegWrite hd busy u r
    | none => exact wellFormed_hill_write rfl u hd fun _ => RegNum.ofIndex?_eq_none.mp hr
  · rw [decodeAccess_ibuf_read]
    exact wellFormed_hill_read cfg rfl u nofun
  · rw [decodeAccess_ibuf_write, WellFormed, hd, Bool.and_true]
    exact decide_eq_true (hi rfl rfl)
  · rw [decodeAccess_obuf_read]
    rfl
  · rw [decodeAccess_obuf_write]
    exact wellFormed_hill_write rfl u hd nofun
  · rw [decodeAccess_reserved_read]
    exact wellFormed_hill_read cfg rfl u nofun
  · rw [decodeAccess_reserved_write]
    exact wellFormed_hill_write rfl u hd nofun

/-! ### Character codes -/

theorem wellFormed_of_symIndex? (cfg : Config) {i : Instr} {d : Digit} (h : i.symIndex? = some d) :
    WellFormed cfg i = true := by
  cases i <;> cases h <;> rfl

theorem wellFormed_decodeChar (cfg : Config) (c : Byte) : WellFormed cfg (decodeChar c) = true := by
  rcases decodeChar_cases c with ⟨d, -, hd⟩ | ⟨hn, hc⟩
  · exact wellFormed_of_symIndex? cfg hd
  · rw [hc, WellFormed, hn, Option.isNone_none]

/-- Settles O2: each of the three formats has its lemma; only a key can be rejected. -/
theorem decoderAnswersWellFormedInstructions : Obligations.DecoderAnswersWellFormedInstructions := by
  intro cfg busy c hwf
  cases c with
  | key k => exact ⟨fun i hi => wellFormed_of_decodeKey cfg hi, fun r hr => ⟨k, rfl, unassignedKey_bits hr⟩⟩
  | access a =>
    refine ⟨fun i hi => ?_, nofun⟩
    cases hi
    exact wellFormed_decodeAccess hwf busy
  | char c =>
    refine ⟨fun i hi => ?_, nofun⟩
    cases hi
    exact wellFormed_decodeChar cfg c

/-! ### The descriptor bit by bit -/

/-- The four bits `{UNIT, SPACE, WE}` of a descriptor (R40). -/
theorem decodeAccess_append {w : BitVec 3} (busy : Bool) (u : UnitId) (sp : Space) (we : Bool) (i d : Nat)
    (hw : w = BitVec.ofNat 3 (2 * sp.code + we.toNat)) :
    decodeAccess busy ⟨BitVec.ofBool (Machine.unitBit u) ++ w, i, d⟩ = decodeAccess busy ⟨descOf u sp we, i, d⟩ := by
  subst hw
  cases u <;> cases sp <;> cases we <;> rfl

/-- Settles O5: the decoding of each descriptor by its space and direction. -/
theorem descriptorSelectsTheAccess : Obligations.DescriptorSelectsTheAccess := by
  intro busy u i d
  refine ⟨fun r => ?_, fun r hr => ?_, ?_, ?_, ?_, ?_, ?_, ?_, ?_, fun hi => ?_, fun hi => ?_⟩
  · refine (decodeAccess_append busy u .reg false r.index d rfl).trans ?_
    rw [decodeAccess_reg_read, RegNum.ofIndex?_index]
  · refine (decodeAccess_append busy u .reg true r.index d rfl).trans ?_
    rw [decodeAccess_reg_write, RegNum.ofIndex?_index]
    exact if_neg fun h => hr h.1
  · refine (decodeAccess_append busy u .reg true 0 d rfl).trans ?_
    rw [decodeAccess_ctrl_write, decodeRegWrite]
    simp only [true_and]
  · exact (decodeAccess_append busy u .ibuf true i d rfl).trans (decodeAccess_ibuf_write busy u i d)
  · exact (decodeAccess_append busy u .obuf false i d rfl).trans (decodeAccess_obuf_read busy u i d)
  · exact (decodeAccess_append busy u .ibuf false i d rfl).trans (decodeAccess_ibuf_read busy u i d)
  · exact (decodeAccess_append busy u .obuf true i d rfl).trans (decodeAccess_obuf_write busy u i d)
  · exact (decodeAccess_append busy u .reserved false i d rfl).trans (decodeAccess_reserved_read busy u i d)
  · exact (decodeAccess_append busy u .reserved true i d rfl).trans (decodeAccess_reserved_write busy u i d)
  · refine (decodeAccess_append busy u .reg false i d rfl).trans ?_
    rw [decodeAccess_reg_read, RegNum.ofIndex?_eq_none.mpr hi]
  · refine (decodeAccess_append busy u .reg true i d rfl).trans ?_
    rw [decodeAccess_reg_write, RegNum.ofIndex?_eq_none.mpr hi]

end Sys2Proof
end

section
/-! Turns and steps (10_state.md R9; 20_memory.md R29; 42_host_transactions.md R68; 70_reset_and_hazards.md R97). -/

namespace Sys2Proof.Machine

/-- Settles O6: the two definitions `step` and `runCode` at that turn. -/
theorem stepRunsTheDecodedInstruction : Obligations.StepRunsTheDecodedInstruction := by
  intro s s' c i ht hi
  simp only [step, ht, runCode, hi]

/-- Settles O7: the head of the agenda gives the turn; with an empty agenda the units that are BUSY do. -/
theorem turnsFollowTheAgenda : Obligations.TurnsFollowTheAgenda := by
  intro s rest
  refine ⟨fun a h => ?_, fun u h hb => ?_, fun u h hb => step_seq_idle h hb, step_free_idle, fun u h hb ho => ?_,
    fun h he hd => ⟨Config.freeUnit s.draws, ?_⟩⟩
  · simp only [State.turn, h]
  · simp only [State.turn, h, State.seqTurn_of_busy hb]
  · cases u with
    | enc => simp only [State.turn, h, State.freeTurn, hb, ho .dec nofun, State.seqTurn_of_busy hb]
    | dec => simp only [State.turn, h, State.freeTurn, hb, ho .enc nofun, State.seqTurn_of_busy hb]
  · have hb : s.busy (Config.freeUnit s.draws) = true := by
      cases Config.freeUnit s.draws <;> assumption
    simp only [State.turn, h, State.freeTurn, he, hd, State.seqTurn_of_busy hb]

/-- An access leaves the events to come as they are. -/
theorem access_agenda {s t : State} {a : HostAccess} (h : exec (decodeAccess (s.busy a.unit) a) s = .next t) :
    t.agenda = s.agenda := by
  obtain ⟨t', e, hc⟩ := access_cases s a
  obtain rfl : t' = t := by simpa [e] using h
  rcases hc with rfl | ⟨v, rfl, -⟩ | rfl | ⟨w, -, -, rfl⟩ | ⟨w, v, -, rfl⟩ | ⟨w, i, v, -, rfl⟩
  · rfl
  · rfl
  · rfl
  · exact s.start_agenda w
  · exact s.writeIlen_agenda w v
  · exact s.writeIbuf_agenda w i v

/-- Settles O8: by everything an access can do. -/
theorem everyAccessCompletesInItsStep : Obligations.EveryAccessCompletesInItsStep := by
  intro s a rest h
  obtain ⟨t, ht, -⟩ := access_cases (s.withAgenda rest) a
  have hs := step_access h
  rw [← State.busy_withAgenda s rest] at hs
  exact ⟨step_access h, t, hs.trans ht, access_agenda ht⟩

/-- Settles O39: a reset step applies the reset to the state with the event taken off. -/
theorem resetMapsAnyStateToTheResetState : Obligations.ResetMapsAnyStateToTheResetState :=
  fun _ _ h => step_reset h

/-! ### The frame of a sequencer's step -/

theorem exec_encOpOf_eq_withEnc {s t : State} {n : Nat} (h : exec (encOpOf n) s = .next t) : ∃ e, t = s.withEnc e := by
  rcases exec_encOpOf h with ⟨-, rfl⟩ | ⟨-, v, d0, d1, -, rfl⟩ | ⟨-, v, d0, d1, d2, -, rfl⟩ <;> exact ⟨_, rfl⟩

theorem exec_decOpOf_eq_withDec {s t : State} {p : Phase} {n : Nat} (h : exec (decOpOf p n) s = .next t) :
    ∃ d, t = s.withDec d := by
  rcases exec_decOpOf h with ⟨-, -, rfl⟩ | ⟨-, -, c, -, rfl⟩ | ⟨-, -, rfl⟩ | ⟨-, -, rfl⟩ |
    ⟨-, -, v, d0, d1, rfl | ⟨b, -, rfl⟩⟩ | ⟨-, -, v, d0, d1, d2, rfl | ⟨b0, b1, -, rfl⟩⟩
  · split_ifs <;> exact ⟨_, rfl⟩
  · cases c2d c <;> exact ⟨_, rfl⟩
  all_goals exact ⟨_, rfl⟩

/-- What an operation of unit `u` leaves as it is outside its unit. -/
theorem exec_opOf_frame {s s' t : State} {u : UnitId} (h : exec (s.opOf u) s' = .next t) :
    t.cfg = s'.cfg ∧ t.hrdata = s'.hrdata ∧ t.draws = s'.draws ∧ t.agenda = s'.agenda ∧
      (u = .enc → t.dec = s'.dec) ∧ (u = .dec → t.enc = s'.enc) := by
  cases u
  · obtain ⟨e, rfl⟩ := exec_encOpOf_eq_withEnc h
    exact ⟨rfl, rfl, rfl, rfl, fun _ => rfl, nofun⟩
  · obtain ⟨d, rfl⟩ := exec_decOpOf_eq_withDec h
    exact ⟨rfl, rfl, rfl, rfl, nofun, fun _ => rfl⟩

/-- Settles O44: an idle turn changes nothing; an operation has its frame, and keeps every input. -/
theorem sequencerStepStaysInItsUnit : Obligations.SequencerStepStaysInItsUnit := by
  intro s t u rest ha ht
  cases hb : s.busy u with
  | false =>
    obtain rfl : s.withAgenda rest = t := by simpa [step_seq_idle ha hb] using ht
    obtain ⟨hi, hl⟩ := State.sameInput_of_units_eq (s := s) (t := s.withAgenda rest) rfl rfl u
    exact ⟨rfl, rfl, rfl, rfl, fun _ => rfl, fun _ => rfl, hi, hl, fun _ => rfl⟩
  | true =>
    rw [step_seq_busy ha hb] at ht
    obtain ⟨hc, hr, hd, hag, hdec, henc⟩ := exec_opOf_frame ht
    obtain ⟨hi, hl⟩ := (exec_opOf_sameInput ht u).congr_left (s := s) rfl rfl
    exact ⟨hc, hr, hd, hag, hdec, henc, hi, hl, nofun⟩

end Sys2Proof.Machine
end

section
/-! Reads of unwritten input (93_implementation_defined.md U1; 70_reset_and_hazards.md R98): they fault, and with the
invariant nothing else does. -/

namespace Sys2Proof.Machine

/-- Settles O28: an operation reads its entries in order; the first unwritten one faults. -/
theorem unwrittenInputFaults : Obligations.UnwrittenInputFaults := by
  intro s
  refine ⟨fun h => ⟨?_, ?_⟩, fun b h0 h1 => ?_, fun h => ⟨?_, ?_, ?_⟩, fun b h0 h1 => ⟨?_, ?_⟩, fun b b' h0 h1 h2 => ?_⟩
  · exact State.fetchEntry_of_unwritten (u := .enc) h _
  · exact State.fetchEntry_of_unwritten (u := .enc) h _
  · exact (State.fetchEntry_of_read (u := .enc) h0 _).trans (State.fetchEntry_of_unwritten (u := .enc) h1 _)
  · exact State.fetchEntry_of_unwritten (u := .dec) h _
  · exact State.fetchEntry_of_unwritten (u := .dec) h _
  · exact State.fetchEntry_of_unwritten (u := .dec) h _
  · exact (State.fetchEntry_of_read (u := .dec) h0 _).trans (State.fetchEntry_of_unwritten (u := .dec) h1 _)
  · exact (State.fetchEntry_of_read (u := .dec) h0 _).trans (State.fetchEntry_of_unwritten (u := .dec) h1 _)
  · exact (State.fetchEntry_of_read (u := .dec) h0 _).trans
      ((State.fetchEntry_of_read (u := .dec) h1 _).trans (State.fetchEntry_of_unwritten (u := .dec) h2 _))

/-- With the invariant the encoder has room, so only an unwritten entry can fault. -/
theorem exec_encOpOf_fault_of_inv {s : State} {f : Fault} (h : s.Inv) (hb : s.enc.state = .busy)
    (hf : exec (encOpOf (s.enc.ilen - s.enc.rp)) s = .fault f) :
    ∃ i, f = .ibufUnwritten .enc i ∧ i < s.enc.ilen ∧ s.enc.ibuf.read i = none := by
  rcases exec_encOpOf_fault hf with ⟨i, hlo, hhi, hn, rfl⟩ | ⟨hpos, hroom⟩
  · exact ⟨i, rfl, by omega, hn⟩
  · have hle := h.enc_inv.room h.cfg_legal hb (by omega)
    omega

/-- With the invariant the decoder's groups hold digits and have room, so only an unwritten entry can fault. -/
theorem exec_decOpOf_fault_of_inv {s : State} {f : Fault} (h : s.Inv) (hb : s.dec.state = .busy)
    (hf : exec (decOpOf s.dec.phase (s.dec.ilen - s.dec.rp)) s = .fault f) :
    ∃ i, f = .ibufUnwritten .dec i ∧ i < s.dec.ilen ∧ s.dec.ibuf.read i = none := by
  rcases exec_decOpOf_fault hf with ⟨i, hlo, hhi, hn, rfl⟩ | ⟨hp, i, c, hlo, hhi, hc, hn⟩ | ⟨hp, hpos, hroom⟩
  · exact ⟨i, rfl, by omega, hn⟩
  · have hdig := h.dec_inv.group_digits hb hp i (by omega)
    simp [hc, hn] at hdig
  · have hle := h.dec_inv.room hb hp (by omega)
    omega

/-- Settles O43: only an operation of a BUSY unit can fault. -/
theorem onlyUnwrittenInputCanFault : Obligations.OnlyUnwrittenInputCanFault := by
  intro s f hinv hf
  rcases step_cases s with ⟨rest, -, e⟩ | ⟨a, rest, ha, -⟩ | ⟨u, s', hb, hc, he, hd, hr, -, -, -, e⟩ |
    ⟨s', -, -, -, -, -, -, -, e⟩
  · cases e.symm.trans hf
  · obtain ⟨-, t, ht, -⟩ := everyAccessCompletesInItsStep s a rest ha
    cases ht.symm.trans hf
  · have hinv' := hinv.congr hc he hd hr
    rw [e, ← State.opOf_congr he hd] at hf
    cases u
    · rw [State.busy_enc, beq_iff_eq] at hb
      obtain ⟨i, rfl, hi, hn⟩ := exec_encOpOf_fault_of_inv hinv' (he ▸ hb) hf
      rw [he] at hi hn
      exact ⟨.enc, i, rfl, beq_iff_eq.mpr hb, hi, hn⟩
    · rw [State.busy_dec, beq_iff_eq] at hb
      obtain ⟨i, rfl, hi, hn⟩ := exec_decOpOf_fault_of_inv hinv' (hd ▸ hb) hf
      rw [hd] at hi hn
      exact ⟨.dec, i, rfl, beq_iff_eq.mpr hb, hi, hn⟩
  · cases e.symm.trans hf

end Sys2Proof.Machine
end

section
/-! The rows of the alphabet (30_encoding.md R32, R34; 41_decoder_ops.md R59). -/

namespace Sys2Proof.Machine

/-- A SYM row is the scan of a digit. -/
theorem exec_of_symIndex? {i : Instr} {d : Digit} (h : i.symIndex? = some d) (s : State) :
    exec i s = .next (s.scanChar (some d)) := by
  cases i <;> cases h <;> rfl

theorem exec_invalidChar (c : Byte) (s : State) : exec (.invalidChar c) s = .next (s.scanChar none) := rfl

/-- Settles O29: the two outcomes of the scan; the row of a digit is that of its character. -/
theorem symbolRowsPassAndInvalidCharFails : Obligations.SymbolRowsPassAndInvalidCharFails :=
  ⟨fun _ _ s h => exec_of_symIndex? h s, exec_invalidChar,
    fun d => ⟨decodeChar (a2c d), symIndex?_decodeChar_of_c2d_eq_some (c2d_a2c d)⟩⟩

/-- The row of a character does the check of that character. -/
theorem exec_decodeChar (c : Byte) (s : State) : exec (decodeChar c) s = .next (s.scanChar (c2d c)) := by
  rcases decodeChar_cases c with ⟨d, hd, hi⟩ | ⟨hn, hi⟩
  · rw [hd, exec_of_symIndex? hi]
  · rw [hn, hi, exec_invalidChar]

/-- Settles O30: both are the check of the character. -/
theorem scanRunsTheRowOfTheCharacter : Obligations.ScanRunsTheRowOfTheCharacter := by
  intro s c hc
  have hs := exec_decScan_of_written hc
  exact ⟨hs.trans (exec_decodeChar c s).symm, _, hs⟩

end Sys2Proof.Machine
end

section
/-! The tails of a message (40_encoder_ops.md R51; 41_decoder_ops.md R62): ENC1 encodes an odd last byte, DEC2 decodes a
last group of two characters. -/

namespace Sys2Proof.Machine

/-! ### ENC1 -/

theorem encOpOf_eq_enc1 (n : Nat) : encOpOf n = .enc1 ↔ n = 1 := by
  unfold encOpOf
  split_ifs with h0 h1
  · simp [h0]
  · simp [h1]
  · simp [h1]

/-- ENC1 with its byte written answers the byte's digits and its group, if there is room. -/
theorem exec_enc1_of_read {s : State} {b : Byte} (h : s.enc.ibuf.read s.enc.rp = some b) :
    exec .enc1 s = s.withRoom .enc 2 (.next (s.withEnc ((s.enc.latch2 (b.zeroExtend 16)
      (dig45 (b.zeroExtend 16) .ones) (dig45 (b.zeroExtend 16) .fortyFives)).advance 1 (tailGroup b)))) :=
  State.fetchEntry_of_read (u := .enc) h _

/-- A byte as a value of the encoder's datapath. -/
theorem zeroExtend_toNat (b : Byte) : (b.zeroExtend 16).toNat = b.toNat := by
  have hb := b.isLt
  rw [BitVec.toNat_setWidth]
  omega

theorem dig45_zeroExtend_ones (b : Byte) : (dig45 (b.zeroExtend 16) .ones).val = b.toNat % 45 := by
  rw [dig45_ones, zeroExtend_toNat]

/-- The second digit of a byte needs no reduction: it is at most 5. -/
theorem dig45_zeroExtend_fortyFives (b : Byte) : (dig45 (b.zeroExtend 16) .fortyFives).val = b.toNat / 45 := by
  have hb := b.isLt
  rw [dig45_fortyFives, zeroExtend_toNat]
  omega

/-- The two entries of the tail group. -/
theorem Memory.read_writeList_tailGroup (m : Memory) (i j : Nat) (b : Byte) :
    (m.writeList i (tailGroup b)).read j =
      if j = i then alutRom[b.toNat % 45]? else if j = i + 1 then alutRom[b.toNat / 45]? else m.read j := by
  rw [tailGroup, Memory.read_writeList_pair, ← alutRom_getElem?, ← alutRom_getElem?, dig45_zeroExtend_ones,
    dig45_zeroExtend_fortyFives]

/-- Settles O18: ENC1 is the operation of remaining count 1; its characters are those of the two digits of a byte. -/
theorem enc1EncodesTheTailByte : Obligations.Enc1EncodesTheTailByte := by
  refine ⟨fun s => ?_, fun s b hb hr => ?_, fun s hinv hsel => ?_, fun b => ?_⟩
  · rw [State.selects_enc_iff, encOpOf_eq_enc1]
  · refine ⟨s.enc.obuf.writeList s.enc.wp (tailGroup b), ?_, fun j => ?_⟩
    · rw [exec_enc1_of_read hb, State.withRoom_of_le (u := .enc) hr, ← dig45_zeroExtend_ones,
        ← dig45_zeroExtend_fortyFives, BitVec.ofNat_toNat]
      rfl
    · rw [Memory.read_writeList_tailGroup]
      by_cases hlt : 45 ≤ b.toNat
      · rw [if_pos hlt]
      · rw [if_neg hlt, Nat.div_eq_of_lt (by omega)]
  · rw [State.selects_enc_iff, encOpOf_eq_enc1] at hsel
    obtain ⟨hb, hn⟩ := hsel
    have hroom := hinv.enc_inv.room hinv.cfg_legal hb (by omega)
    exact ⟨by omega, by omega⟩
  · have hb := b.isLt
    exact exists_mem_take_alutRom (by omega) (by omega)

/-! ### DEC2 -/

theorem decOpOf_eq_dec2 (p : Phase) (n : Nat) : decOpOf p n = .dec2 ↔ p = .group ∧ n = 2 := by
  cases p
  · rw [decOpOf_scan]
    split_ifs <;> simp
  · rw [decOpOf_group]
    split_ifs <;> simp <;> omega

theorem State.selects_dec2_iff (s : State) :
    s.Selects .dec .dec2 ↔ s.dec.state = .busy ∧ s.dec.phase = .group ∧ s.dec.ilen - s.dec.rp = 2 := by
  rw [State.selects_dec_iff, decOpOf_eq_dec2]

/-- DEC2 with two digits written: a value above 255 fails, a legal one gives its byte if there is room. -/
theorem exec_dec2_of_digits {s : State} {c0 c1 : Byte} {d0 d1 : Digit} (r0 : s.dec.ibuf.read s.dec.rp = some c0)
    (r1 : s.dec.ibuf.read (s.dec.rp + 1) = some c1) (h0 : c2d c0 = some d0) (h1 : c2d c1 = some d1) :
    exec .dec2 s =
      if 255 < (mac45 d0 d1 0).toNat then
        .next ((s.withDec (s.dec.latch2 (mac45 d0 d1 0) d0 d1)).decFail .range8)
      else
        s.withRoom .dec 1 (.next (s.withDec ((s.dec.latch2 (mac45 d0 d1 0) d0 d1).advance 2
          [(mac45 d0 d1 0).truncate 8]))) := by
  have he : exec .dec2 s = execDec2 s := rfl
  rw [he, execDec2, State.fetchEntry_of_read (u := .dec) r0, State.fetchEntry_of_read (u := .dec) r1,
    withGroupDigit_of_digit h0, withGroupDigit_of_digit h1]

/-- Settles O25: DEC2 is the operation of remaining count 2 in the group phase; the value is exact, and a legal one
keeps its byte; the invariant gives the digits and the room. -/
theorem dec2DecodesTheTailGroup : Obligations.Dec2DecodesTheTailGroup := by
  refine ⟨State.selects_dec2_iff, fun s c0 c1 d0 d1 r0 r1 h0 h1 => ?_, fun s hinv h => ?_⟩
  · have hv := mac45_zero_toNat d0 d1
    rw [exec_dec2_of_digits r0 r1 h0 h1, ← hv]
    refine ⟨fun hlt => ?_, fun hle hr => ⟨s.dec.obuf.writeList s.dec.wp
      [BitVec.ofNat 8 (mac45 d0 d1 0).toNat], ?_, fun j => ?_⟩⟩
    · rw [if_pos hlt, BitVec.ofNat_toNat, BitVec.setWidth_eq]
      rfl
    · rw [if_neg (by omega), State.withRoom_of_le (u := .dec) hr, BitVec.ofNat_toNat, BitVec.ofNat_toNat,
        BitVec.setWidth_eq]
      rfl
    · rw [Memory.read_writeList_cons, Memory.writeList_nil]
  · obtain ⟨hb, hp, h2⟩ := s.selects_dec2_iff.mp h
    have hroom := hinv.dec_inv.room hb hp (by omega)
    exact ⟨by omega, fun k hk => hinv.dec_inv.group_digits hb hp _ (by omega)⟩

end Sys2Proof.Machine
end

section
/-! Runs of the machine, and the progress of BUSY units when no event is left to come (70_reset_and_hazards.md R100): a
step of a BUSY unit completes, and leaves it less work. -/

namespace Sys2Proof.Machine

/-! ### Runs -/

theorem coreRun_succ {M : Host.Core} {k : Nat} {s t : M.State} (h : M.step s = .next t) :
    M.run (k + 1) s = M.run k t := by
  rw [Host.Core.run, h]

theorem exists_step_of_coreRun {M : Host.Core} {k : Nat} {s t : M.State} (h : M.run (k + 1) s = .next t) :
    ∃ s1, M.step s = .next s1 ∧ M.run k s1 = .next t := by
  rw [Host.Core.run] at h
  split at h
  · exact ⟨_, ‹_›, h⟩
  · cases h
  · cases h

theorem run_zero (s : State) : core.run 0 s = .next s := rfl

theorem run_succ {k : Nat} {s t : State} (h : step s = .next t) : core.run (k + 1) s = core.run k t :=
  coreRun_succ (M := core) h

/-- A run that answers a next state takes its first step. -/
theorem exists_step_of_run {k : Nat} {s t : State} (h : core.run (k + 1) s = .next t) :
    ∃ s1 : State, step s = .next s1 ∧ core.run k s1 = .next t :=
  exists_step_of_coreRun (M := core) h

theorem run_add {j k : Nat} {s t : State} (h : core.run j s = .next t) : core.run (j + k) s = core.run k t := by
  induction j generalizing s with
  | zero =>
    cases h
    rw [Nat.zero_add]
  | succ j ih =>
    obtain ⟨s1, hs, h⟩ := exists_step_of_run h
    rw [Nat.succ_add, run_succ hs, ih h]

/-- One more step at the end of a run. -/
theorem run_succ_right {k : Nat} {s t t' : State} (h : core.run k s = .next t) (hs : step t = .next t') :
    core.run (k + 1) s = .next t' := by
  rw [run_add h, run_succ hs, run_zero]

/-- What neither faults nor refuses answers a next state. -/
theorem exists_next {r : Result} (hf : ∀ f, r ≠ .fault f) (hr : ∀ q, r ≠ .refused q) : ∃ t, r = .next t := by
  cases r with
  | next t => exact ⟨t, rfl⟩
  | fault f => exact absurd rfl (hf f)
  | refused q => exact absurd rfl (hr q)

/-! ### The work a unit has left -/

/-- A bound on the steps a BUSY encoder still takes. -/
def EncUnit.work (e : EncUnit) : Nat := if e.state = .busy then encSteps (e.ilen - e.rp) else 0

/-- A bound on the steps a BUSY decoder still takes, by its phase. -/
def DecUnit.work (d : DecUnit) : Nat :=
  if d.state = .busy then
    match d.phase with
    | .scan => d.ilen - d.rp + 1 + ((d.ilen + 2) / 3 + 1)
    | .group => (d.ilen - d.rp + 2) / 3 + 1
  else 0

theorem EncUnit.work_of_busy {e : EncUnit} (h : e.state = .busy) : e.work = encSteps (e.ilen - e.rp) := if_pos h

theorem EncUnit.work_of_not_busy {e : EncUnit} (h : e.state ≠ .busy) : e.work = 0 := if_neg h

theorem DecUnit.work_of_scan {d : DecUnit} (h : d.state = .busy) (hp : d.phase = .scan) :
    d.work = d.ilen - d.rp + 1 + ((d.ilen + 2) / 3 + 1) := by
  rw [work, if_pos h, hp]

theorem DecUnit.work_of_group {d : DecUnit} (h : d.state = .busy) (hp : d.phase = .group) :
    d.work = (d.ilen - d.rp + 2) / 3 + 1 := by
  rw [work, if_pos h, hp]

theorem DecUnit.work_of_not_busy {d : DecUnit} (h : d.state ≠ .busy) : d.work = 0 := if_neg h

theorem EncUnit.work_finish (e : EncUnit) : e.finish.work = 0 := work_of_not_busy nofun

theorem EncUnit.work_advance {e : EncUnit} (h : e.state = .busy) (n : Nat) (out : List Byte) :
    (e.advance n out).work = encSteps (e.ilen - (e.rp + n)) := work_of_busy h

theorem DecUnit.work_finish (d : DecUnit) : d.finish.work = 0 := work_of_not_busy nofun

theorem DecUnit.work_fail (d : DecUnit) (c : Cause) : (d.fail c).work = 0 := work_of_not_busy nofun

theorem DecUnit.work_advance {d : DecUnit} (h : d.state = .busy) (hp : d.phase = .group) (n : Nat) (out : List Byte) :
    (d.advance n out).work = (d.ilen - (d.rp + n) + 2) / 3 + 1 := work_of_group h hp

theorem DecUnit.work_scanned {d : DecUnit} (h : d.state = .busy) (hp : d.phase = .scan) :
    d.scanned.work = d.ilen - (d.rp + 1) + 1 + ((d.ilen + 2) / 3 + 1) := work_of_scan h hp

theorem DecUnit.work_toGroup {d : DecUnit} (h : d.state = .busy) : d.toGroup.work = (d.ilen + 2) / 3 + 1 :=
  work_of_group h rfl

theorem DecUnit.work_pos {d : DecUnit} (hb : d.state = .busy) : 0 < d.work := by
  cases hp : d.phase
  · rw [work_of_scan hb hp]
    exact Nat.succ_pos _
  · rw [work_of_group hb hp]
    exact Nat.succ_pos _

theorem EncUnit.work_le (e : EncUnit) : e.work ≤ encSteps e.ilen := by
  unfold work encSteps
  split_ifs <;> omega

theorem DecUnit.work_le (d : DecUnit) : d.work ≤ d.ilen + d.ilen / 3 + 3 := by
  by_cases hb : d.state = .busy
  · cases hp : d.phase
    · rw [work_of_scan hb hp]
      omega
    · rw [work_of_group hb hp]
      omega
  · rw [work_of_not_busy hb]
    omega

/-- An operation of a BUSY encoder leaves it less work. -/
theorem exec_encOpOf_work_lt {s t : State} (hb : s.enc.state = .busy)
    (h : exec (encOpOf (s.enc.ilen - s.enc.rp)) s = .next t) : t.enc.work < s.enc.work ∧ t.enc.state ≠ .idle := by
  rw [EncUnit.work_of_busy hb, encSteps]
  rcases exec_encOpOf h with ⟨-, rfl⟩ | ⟨hn, v, d0, d1, -, rfl⟩ | ⟨hn, v, d0, d1, d2, -, rfl⟩
  · refine ⟨?_, nofun⟩
    rw [State.withEnc_enc, EncUnit.work_finish]
    exact Nat.succ_pos _
  · refine ⟨?_, ne_of_eq_of_ne hb nofun⟩
    rw [State.withEnc_enc, EncUnit.work_advance (e := s.enc.latch2 v d0 d1) hb, encSteps, EncUnit.latch2_ilen,
      EncUnit.latch2_rp]
    omega
  · refine ⟨?_, ne_of_eq_of_ne hb nofun⟩
    rw [State.withEnc_enc, EncUnit.work_advance (e := s.enc.latch3 v d0 d1 d2) hb, encSteps, EncUnit.latch3_ilen,
      EncUnit.latch3_rp]
    omega

/-- An operation of a BUSY decoder leaves it less work: a failure and the end leave none. -/
theorem exec_decOpOf_work_lt {s t : State} (hb : s.dec.state = .busy)
    (h : exec (decOpOf s.dec.phase (s.dec.ilen - s.dec.rp)) s = .next t) :
    t.dec.work < s.dec.work ∧ t.dec.state ≠ .idle := by
  have failed (d : DecUnit) (c : Cause) : (d.fail c).work < s.dec.work ∧ (d.fail c).state ≠ .idle :=
    ⟨(d.work_fail c).trans_lt (DecUnit.work_pos hb), nofun⟩
  rcases exec_decOpOf h with ⟨hp, hn, rfl⟩ | ⟨hp, hn, c, -, rfl⟩ | ⟨-, -, rfl⟩ | ⟨-, -, rfl⟩ |
    ⟨hp, hn, v, d0, d1, rfl | ⟨b, -, rfl⟩⟩ | ⟨hp, hn, v, d0, d1, d2, rfl | ⟨b0, b1, -, rfl⟩⟩
  · split_ifs
    · exact failed _ _
    · refine ⟨?_, ne_of_eq_of_ne hb nofun⟩
      rw [DecUnit.work_of_scan hb hp, State.withDec_dec, DecUnit.work_toGroup hb]
      omega
  · cases c2d c with
    | none => exact failed _ _
    | some d =>
      refine ⟨?_, ne_of_eq_of_ne hb nofun⟩
      rw [DecUnit.work_of_scan hb hp, State.scanChar_some, State.withDec_dec, DecUnit.work_scanned hb hp]
      omega
  · exact ⟨s.dec.work_finish.trans_lt (DecUnit.work_pos hb), nofun⟩
  · exact failed _ _
  · exact failed _ _
  · refine ⟨?_, ne_of_eq_of_ne hb nofun⟩
    rw [DecUnit.work_of_group hb hp, State.withDec_dec, DecUnit.work_advance (d := s.dec.latch2 v d0 d1) hb hp,
      DecUnit.latch2_ilen, DecUnit.latch2_rp]
    omega
  · exact failed _ _
  · refine ⟨?_, ne_of_eq_of_ne hb nofun⟩
    rw [DecUnit.work_of_group hb hp, State.withDec_dec, DecUnit.work_advance (d := s.dec.latch3 v d0 d1 d2) hb hp,
      DecUnit.latch3_ilen, DecUnit.latch3_rp]
    omega

/-- The work both units have left. -/
def State.work (s : State) : Nat := s.enc.work + s.dec.work

/-- An operation of a BUSY unit leaves less work, and no unit becomes idle. -/
theorem exec_opOf_work_lt {s t : State} {u : UnitId} (hb : s.busy u = true) (h : exec (s.opOf u) s = .next t) :
    t.work < s.work ∧ (s.enc.state ≠ .idle → t.enc.state ≠ .idle) ∧ (s.dec.state ≠ .idle → t.dec.state ≠ .idle) := by
  unfold State.work
  cases u
  · obtain ⟨hlt, hne⟩ := exec_encOpOf_work_lt (beq_iff_eq.mp hb) h
    rw [exec_encOpOf_dec h]
    exact ⟨Nat.add_lt_add_right hlt _, fun _ => hne, id⟩
  · obtain ⟨hlt, hne⟩ := exec_decOpOf_work_lt (beq_iff_eq.mp hb) h
    rw [exec_decOpOf_enc h]
    exact ⟨Nat.add_lt_add_left hlt _, id, fun _ => hne⟩

/-- An operation of a BUSY unit makes no other unit BUSY. -/
theorem exec_opOf_busy {s t : State} {u w : UnitId} (hb : s.busy u = true) (h : exec (s.opOf u) s = .next t)
    (hw : t.busy w = true) : s.busy w = true := by
  cases u <;> cases w
  · exact hb
  · rwa [State.busy_dec, exec_encOpOf_dec h] at hw
  · rwa [State.busy_enc, exec_decOpOf_enc h] at hw
  · exact hb

/-! ### Progress -/

theorem UnitId.eq_or_eq {v w : UnitId} (h : v ≠ w) (u : UnitId) : u = v ∨ u = w := by
  cases u <;> cases v <;> cases w <;> simp_all

/-- With no event left and a BUSY unit, a step is an operation of a BUSY unit. -/
theorem exists_step_free {s : State} (h : s.agenda = []) {w : UnitId} (hw : s.busy w = true) :
    ∃ u s', s.busy u = true ∧ s'.enc = s.enc ∧ s'.dec = s.dec ∧ s'.agenda = [] ∧ step s = exec (s.opOf u) s' := by
  by_cases ho : ∀ v, v ≠ w → s.busy v = false
  · exact ⟨w, s, hw, rfl, rfl, h, step_free_one h hw ho⟩
  · simp only [not_forall, Bool.not_eq_false] at ho
    obtain ⟨v, hv, hvb⟩ := ho
    have hall (u : UnitId) : s.busy u = true := by
      rcases UnitId.eq_or_eq hv u with rfl | rfl <;> assumption
    exact ⟨Config.freeUnit s.draws, s.countDraw, hall _, rfl, rfl, h, step_free_both h (hall .enc) (hall .dec)⟩

/-- The state of a machine that runs on by itself: the invariant, no event to come, the input of its BUSY units
written. -/
structure State.RunsOn (s : State) : Prop where
  inv : s.Inv
  agenda : s.agenda = []
  written : ∀ u : UnitId, s.busy u = true → s.InputWritten u

/-- With the invariant and written input a step completes. -/
theorem State.RunsOn.exists_step {s : State} (h : s.RunsOn) : ∃ t, step s = .next t := by
  refine exists_next (fun f hf => ?_) (noStepRefuses s)
  obtain ⟨u, i, -, hb, hi, hn⟩ := onlyUnwrittenInputCanFault s f h.inv hf
  have hw := h.written u hb i hi
  simp [hn] at hw

/-- A step of a machine with a BUSY unit is an operation of a BUSY unit, and the machine still runs on. -/
theorem State.RunsOn.step {s : State} (h : s.RunsOn) {w : UnitId} (hw : s.busy w = true) :
    ∃ t, Machine.step s = .next t ∧ t.RunsOn ∧ t.work < s.work ∧ (s.enc.state ≠ .idle → t.enc.state ≠ .idle) ∧
      (s.dec.state ≠ .idle → t.dec.state ≠ .idle) := by
  obtain ⟨t, ht⟩ := h.exists_step
  obtain ⟨u, s', hb, he, hd, ha, e⟩ := exists_step_free h.agenda hw
  have hx : exec (s'.opOf u) s' = .next t := by rw [State.opOf_congr he hd, ← e, ht]
  have hb' : s'.busy u = true := (State.busy_congr he hd u).trans hb
  have hwork := exec_opOf_work_lt hb' hx
  rw [show s'.work = s.work by rw [State.work, State.work, he, hd], he, hd] at hwork
  obtain ⟨-, -, -, hag, -, -⟩ := exec_opOf_frame hx
  refine ⟨t, ht, ⟨everyStepKeepsTheInvariant s t h.inv ht, hag.trans ha, fun v hv => ?_⟩, hwork⟩
  obtain ⟨hi, hl⟩ := (exec_opOf_sameInput hx v).congr_left he hd
  have hs := h.written v ((State.busy_congr he hd v).symm.trans (exec_opOf_busy hb' hx hv))
  rwa [State.InputWritten, ← hi, ← hl] at hs

/-- The machine runs on until no unit is BUSY. -/
theorem State.RunsOn.exists_run {s : State} (h : s.RunsOn) :
    ∃ (k : Nat) (t : State), k ≤ s.work ∧ core.run k s = .next t ∧ t.busy .enc = false ∧ t.busy .dec = false ∧
      (s.enc.state ≠ .idle → t.enc.state ≠ .idle) ∧ (s.dec.state ≠ .idle → t.dec.state ≠ .idle) := by
  induction hn : s.work using Nat.strong_induction_on generalizing s with
  | _ n ih =>
    by_cases hw : ∃ w, s.busy w = true
    · obtain ⟨w, hw⟩ := hw
      obtain ⟨s1, hs, h1, hlt, henc, hdec⟩ := h.step hw
      obtain ⟨k, t, hk, hr, hte, htd, henc', hdec'⟩ := ih s1.work (hn ▸ hlt) h1 rfl
      exact ⟨k + 1, t, by omega, (run_succ hs).trans hr, hte, htd, henc' ∘ henc, hdec' ∘ hdec⟩
    · rw [not_exists] at hw
      exact ⟨0, s, Nat.zero_le _, rfl, Bool.eq_false_iff.mpr (hw .enc), Bool.eq_false_iff.mpr (hw .dec), id, id⟩

/-- Settles O59: the work bounds the steps; a unit that was BUSY is neither idle nor BUSY at the end. -/
theorem busyUnitsReachTheirEnd : Obligations.BusyUnitsReachTheirEnd := by
  intro s hinv ha hwr
  obtain ⟨k, t, hk, hr, he, hd, henc, hdec⟩ := State.RunsOn.exists_run ⟨hinv, ha, hwr⟩
  refine ⟨k, t, hk.trans (Nat.add_le_add s.enc.work_le s.dec.work_le), hr, he, hd, fun hb => ?_, fun hb => ?_⟩
  · have hi := henc (ne_of_eq_of_ne (beq_iff_eq.mp hb) nofun)
    have hnb := t.busy_enc_eq_false_iff.mp he
    cases hs : t.enc.state
    · exact absurd hs hi
    · exact absurd hs hnb
    · rfl
  · have hi := hdec (ne_of_eq_of_ne (beq_iff_eq.mp hb) nofun)
    have hnb := t.busy_dec_eq_false_iff.mp hd
    cases hs : t.dec.state
    · exact absurd hs hi
    · exact absurd hs hnb
    · exact .inl rfl
    · exact .inr rfl

end Sys2Proof.Machine
end

section
/-! Transactions of either unit: what is common to a started encoder and a started decoder. A unit that counts its
operations towards their number ends in its result, alone on the agenda (70_reset_and_hazards.md section 4) or under any
interleaving (43_codec_laws.md R82, R88). -/

namespace Sys2Proof.Machine

/-! ### Steps that leave a unit alone -/

/-- Unit `u` is the same in both states. -/
def State.SameUnit (s t : State) : UnitId → Prop
  | .enc => t.enc = s.enc
  | .dec => t.dec = s.dec

theorem State.sameUnit_of_units_eq {s t : State} (he : t.enc = s.enc) (hd : t.dec = s.dec) (u : UnitId) :
    s.SameUnit t u := by
  cases u
  · exact he
  · exact hd

/-- A step that changes unit `w` only leaves the other unit alone. -/
theorem State.sameUnit_of_ne {s t : State} {w u : UnitId} (h : w ≠ u) (he : w = .dec → t.enc = s.enc)
    (hd : w = .enc → t.dec = s.dec) : s.SameUnit t u := by
  cases w <;> cases u
  · exact absurd rfl h
  · exact hd rfl
  · exact he rfl
  · exact absurd rfl h

theorem State.sameUnit_withAgenda (s : State) (l : List Event) (u : UnitId) : s.SameUnit (s.withAgenda l) u :=
  State.sameUnit_of_units_eq rfl rfl u

/-- No access of the host touches a BUSY unit. -/
theorem access_sameUnit {s t : State} {a : HostAccess} {u : UnitId}
    (h : exec (decodeAccess (s.busy a.unit) a) s = .next t) (hb : s.busy u = true) : s.SameUnit t u := by
  have other {w : UnitId} (hw : s.busy w = false) : w ≠ u := by
    rintro rfl
    simp [hw] at hb
  obtain ⟨t', e, hc⟩ := access_cases s a
  obtain rfl : t' = t := by simpa [e] using h
  rcases hc with rfl | ⟨v, rfl, -⟩ | rfl | ⟨w, hw, -, rfl⟩ | ⟨w, v, hw, rfl⟩ | ⟨w, i, v, hw, rfl⟩
  · exact State.sameUnit_of_units_eq rfl rfl u
  · exact State.sameUnit_of_units_eq rfl rfl u
  · exact State.sameUnit_of_units_eq rfl rfl u
  all_goals exact State.sameUnit_of_ne (other hw) (by rintro rfl; rfl) (by rintro rfl; rfl)

/-- An event that is neither reset nor the unit's own turn leaves a BUSY unit as it is. -/
theorem step_sameUnit {s t : State} {u : UnitId} {ev : Event} {rest : List Event} (ha : s.agenda = ev :: rest)
    (hr : ev ≠ .reset) (hu : ev ≠ .seq u) (hb : s.busy u = true) (h : step s = .next t) :
    s.SameUnit t u ∧ t.agenda = rest := by
  cases ev with
  | reset => exact absurd rfl hr
  | access a =>
    rw [step_access ha, ← State.busy_withAgenda s rest] at h
    have hs := access_sameUnit h ((State.busy_withAgenda s rest u).trans hb)
    refine ⟨?_, access_agenda h⟩
    cases u <;> exact hs
  | seq w =>
    obtain ⟨-, -, -, hag, hdec, henc, -⟩ := sequencerStepStaysInItsUnit s t w rest ha h
    exact ⟨State.sameUnit_of_ne (fun hwu => hu (hwu ▸ rfl)) henc hdec, hag⟩

/-! ### What a unit's own steps leave as it is -/

/-- From `s` to `t` only unit `u` has changed, and not its input; the events to come and the draws apart. -/
structure State.Frame (s t : State) (u : UnitId) : Prop where
  cfg : t.cfg = s.cfg
  hrdata : t.hrdata = s.hrdata
  enc : u = .dec → t.enc = s.enc
  dec : u = .enc → t.dec = s.dec
  input : s.SameInput t u

theorem State.Frame.refl (s : State) (u : UnitId) : s.Frame s u :=
  ⟨rfl, rfl, fun _ => rfl, fun _ => rfl, rfl, rfl⟩

theorem State.Frame.trans {s t r : State} {u : UnitId} (h : s.Frame t u) (h' : t.Frame r u) : s.Frame r u where
  cfg := h'.cfg.trans h.cfg
  hrdata := h'.hrdata.trans h.hrdata
  enc hu := (h'.enc hu).trans (h.enc hu)
  dec hu := (h'.dec hu).trans (h.dec hu)
  input := ⟨h'.input.1.trans h.input.1, h'.input.2.trans h.input.2⟩

theorem step_seq_frame {s t : State} {u : UnitId} {rest : List Event} (ha : s.agenda = .seq u :: rest)
    (h : step s = .next t) : s.Frame t u ∧ t.agenda = rest := by
  obtain ⟨hc, hr, -, hag, hdec, henc, hi, hl, -⟩ := sequencerStepStaysInItsUnit s t u rest ha h
  exact ⟨⟨hc, hr, henc, hdec, hi, hl⟩, hag⟩

/-! ### Transactions -/

/-- `At k s` says that unit `u` of `s` is `k` operations into a transaction; each of its operations brings it one
further, the last of the `n` to its end. -/
structure Transaction (u : UnitId) (n : Nat) (At : Nat → State → Prop) (Ended : State → Prop) : Prop where
  congr : ∀ {k s t}, s.SameUnit t u → At k s → At k t
  busy : ∀ {k s}, At k s → s.busy u = true
  exec : ∀ {k s t}, At k s → exec (s.opOf u) s = .next t →
    k + 1 < n ∧ At (k + 1) t ∨ k + 1 = n ∧ Ended t

section

variable {u : UnitId} {n : Nat} {At : Nat → State → Prop} {Ended : State → Prop} (T : Transaction u n At Ended)
include T

theorem Transaction.step_eq {k : Nat} {s : State} {rest : List Event} (h : At k s) (ha : s.agenda = .seq u :: rest) :
    step s = Machine.exec ((s.withAgenda rest).opOf u) (s.withAgenda rest) := by
  rw [step_seq_busy ha (T.busy h), State.opOf_withAgenda]

theorem Transaction.step_seq {k : Nat} {s t : State} {rest : List Event} (h : At k s)
    (ha : s.agenda = .seq u :: rest) (hs : step s = .next t) : k + 1 < n ∧ At (k + 1) t ∨ k + 1 = n ∧ Ended t :=
  T.exec (T.congr (s.sameUnit_withAgenda rest u) h) ((T.step_eq h ha).symm.trans hs)

/-- Under every interleaving: a BUSY unit's result after the last of its turns. -/
theorem Transaction.ended_of_interleaving {k : Nat} {s t : State} {l : List Event} (ha : s.agenda = l) (h : At k s)
    (hr : .reset ∉ l) (hrun : core.run l.length s = .next t) (hcount : k + l.count (.seq u) = n)
    (hlast : l.getLast? = some (.seq u)) : Ended t := by
  induction l generalizing k s with
  | nil => cases hlast
  | cons ev rest ih =>
    obtain ⟨s1, hs, hrun1⟩ := exists_step_of_run hrun
    rw [List.mem_cons, not_or] at hr
    obtain ⟨hev, hrest⟩ := hr
    by_cases hu : ev = .seq u
    · subst hu
      rw [List.count_cons_self] at hcount
      obtain ⟨-, ha1⟩ := step_seq_frame ha hs
      rcases T.step_seq h ha hs with ⟨hlt, h1⟩ | ⟨heq, h1⟩
      · have hne : rest ≠ [] := by
          rintro rfl
          rw [List.count_nil] at hcount
          omega
        rw [List.getLast?_cons_of_ne_nil hne] at hlast
        exact ih ha1 h1 hrest hrun1 (by omega) hlast
      · have hnone : rest = [] := by
          by_contra hne
          rw [List.getLast?_cons_of_ne_nil hne] at hlast
          have hpos := List.count_pos_iff.mpr (List.mem_of_getLast? hlast)
          omega
        subst hnone
        cases hrun1
        exact h1
    · rw [List.count_cons_of_ne hu] at hcount
      have hne : rest ≠ [] := by
        rintro rfl
        exact hu (Option.some.inj hlast)
      rw [List.getLast?_cons_of_ne_nil hne] at hlast
      obtain ⟨hsame, ha1⟩ := step_sameUnit ha (Ne.symm hev) hu (T.busy h) hs
      exact ih ha1 (T.congr hsame h) hrest hrun1 hcount hlast

/-! The unit's turns alone on the agenda, at widths with which its operations complete. -/

variable {cfg : Config} (hprog : ∀ {k s}, At k s → s.cfg = cfg → ∃ t, Machine.exec (s.opOf u) s = .next t)
include hprog

theorem Transaction.exists_step {k : Nat} {s : State} {rest : List Event} (h : At k s) (hc : s.cfg = cfg)
    (ha : s.agenda = .seq u :: rest) :
    ∃ t, step s = .next t ∧ (k + 1 < n ∧ At (k + 1) t ∨ k + 1 = n ∧ Ended t) ∧ s.Frame t u ∧ t.agenda = rest := by
  obtain ⟨t, ht⟩ := hprog (T.congr (s.sameUnit_withAgenda rest u) h) hc
  have hs := (T.step_eq h ha).trans ht
  exact ⟨t, hs, T.step_seq h ha hs, step_seq_frame ha hs⟩

variable {s : State} {rest : List Event} (h : At 0 s) (hc : s.cfg = cfg)
  (ha : s.agenda = List.replicate n (.seq u) ++ rest)
include h hc ha

theorem Transaction.exists_run {k : Nat} (hk : k < n) :
    ∃ t : State, core.run k s = .next t ∧ At k t ∧ s.Frame t u ∧
      t.agenda = List.replicate (n - k) (.seq u) ++ rest := by
  induction k with
  | zero => exact ⟨s, rfl, h, State.Frame.refl s u, ha⟩
  | succ k ih =>
    obtain ⟨t, hrun, hat, hf, hag⟩ := ih (by omega)
    rw [show n - k = n - (k + 1) + 1 by omega, List.replicate_succ, List.cons_append] at hag
    obtain ⟨t', hs, ⟨-, hat'⟩ | ⟨heq, -⟩, hf', hag'⟩ := T.exists_step hprog hat (hf.cfg.trans hc) hag
    · exact ⟨t', run_succ_right hrun hs, hat', hf.trans hf', hag'⟩
    · omega

theorem Transaction.exists_run_end :
    ∃ t : State, core.run n s = .next t ∧ Ended t ∧ s.Frame t u ∧ t.agenda = rest := by
  have hpos : 0 < n := by
    obtain ⟨t, ht⟩ := hprog h hc
    rcases T.exec h ht with ⟨hlt, -⟩ | ⟨heq, -⟩ <;> omega
  obtain ⟨m, rfl⟩ := Nat.exists_eq_add_one.mpr hpos
  obtain ⟨t, hrun, hat, hf, hag⟩ := T.exists_run hprog h hc ha m.lt_succ_self
  rw [Nat.add_sub_cancel_left, List.replicate_one, List.singleton_append] at hag
  obtain ⟨t', hs, ⟨hlt, -⟩ | ⟨-, hend⟩, hf', hag'⟩ := T.exists_step hprog hat (hf.cfg.trans hc) hag
  · omega
  · exact ⟨t', run_succ_right hrun hs, hend, hf.trans hf', hag'⟩

end

end Sys2Proof.Machine
end

section
/-! The encoder's transaction (40_encoder_ops.md R54): what the encoder holds after `k` of its operations, and that each
operation takes it one further. -/

namespace Sys2Proof.Machine

/-! ### Sequences in a buffer -/

/-- A sequence written behind another continues it. -/
theorem Memory.holds_writeList {m : Memory} {l : List Byte} (h : m.Holds l) (l' : List Byte) :
    (m.writeList l.length l').Holds (l ++ l') := by
  intro i hi
  rw [List.length_append] at hi
  rw [Memory.read_writeList]
  split_ifs with hc
  · rw [List.getElem?_append_right hc.1]
  · rw [List.getElem?_append_left (by omega)]
    exact h i (by omega)

theorem Memory.Holds.read {m : Memory} {l : List Byte} (h : m.Holds l) {i : Nat} {b : Byte} (hb : l[i]? = some b) :
    m.read i = some b := by
  obtain ⟨hi, -⟩ := List.getElem?_eq_some_iff.mp hb
  rw [h i hi, hb]

/-! ### The encoder after `k` operations -/

/-- The encoder is `k` operations into the transaction on `x`: it has consumed `k` chunks and produced their groups. -/
structure EncUnit.Running (x : List Byte) (k : Nat) (e : EncUnit) : Prop where
  state : e.state = .busy
  ilen : e.ilen = x.length
  input : e.ibuf.Holds x
  count : k ≤ x.length / 2 + x.length % 2
  rp : e.rp = min (2 * k) x.length
  wp : e.wp = min (3 * k) (encodeBytes x).length
  output : e.obuf.Holds ((encodeBytes x).take (3 * k))

/-- The encoder has ended a transaction on `x`. -/
structure EncUnit.Encoded (x : List Byte) (e : EncUnit) : Prop where
  state : e.state = .done
  olen : e.olen = (encodeBytes x).length
  output : e.obuf.Holds (encodeBytes x)

section

variable {x : List Byte} {k : Nat} {e : EncUnit}

/-- What START leaves (R49). -/
theorem EncUnit.running_zero (hs : e.state = .busy) (hi : e.ilen = x.length) (hx : e.ibuf.Holds x) (hr : e.rp = 0)
    (hw : e.wp = 0) : e.Running x 0 where
  state := hs
  ilen := hi
  input := hx
  count := Nat.zero_le _
  rp := hr.trans (Nat.zero_min _).symm
  wp := hw.trans (Nat.zero_min _).symm
  output := nofun

namespace EncUnit.Running

theorem latch2 (h : e.Running x k) (v : Val16) (d0 d1 : Digit) : (e.latch2 v d0 d1).Running x k := { h with }

theorem latch3 (h : e.Running x k) (v : Val16) (d0 d1 d2 : Digit) : (e.latch3 v d0 d1 d2).Running x k := { h with }

theorem remaining (h : e.Running x k) : e.ilen - e.rp = x.length - 2 * k := by
  rw [h.ilen, h.rp]
  omega

theorem rp_of_lt (h : e.Running x k) (hlt : 2 * k < x.length) : e.rp = 2 * k := by
  rw [h.rp]
  omega

theorem read (h : e.Running x k) {j : Nat} {b : Byte} (hb : x[2 * k + j]? = some b) :
    e.ibuf.read (e.rp + j) = some b := by
  obtain ⟨hlt, -⟩ := List.getElem?_eq_some_iff.mp hb
  rw [h.rp_of_lt (by omega)]
  exact h.input.read hb

/-- Until the last chunk is consumed the write pointer is at a group's beginning. -/
theorem wp_of_le (h : e.Running x k) (hle : 2 * k ≤ x.length) : e.wp = 3 * k := by
  rw [h.wp, length_encodeBytes]
  omega

/-- Consuming chunk `k` and producing its group. -/
theorem advance (h : e.Running x k) {n : Nat} {out : List Byte} (hlt : 2 * k < x.length)
    (hn : n = min (x.length - 2 * k) 2) (hout : out = ((encodeBytes x).drop (3 * k)).take 3) :
    (e.advance n out).Running x (k + 1) := by
  have hlen : out.length = min 3 ((encodeBytes x).length - 3 * k) := by
    rw [hout, List.length_take, List.length_drop]
  have hrp := h.rp
  have hwp := h.wp
  refine { h with count := by omega, rp := ?_, wp := ?_, output := ?_ }
  · rw [advance_rp]
    omega
  · rw [advance_wp]
    omega
  · have hstart : e.wp = ((encodeBytes x).take (3 * k)).length := by rw [h.wp, List.length_take]
    rw [advance_obuf, hstart, Nat.mul_succ, List.take_add, ← hout]
    exact Memory.holds_writeList h.output out

/-- ENC.END after the last chunk publishes the text. -/
theorem finish (h : e.Running x k) (hend : x.length ≤ 2 * k) : e.finish.Encoded x := by
  have hall : (encodeBytes x).length ≤ 3 * k := by
    rw [length_encodeBytes]
    omega
  refine ⟨rfl, ?_, ?_⟩
  · rw [finish_olen, h.wp, Nat.min_eq_right hall]
  · have ho := h.output
    rwa [List.take_of_length_le hall] at ho

end EncUnit.Running

end

/-- The operation of step `k` is that of the remaining count there (R54). -/
theorem encOpAt_eq_encOpOf {n k : Nat} (hk : k < encSteps n) : encOpAt n k = encOpOf (n - 2 * k) := by
  unfold encSteps at hk
  rcases (by omega : k < n / 2 ∨ k = n / 2 ∧ n % 2 = 1 ∨ n ≤ 2 * k) with h | ⟨h, hodd⟩ | h
  · rw [(encOpOf_eq_enc2 _).mpr (by omega), encOpAt, if_pos h]
  · rw [(encOpOf_eq_enc1 _).mpr (by omega), encOpAt, if_neg (by omega), if_pos (by omega)]
  · rw [(encOpOf_eq_encEnd _).mpr (by omega), encOpAt, if_neg (by omega), if_neg (by omega)]

/-- The text of a message that fits the input buffer fits the output buffer (R5). -/
theorem length_encodeBytes_le_encOcap {cfg : Config} {x : List Byte} (hx : x.length < 2 ^ cfg.encLenW)
    (hpos : 0 < x.length) : (encodeBytes x).length ≤ cfg.encOcap := by
  have hw : cfg.encLenW ≠ 0 := by
    intro h0
    rw [h0] at hx
    omega
  have hpow : 2 ^ cfg.encLenW = 2 * 2 ^ (cfg.encLenW - 1) := by
    rw [← pow_succ', Nat.sub_add_cancel (Nat.pos_of_ne_zero hw)]
  rw [length_encodeBytes, Config.encOcap]
  omega

section

variable {s : State} {x : List Byte} {k : Nat}

/-- ENC2 with both bytes written answers the chunk's value, its digits and its group, if there is room. -/
theorem exec_enc2_of_read {b0 b1 : Byte} (h0 : s.enc.ibuf.read s.enc.rp = some b0)
    (h1 : s.enc.ibuf.read (s.enc.rp + 1) = some b1) :
    exec .enc2 s = s.withRoom .enc 3 (.next (s.withEnc ((s.enc.latch3 (pack16 b0 b1) (dig45 (pack16 b0 b1) .ones)
      (dig45 (pack16 b0 b1) .fortyFives) (dig45 (pack16 b0 b1) .twentyTwentyFives)).advance 2 (fullGroup b0 b1)))) :=
  (State.fetchEntry_of_read (u := .enc) h0 _).trans (State.fetchEntry_of_read (u := .enc) h1 _)

namespace EncUnit.Running

theorem opOf_eq (h : s.enc.Running x k) : s.opOf .enc = encOpOf (x.length - 2 * k) := by
  rw [State.opOf, h.remaining]

theorem selects (h : s.enc.Running x k) (hk : k < encSteps x.length) : s.Selects .enc (encOpAt x.length k) := by
  rw [State.selects_enc_iff, h.remaining, encOpAt_eq_encOpOf hk]
  exact ⟨h.state, rfl⟩

/-- A full chunk: both bytes are read, the group is the text's group `k`. -/
theorem exec_enc2 (h : s.enc.Running x k) (hlt : 2 * k + 1 < x.length) {t : State} (ht : exec .enc2 s = .next t) :
    t.enc.Running x (k + 1) := by
  have h0 := List.getElem?_eq_getElem (l := x) (i := 2 * k) (by omega)
  have h1 := List.getElem?_eq_getElem hlt
  rw [exec_enc2_of_read (h.read (j := 0) h0) (h.read h1)] at ht
  obtain ⟨-, ht⟩ := State.withRoom_eq_next ht
  cases ht
  exact (h.latch3 _ _ _ _).advance (by omega) (by omega) ((chunksBecomeGroupsInOrder x).1 k _ _ h0 h1).symm

/-- The odd last byte: the group is the rest of the text. -/
theorem exec_enc1 (h : s.enc.Running x k) (hlast : x.length = 2 * k + 1) {t : State}
    (ht : exec .enc1 s = .next t) : t.enc.Running x (k + 1) := by
  obtain ⟨b, hb, hdrop⟩ := (chunksBecomeGroupsInOrder x).2 (by omega)
  rw [show x.length - 1 = 2 * k by omega] at hb
  rw [show x.length / 2 = k by omega] at hdrop
  rw [exec_enc1_of_read (h.read (j := 0) hb)] at ht
  obtain ⟨-, ht⟩ := State.withRoom_eq_next ht
  cases ht
  refine (h.latch2 _ _ _).advance (by omega) (by omega) ?_
  rw [hdrop]
  rfl

/-- Each operation brings the transaction one further, the last to its end. -/
theorem exec (h : s.enc.Running x k) {t : State} (ht : exec (s.opOf .enc) s = .next t) :
    k + 1 < encSteps x.length ∧ t.enc.Running x (k + 1) ∨ k + 1 = encSteps x.length ∧ t.enc.Encoded x := by
  have hcount := h.count
  unfold encSteps
  rw [h.opOf_eq] at ht
  rcases (by omega : x.length ≤ 2 * k ∨ x.length = 2 * k + 1 ∨ 2 * k + 1 < x.length) with hend | hone | htwo
  · rw [(encOpOf_eq_encEnd _).mpr (by omega)] at ht
    cases ht
    exact .inr ⟨by omega, h.finish hend⟩
  · rw [(encOpOf_eq_enc1 _).mpr (by omega)] at ht
    exact .inl ⟨by omega, h.exec_enc1 hone ht⟩
  · rw [(encOpOf_eq_enc2 _).mpr (by omega)] at ht
    exact .inl ⟨by omega, h.exec_enc2 htwo ht⟩

/-- Its operations complete: the input is written, and there is room for the text. -/
theorem progress (h : s.enc.Running x k) (hx : x.length < 2 ^ s.cfg.encLenW) :
    ∃ t, Machine.exec (s.opOf .enc) s = .next t := by
  refine exists_next (fun f hf => ?_) (exec_opOf_ne_refused s s .enc)
  rw [h.opOf_eq] at hf
  rcases exec_encOpOf_fault hf with ⟨i, hlo, hhi, hn, -⟩ | ⟨hpos, hroom⟩
  · have hrp := h.rp
    cases hn.symm.trans (h.input.read (List.getElem?_eq_getElem (by omega)))
  · have hwp := h.wp_of_le (by omega)
    have hle := length_encodeBytes_le_encOcap hx (by omega)
    rw [length_encodeBytes] at hle
    omega

end EncUnit.Running

end

/-- A started encoder's transaction on `x`. -/
theorem encTransaction (x : List Byte) :
    Transaction .enc (encSteps x.length) (fun k s => s.enc.Running x k) (fun s => s.enc.Encoded x) where
  congr hst h := by
    have he : _ = _ := hst
    rwa [he]
  busy h := beq_iff_eq.mpr h.state
  exec h ht := h.exec ht

/-- Settles O55: the run of the transaction; its pointers are those of the encoder after `k` operations. -/
theorem encoderTransactionComputesEncode : Obligations.EncoderTransactionComputesEncode := by
  intro s x rest hi hx hlt ha
  have h0 : (s.start .enc).enc.Running x 0 := EncUnit.running_zero rfl hi hx rfl rfl
  have hprog {k : Nat} {t : State} (h : t.enc.Running x k) (hc : t.cfg = s.cfg) :
      ∃ t', exec (t.opOf .enc) t = .next t' := h.progress (hc ▸ hlt)
  refine ⟨s.start .enc, rfl, fun k hk => ?_, fun k hk => ?_, ?_⟩
  · obtain ⟨t, hrun, hat, -, -⟩ := (encTransaction x).exists_run hprog h0 rfl ha hk
    exact ⟨t, hrun, hat.selects hk⟩
  · obtain ⟨t, hrun, hat, -, -⟩ := (encTransaction x).exists_run hprog h0 rfl ha (k := k) (by unfold encSteps; omega)
    have hrp := hat.rp
    exact ⟨t, hrun, by omega, hat.wp_of_le (by omega)⟩
  · obtain ⟨t, hrun, hend, hf, hag⟩ := (encTransaction x).exists_run_end hprog h0 rfl ha
    exact ⟨t, hrun, hend.state, hend.olen.trans (length_encodeBytes x), hend.olen, hend.output, hf.input.1, hf.input.2,
      hf.dec rfl, hf.cfg, hf.hrdata, hag⟩

end Sys2Proof.Machine
end

section
/-! The steps of the decoder's group phase (41_decoder_ops.md R67), counted along the digits as `DECODE` reads them. -/

namespace Sys2Proof.Machine

/-- The steps of the group phase on the digits that are left, until it fails or ends (R61 to R64). -/
def groupSteps : List Digit → Nat
  | d0 :: d1 :: d2 :: rest => if 65535 < d0.val + 45 * d1.val + 2025 * d2.val then 1 else groupSteps rest + 1
  | [d0, d1] => if 255 < d0.val + 45 * d1.val then 1 else 2
  | _ => 1

theorem groupSteps_pos (ds : List Digit) : 0 < groupSteps ds := by
  fun_cases groupSteps ds <;> exact Nat.succ_pos _

theorem groupSteps_of_overflow {d0 d1 d2 : Digit} (ds : List Digit) (h : 65535 < d0.val + 45 * d1.val + 2025 * d2.val) :
    groupSteps (d0 :: d1 :: d2 :: ds) = 1 := if_pos h

theorem groupSteps_of_fits {d0 d1 d2 : Digit} (ds : List Digit) (h : d0.val + 45 * d1.val + 2025 * d2.val ≤ 65535) :
    groupSteps (d0 :: d1 :: d2 :: ds) = groupSteps ds + 1 := if_neg (by omega)

theorem groupSteps_pair_of_overflow {d0 d1 : Digit} (h : 255 < d0.val + 45 * d1.val) : groupSteps [d0, d1] = 1 :=
  if_pos h

theorem groupSteps_pair_of_fits {d0 d1 : Digit} (h : d0.val + 45 * d1.val ≤ 255) : groupSteps [d0, d1] = 2 :=
  if_neg (by omega)

theorem firstOverflow_of_overflow {d0 d1 d2 : Digit} (ds : List Digit)
    (h : 65535 < d0.val + 45 * d1.val + 2025 * d2.val) : firstOverflow (d0 :: d1 :: d2 :: ds) = 0 := by
  rw [firstOverflow, mac45_toNat, if_pos h]

theorem firstOverflow_of_fits {d0 d1 d2 : Digit} (ds : List Digit)
    (h : d0.val + 45 * d1.val + 2025 * d2.val ≤ 65535) :
    firstOverflow (d0 :: d1 :: d2 :: ds) = firstOverflow ds + 1 := by
  rw [firstOverflow, mac45_toNat, if_neg (by omega)]

/-- The steps that R67 counts for the outcome of the group phase on the digits `ds`. -/
def groupStepsOf (ds : List Digit) : Except Cause (List Byte) → Nat
  | .ok _ => ds.length / 3 + (if ds.length % 3 = 2 then 1 else 0) + 1
  | .error .range16 => firstOverflow ds + 1
  | .error .range8 => ds.length / 3 + 1
  | .error _ => 0

/-- A group that fits adds its step to those of the groups after it, whatever their outcome. -/
theorem groupStepsOf_of_fits {d0 d1 d2 : Digit} (ds : List Digit) (h : d0.val + 45 * d1.val + 2025 * d2.val ≤ 65535)
    {r : Except Cause (List Byte)} (hr : 0 < groupStepsOf ds r) (f : List Byte → List Byte) :
    groupStepsOf (d0 :: d1 :: d2 :: ds) (r.map f) = groupStepsOf ds r + 1 := by
  have hlen : (d0 :: d1 :: d2 :: ds).length = ds.length + 3 := rfl
  cases r with
  | ok p =>
    simp only [Except.map, groupStepsOf, hlen, Nat.add_mod_right]
    omega
  | error c =>
    cases c
    case range16 => simp only [Except.map, groupStepsOf, firstOverflow_of_fits ds h]
    case range8 =>
      simp only [Except.map, groupStepsOf, hlen]
      omega
    all_goals exact absurd hr (lt_irrefl 0)

/-- On digits of a checked length the outcome decides the steps (R67). -/
theorem groupSteps_eq : (ds : List Digit) → ds.length % 3 ≠ 1 → groupSteps ds = groupStepsOf ds (decodeDigits ds)
  | [], _ => rfl
  | [_], h => absurd rfl h
  | [d0, d1], _ => by
    rcases Nat.lt_or_ge 255 (d0.val + 45 * d1.val) with hv | hv
    · rw [groupSteps_pair_of_overflow hv, decodeDigits_pair_of_overflow hv]
      simp [groupStepsOf]
    · rw [groupSteps_pair_of_fits hv, decodeDigits_pair_of_fits hv]
      simp [groupStepsOf]
  | d0 :: d1 :: d2 :: ds, h => by
    rcases Nat.lt_or_ge 65535 (d0.val + 45 * d1.val + 2025 * d2.val) with hv | hv
    · rw [groupSteps_of_overflow ds hv, decodeDigits_of_overflow ds hv, groupStepsOf, firstOverflow_of_overflow ds hv]
    · have hlen : (d0 :: d1 :: d2 :: ds).length = ds.length + 3 := rfl
      have ih := groupSteps_eq ds (by omega)
      obtain ⟨b0, b1, hd⟩ := decodeDigits_of_fits ds hv
      rw [groupSteps_of_fits ds hv, hd, groupStepsOf_of_fits ds hv (ih ▸ groupSteps_pos ds), ih]

/-! ### The steps of a whole transaction -/

theorem decSteps_of_invalid_char {t : List Byte} (h : ∃ c ∈ t, c2d c = none) :
    decSteps t = t.findIdx (fun c => (c2d c).isNone) + 1 := by
  rw [decSteps, decodeText_of_invalid_char h]

theorem filterMap_c2d_map_a2c (ds : List Digit) : (ds.map a2c).filterMap c2d = ds := by
  rw [List.filterMap_map, show c2d ∘ a2c = some from funext c2d_a2c, List.filterMap_some]

theorem mapM_c2d_map_a2c (ds : List Digit) : (ds.map a2c).mapM c2d = some ds :=
  (mapM_c2d_eq_some_iff _ ds).mpr rfl

theorem decSteps_of_length {ds : List Digit} (h : ds.length % 3 = 1) : decSteps (ds.map a2c) = ds.length + 1 := by
  rw [decSteps, decodeText_of_length (mapM_c2d_map_a2c ds) (by rwa [List.length_map]), List.length_map]

/-- With all characters digits and the length checked: the scan, the check, and the group phase. -/
theorem decSteps_of_groups {ds : List Digit} (h : ds.length % 3 ≠ 1) :
    decSteps (ds.map a2c) = ds.length + 1 + groupSteps ds := by
  have hg := groupSteps_eq ds h
  have hpos := groupSteps_pos ds
  rw [decSteps, decodeText_eq_decodeDigits (mapM_c2d_map_a2c ds) (by rwa [List.length_map]), List.length_map,
    filterMap_c2d_map_a2c]
  rw [hg] at hpos ⊢
  cases hd : decodeDigits ds with
  | ok p => simp only [groupStepsOf, Nat.add_assoc]
  | error c =>
    rw [hd] at hpos
    cases c
    case range16 => simp only [groupStepsOf, Nat.add_assoc]
    case range8 => simp only [groupStepsOf, Nat.add_assoc]
    all_goals exact absurd hpos (lt_irrefl 0)

/-- Every text has an invalid character or is a sequence of digits written in the alphabet. -/
theorem text_cases (t : List Byte) : (∃ c ∈ t, c2d c = none) ∨ ∃ ds : List Digit, t = ds.map a2c := by
  by_cases h : ∀ c ∈ t, c2d c ≠ none
  · obtain ⟨ds, hds⟩ := (exists_mapM_c2d_eq_some_iff t).mpr h
    exact .inr ⟨ds, (mapM_c2d_eq_some_iff t ds).mp hds⟩
  · push Not at h
    exact .inl h

/-- The scan of `k` digits is not the whole transaction. -/
theorem lt_decSteps_of_scanned {t : List Byte} {k : Nat} (hk : k ≤ t.length) (h : ∀ c ∈ t.take k, c2d c ≠ none) :
    k < decSteps t := by
  rcases text_cases t with hc | ⟨ds, rfl⟩
  · rw [decSteps_of_invalid_char hc, Nat.lt_succ_iff]
    by_contra hlt
    have hi : t.findIdx (fun c => (c2d c).isNone) < t.length := by omega
    have hn := List.findIdx_getElem (w := hi)
    have hmem : t[t.findIdx (fun c => (c2d c).isNone)] ∈ t.take k := by
      rw [List.mem_take_iff_getElem]
      exact ⟨_, by omega, rfl⟩
    exact h _ hmem (Option.isNone_iff_eq_none.mp hn)
  · rw [List.length_map] at hk
    by_cases hl : ds.length % 3 = 1
    · rw [decSteps_of_length hl]
      omega
    · rw [decSteps_of_groups hl]
      omega

/-- The first invalid character ends the transaction. -/
theorem decSteps_of_first_invalid {t : List Byte} {k : Nat} {c : Byte} (hc : t[k]? = some c) (hn : c2d c = none)
    (h : ∀ c ∈ t.take k, c2d c ≠ none) : decSteps t = k + 1 := by
  obtain ⟨hk, rfl⟩ := List.getElem?_eq_some_iff.mp hc
  rw [decSteps_of_invalid_char ⟨_, List.getElem_mem hk, hn⟩, (List.findIdx_eq hk).mpr]
  refine ⟨Option.isNone_iff_eq_none.mpr hn, fun j hj => ?_⟩
  have hmem : t[j] ∈ t.take k := List.mem_take_iff_getElem.mpr ⟨j, by omega, rfl⟩
  simpa [Option.isSome_iff_ne_none] using h _ hmem

end Sys2Proof.Machine
end

section
/-! The decoder's transaction (41_decoder_ops.md R67): what the decoder holds after `k` of its operations, in the scan
phase and in the group phase, and that each operation takes it one further or to its end. -/

namespace Sys2Proof.Machine

/-! ### The decoder after `k` operations -/

/-- The decoder has scanned `k` characters of `x`, all of them digits. -/
structure DecUnit.Scanning (x : List Byte) (k : Nat) (d : DecUnit) : Prop where
  state : d.state = .busy
  phase : d.phase = .scan
  cause : d.cause = .none
  ilen : d.ilen = x.length
  input : d.ibuf.Holds x
  count : k ≤ x.length
  rp : d.rp = k
  wp : d.wp = 0
  digits : ∀ c ∈ x.take k, c2d c ≠ none

/-- The decoder has decoded `g` groups of the digits `ds`: what `DECODE` answers on `ds` and the steps it takes are
those of the digits that are left. -/
structure DecUnit.Grouping (ds : List Digit) (g : Nat) (d : DecUnit) : Prop where
  state : d.state = .busy
  phase : d.phase = .group
  cause : d.cause = .none
  ilen : d.ilen = ds.length
  input : d.ibuf.Holds (ds.map a2c)
  length : ds.length % 3 ≠ 1
  rp : d.rp = min (3 * g) ds.length
  wp : d.wp = min (2 * g) (2 * (ds.length / 3) + ds.length % 3 / 2)
  output : ∃ out : List Byte, out.length = d.wp ∧ d.obuf.Holds out ∧
    decodeDigits ds = (decodeDigits (ds.drop (3 * g))).map (out ++ ·)
  steps : groupSteps ds = g + groupSteps (ds.drop (3 * g))

/-- The decoder is `k` operations into the transaction on `x`: the scan, the check of the length, and the groups. -/
inductive DecUnit.Running (x : List Byte) : Nat → DecUnit → Prop where
  | scan {k : Nat} {d : DecUnit} (h : d.Scanning x k) : Running x k d
  | group {ds : List Digit} {g : Nat} {d : DecUnit} (hx : x = ds.map a2c) (h : d.Grouping ds g) :
    Running x (x.length + 1 + g) d

/-- The decoder has ended a transaction on `x`, or has failed. -/
structure DecUnit.Decoded (x : List Byte) (d : DecUnit) : Prop where
  ok : ∀ p, decodeText x = .ok p → d.state = .done ∧ d.cause = .none ∧ d.olen = p.length ∧ d.obuf.Holds p
  error : ∀ c, decodeText x = .error c → d.state = .error ∧ d.cause = c ∧ d.olen = 0

theorem DecUnit.decoded_fail {x : List Byte} {c : Cause} (h : decodeText x = .error c) (d : DecUnit) :
    (d.fail c).Decoded x where
  ok p hp := nomatch h.symm.trans hp
  error c' hc' := by
    cases h.symm.trans hc'
    exact ⟨rfl, rfl, rfl⟩

/-! ### The scan phase -/

section

variable {x : List Byte} {k : Nat} {d : DecUnit}

/-- What START leaves (R58). -/
theorem DecUnit.scanning_zero (hs : d.state = .busy) (hp : d.phase = .scan) (hc : d.cause = .none)
    (hi : d.ilen = x.length) (hx : d.ibuf.Holds x) (hr : d.rp = 0) (hw : d.wp = 0) : d.Scanning x 0 where
  state := hs
  phase := hp
  cause := hc
  ilen := hi
  input := hx
  count := Nat.zero_le _
  rp := hr
  wp := hw
  digits := nofun

namespace DecUnit.Scanning

theorem read (h : d.Scanning x k) {c : Byte} (hc : x[k]? = some c) : d.ibuf.read d.rp = some c := by
  rw [h.rp]
  exact h.input.read hc

theorem scanned (h : d.Scanning x k) {c : Byte} (hc : x[k]? = some c) (hd : c2d c ≠ none) :
    d.scanned.Scanning x (k + 1) := by
  obtain ⟨hk, -⟩ := List.getElem?_eq_some_iff.mp hc
  refine { h with count := hk, rp := congrArg (· + 1) h.rp, digits := fun e he => ?_ }
  rw [List.take_add_one, hc, List.mem_append] at he
  rcases he with he | he
  · exact h.digits e he
  · rwa [List.mem_singleton.mp he]

/-- A whole scanned text is a sequence of digits. -/
theorem exists_digits (h : d.Scanning x k) (hend : x.length ≤ k) : ∃ ds : List Digit, x = ds.map a2c := by
  have hd := h.digits
  rw [List.take_of_length_le hend] at hd
  refine (text_cases x).resolve_left ?_
  rintro ⟨c, hc, hn⟩
  exact hd c hc hn

theorem toGroup {ds : List Digit} (h : d.Scanning (ds.map a2c) k) (hlen : ds.length % 3 ≠ 1) :
    d.toGroup.Grouping ds 0 where
  state := h.state
  phase := rfl
  cause := h.cause
  ilen := h.ilen.trans (List.length_map ..)
  input := h.input
  length := hlen
  rp := (Nat.zero_min _).symm
  wp := h.wp.trans (Nat.zero_min _).symm
  output := ⟨[], h.wp.symm, nofun, (exceptMap_self _).symm⟩
  steps := (Nat.zero_add _).symm

end DecUnit.Scanning

end

section

variable {s t : State} {x : List Byte} {k : Nat}

namespace DecUnit.Scanning

theorem opOf_eq (h : s.dec.Scanning x k) : s.opOf .dec = decOpOf .scan (x.length - k) := by
  rw [State.opOf, h.phase, h.ilen, h.rp]

/-- DEC.SCAN on character `k`. -/
theorem exec_decScan (h : s.dec.Scanning x k) (hk : k < x.length) (ht : exec .decScan s = .next t) :
    k + 1 < decSteps x ∧ t.dec.Running x (k + 1) ∨ k + 1 = decSteps x ∧ t.dec.Decoded x := by
  obtain ⟨c, hc⟩ : ∃ c, x[k]? = some c := ⟨_, List.getElem?_eq_getElem hk⟩
  rw [exec_decScan_of_written (h.read hc)] at ht
  cases ht
  cases hd : c2d c with
  | none =>
    have herr := decodeText_of_invalid_char ⟨c, List.mem_of_getElem? hc, hd⟩
    exact .inr ⟨(decSteps_of_first_invalid hc hd h.digits).symm, DecUnit.decoded_fail herr _⟩
  | some e =>
    have h1 := h.scanned hc (by simp [hd])
    exact .inl ⟨lt_decSteps_of_scanned h1.count h1.digits, .scan h1⟩

/-- DEC.LENCHK after the last character. -/
theorem exec_decLenchk (h : s.dec.Scanning x x.length) (ht : exec .decLenchk s = .next t) :
    x.length + 1 < decSteps x ∧ t.dec.Running x (x.length + 1) ∨
      x.length + 1 = decSteps x ∧ t.dec.Decoded x := by
  obtain ⟨ds, rfl⟩ := h.exists_digits le_rfl
  have hlen : (ds.map a2c).length = ds.length := List.length_map ..
  rw [Machine.exec_decLenchk, h.ilen, hlen] at ht
  split_ifs at ht with hl
  · cases ht
    have herr := decodeText_of_length (mapM_c2d_map_a2c ds) (hlen ▸ hl)
    exact .inr ⟨by rw [decSteps_of_length hl, hlen], DecUnit.decoded_fail herr _⟩
  · cases ht
    have hpos := groupSteps_pos ds
    exact .inl ⟨by rw [decSteps_of_groups hl, hlen]; omega, .group rfl (h.toGroup hl)⟩

theorem exec (h : s.dec.Scanning x k) (ht : exec (s.opOf .dec) s = .next t) :
    k + 1 < decSteps x ∧ t.dec.Running x (k + 1) ∨ k + 1 = decSteps x ∧ t.dec.Decoded x := by
  rw [h.opOf_eq] at ht
  rcases h.count.lt_or_eq with hk | rfl
  · rw [(decOpOf_eq_decScan _ _).mpr ⟨rfl, by omega⟩] at ht
    exact h.exec_decScan hk ht
  · rw [(decOpOf_eq_decLenchk _ _).mpr ⟨rfl, by omega⟩] at ht
    exact h.exec_decLenchk ht

end DecUnit.Scanning

end

/-! ### The group phase -/

/-- A group that fits gives the two bytes of its value, before those of the groups after it. -/
theorem decodeDigits_cons_of_fits {d0 d1 d2 : Digit} (ds : List Digit) (h : (mac45 d0 d1 d2).toNat ≤ 65535) :
    decodeDigits (d0 :: d1 :: d2 :: ds) = (decodeDigits ds).map
      ([(unpack16 ((mac45 d0 d1 d2).truncate 16)).1, (unpack16 ((mac45 d0 d1 d2).truncate 16)).2] ++ ·) := by
  rw [decodeDigits, if_neg (by omega)]
  cases decodeDigits ds <;> rfl

theorem exceptMap_append (r : Except Cause (List Byte)) (p q : List Byte) :
    (r.map (q ++ ·)).map (p ++ ·) = r.map ((p ++ q) ++ ·) := by
  cases r with
  | ok l => exact congrArg Except.ok (List.append_assoc p q l).symm
  | error c => rfl

section

variable {ds : List Digit} {g : Nat} {d : DecUnit}

namespace DecUnit.Grouping

theorem latch2 (h : d.Grouping ds g) (v : Val17) (d0 d1 : Digit) : (d.latch2 v d0 d1).Grouping ds g := { h with }

theorem latch3 (h : d.Grouping ds g) (v : Val17) (d0 d1 d2 : Digit) : (d.latch3 v d0 d1 d2).Grouping ds g := { h with }

theorem remaining (h : d.Grouping ds g) : d.ilen - d.rp = ds.length - 3 * g := by
  rw [h.ilen, h.rp]
  omega

theorem read (h : d.Grouping ds g) {j : Nat} {e : Digit} (he : (ds.drop (3 * g))[j]? = some e) :
    d.ibuf.read (d.rp + j) = some (a2c e) := by
  rw [List.getElem?_drop] at he
  obtain ⟨hlt, -⟩ := List.getElem?_eq_some_iff.mp he
  rw [h.rp, Nat.min_eq_left (by omega)]
  exact h.input.read (by rw [List.getElem?_map, he, Option.map_some])

theorem decodeText_eq (h : d.Grouping ds g) : decodeText (ds.map a2c) = decodeDigits ds :=
  decodeText_eq_decodeDigits (mapM_c2d_map_a2c ds) (by rw [List.length_map]; exact h.length)

theorem decSteps_eq (h : d.Grouping ds g) :
    decSteps (ds.map a2c) = (ds.map a2c).length + 1 + g + groupSteps (ds.drop (3 * g)) := by
  rw [decSteps_of_groups h.length, h.steps, List.length_map, Nat.add_assoc _ g]

/-- Consuming group `g` and producing its bytes. -/
theorem advance (h : d.Grouping ds g) {n : Nat} {bs : List Byte} (hn : n = min (ds.length - 3 * g) 3) (hpos : 2 ≤ n)
    (hbs : bs.length + 1 = n)
    (hd : decodeDigits (ds.drop (3 * g)) = (decodeDigits (ds.drop (3 * (g + 1)))).map (bs ++ ·))
    (hs : groupSteps (ds.drop (3 * g)) = groupSteps (ds.drop (3 * (g + 1))) + 1) :
    (d.advance n bs).Grouping ds (g + 1) := by
  have hlen := h.length
  have hrp := h.rp
  have hwp := h.wp
  obtain ⟨out, hol, hho, hout⟩ := h.output
  refine { h with rp := ?_, wp := ?_, output := ⟨out ++ bs, ?_, ?_, ?_⟩, steps := ?_ }
  · rw [advance_rp]
    omega
  · rw [advance_wp]
    omega
  · rw [List.length_append, advance_wp, hol]
  · rw [advance_obuf, ← hol]
    exact Memory.holds_writeList hho bs
  · rw [hout, hd, exceptMap_append]
  · rw [h.steps, hs]
    omega

/-- DEC.END after the last group publishes the payload. -/
theorem finish (h : d.Grouping ds g) (hend : ds.drop (3 * g) = []) : d.finish.Decoded (ds.map a2c) := by
  obtain ⟨out, hol, hho, hout⟩ := h.output
  have hok : decodeText (ds.map a2c) = .ok out := by
    rw [h.decodeText_eq, hout, hend]
    exact congrArg Except.ok (List.append_nil out)
  refine ⟨fun p hp => ?_, fun c hc => nomatch hok.symm.trans hc⟩
  cases hok.symm.trans hp
  exact ⟨rfl, h.cause, hol.symm, hho⟩

/-- A failure of the digits that are left is the failure of the text. -/
theorem decodeText_error (h : d.Grouping ds g) {c : Cause} (hc : decodeDigits (ds.drop (3 * g)) = .error c) :
    decodeText (ds.map a2c) = .error c := by
  obtain ⟨out, -, -, hout⟩ := h.output
  rw [h.decodeText_eq, hout, hc]
  rfl

end DecUnit.Grouping

end

section

variable {s t : State} {ds : List Digit} {g : Nat}

/-- What an operation of the group phase brings: one group more, or the end. -/
def State.GroupOutcome (t : State) (ds : List Digit) (g : Nat) : Prop :=
  1 < groupSteps (ds.drop (3 * g)) ∧ t.dec.Grouping ds (g + 1) ∨
    1 = groupSteps (ds.drop (3 * g)) ∧ t.dec.Decoded (ds.map a2c)

namespace DecUnit.Grouping

theorem opOf_eq (h : s.dec.Grouping ds g) : s.opOf .dec = decOpOf .group (ds.length - 3 * g) := by
  rw [State.opOf, h.remaining, h.phase]

/-- DEC3 on the full group `d0`, `d1`, `d2`. -/
theorem exec_dec3 (h : s.dec.Grouping ds g) {d0 d1 d2 : Digit} {rest : List Digit}
    (hr : ds.drop (3 * g) = d0 :: d1 :: d2 :: rest) (ht : exec .dec3 s = .next t) : t.GroupOutcome ds g := by
  have hv := mac45_toNat d0 d1 d2
  have hlen : ds.length - 3 * g = rest.length + 3 := by rw [← List.length_drop, hr]; rfl
  have hrest : ds.drop (3 * (g + 1)) = rest := by rw [Nat.mul_succ, ← List.drop_drop, hr]; rfl
  rw [exec_dec3_of_digits (h.read (j := 0) (by rw [hr]; rfl)) (h.read (j := 1) (by rw [hr]; rfl))
    (h.read (j := 2) (by rw [hr]; rfl)) (c2d_a2c d0) (c2d_a2c d1) (c2d_a2c d2)] at ht
  unfold State.GroupOutcome
  split_ifs at ht with hover
  · cases ht
    have herr := decodeDigits_of_overflow rest (hv ▸ hover)
    rw [hr, groupSteps_of_overflow rest (hv ▸ hover)]
    exact .inr ⟨rfl, DecUnit.decoded_fail (h.decodeText_error (hr ▸ herr)) _⟩
  · obtain ⟨-, ht⟩ := State.withRoom_eq_next ht
    cases ht
    have hst := groupSteps_of_fits (d0 := d0) (d1 := d1) (d2 := d2) rest (by omega)
    have hpos := groupSteps_pos rest
    refine .inl ⟨by rw [hr, hst]; omega, (h.latch3 _ d0 d1 d2).advance (by omega) (by omega) rfl ?_ ?_⟩
    · rw [hr, hrest, decodeDigits_cons_of_fits rest (by omega)]
    · rw [hr, hrest, hst]

/-- DEC2 on the last group `d0`, `d1`. -/
theorem exec_dec2 (h : s.dec.Grouping ds g) {d0 d1 : Digit} (hr : ds.drop (3 * g) = [d0, d1])
    (ht : exec .dec2 s = .next t) : t.GroupOutcome ds g := by
  have hv := mac45_zero_toNat d0 d1
  have hlen : ds.length - 3 * g = 2 := by rw [← List.length_drop, hr]; rfl
  have hrest : ds.drop (3 * (g + 1)) = [] := List.drop_of_length_le (by omega)
  rw [exec_dec2_of_digits (h.read (j := 0) (by rw [hr]; rfl)) (h.read (j := 1) (by rw [hr]; rfl)) (c2d_a2c d0)
    (c2d_a2c d1)] at ht
  unfold State.GroupOutcome
  split_ifs at ht with hover
  · cases ht
    have herr := decodeDigits_pair_of_overflow (hv ▸ hover)
    rw [hr, groupSteps_pair_of_overflow (hv ▸ hover)]
    exact .inr ⟨rfl, DecUnit.decoded_fail (h.decodeText_error (hr ▸ herr)) _⟩
  · obtain ⟨-, ht⟩ := State.withRoom_eq_next ht
    cases ht
    have hst := groupSteps_pair_of_fits (d0 := d0) (d1 := d1) (by omega)
    refine .inl ⟨by rw [hr, hst]; omega, (h.latch2 _ d0 d1).advance (by omega) le_rfl rfl ?_ ?_⟩
    · rw [hr, hrest, decodeDigits_pair_of_fits (by omega)]
      rfl
    · rw [hr, hrest, hst]
      rfl

/-- By the digits that are left. -/
theorem exec (h : s.dec.Grouping ds g) (ht : exec (s.opOf .dec) s = .next t) : t.GroupOutcome ds g := by
  have hlen := h.length
  have hdrop := List.length_drop (i := 3 * g) (l := ds)
  rw [h.opOf_eq, ← hdrop] at ht
  match hr : ds.drop (3 * g) with
  | [] =>
    rw [hr] at ht
    cases ht
    exact .inr ⟨by rw [hr]; rfl, h.finish hr⟩
  | [_] =>
    rw [hr, List.length_singleton] at hdrop
    omega
  | [d0, d1] =>
    rw [hr] at ht
    exact h.exec_dec2 hr ht
  | d0 :: d1 :: d2 :: rest =>
    have h3 : 3 ≤ (d0 :: d1 :: d2 :: rest).length := Nat.le_add_left 3 _
    rw [hr, (decOpOf_eq_dec3 _ _).mpr ⟨rfl, h3⟩] at ht
    exact h.exec_dec3 hr ht

end DecUnit.Grouping

end

/-! ### Whole transactions -/

/-- The operation of a step in the group phase is that of the remaining count there (R67). -/
theorem decOpAt_group {m g : Nat} (hm : m % 3 ≠ 1) : decOpAt m (m + 1 + g) = decOpOf .group (m - 3 * g) := by
  rcases (by omega : 3 * g + 3 ≤ m ∨ m = 3 * g + 2 ∨ m ≤ 3 * g) with h | h | h
  · rw [(decOpOf_eq_dec3 _ _).mpr ⟨rfl, by omega⟩, decOpAt, if_neg (by omega), if_neg (by omega), if_pos (by omega)]
  · rw [(decOpOf_eq_dec2 _ _).mpr ⟨rfl, by omega⟩, decOpAt, if_neg (by omega), if_neg (by omega), if_neg (by omega),
      if_pos (by omega)]
  · rw [(decOpOf_eq_decEnd _ _).mpr ⟨rfl, by omega⟩, decOpAt, if_neg (by omega), if_neg (by omega), if_neg (by omega),
      if_neg (by omega)]

theorem decOpAt_scan {m k : Nat} (hk : k ≤ m) : decOpAt m k = decOpOf .scan (m - k) := by
  rcases hk.lt_or_eq with h | rfl
  · rw [(decOpOf_eq_decScan _ _).mpr ⟨rfl, by omega⟩, decOpAt, if_pos h]
  · rw [(decOpOf_eq_decLenchk _ _).mpr ⟨rfl, by omega⟩, decOpAt, if_neg (by omega), if_pos rfl]

section

variable {s : State} {x : List Byte} {k : Nat}

namespace DecUnit.Running

theorem state {d : DecUnit} (h : d.Running x k) : d.state = .busy := by
  cases h with
  | scan h => exact h.state
  | group hx h => exact h.state

theorem selects (h : s.dec.Running x k) : s.Selects .dec (decOpAt x.length k) := by
  rw [State.selects_iff]
  refine ⟨beq_iff_eq.mpr h.state, ?_⟩
  cases h with
  | scan h => rw [h.opOf_eq, decOpAt_scan h.count]
  | group hx h => rw [h.opOf_eq, hx, List.length_map, decOpAt_group h.length]

/-- Each operation brings the transaction one further, the last to its end. -/
theorem exec (h : s.dec.Running x k) {t : State} (ht : exec (s.opOf .dec) s = .next t) :
    k + 1 < decSteps x ∧ t.dec.Running x (k + 1) ∨ k + 1 = decSteps x ∧ t.dec.Decoded x := by
  cases h with
  | scan h => exact h.exec ht
  | group hx h =>
    subst hx
    rw [h.decSteps_eq]
    rcases h.exec ht with ⟨hlt, h1⟩ | ⟨heq, h1⟩
    · exact .inl ⟨by omega, .group rfl h1⟩
    · exact .inr ⟨by omega, h1⟩

/-- Its operations complete: the input is written, a group's characters are digits, and there is room for the bytes. -/
theorem progress (h : s.dec.Running x k) (hx : x.length < 2 ^ s.cfg.decLenW) :
    ∃ t, Machine.exec (s.opOf .dec) s = .next t := by
  refine exists_next (fun f hf => ?_) (exec_opOf_ne_refused s s .dec)
  cases h with
  | scan h =>
    have hrp := h.rp
    rw [h.opOf_eq] at hf
    rcases exec_decOpOf_fault hf with ⟨i, hlo, hhi, hn, -⟩ | ⟨hp, -⟩ | ⟨hp, -⟩
    · cases hn.symm.trans (h.input.read (List.getElem?_eq_getElem (by omega)))
    · cases hp
    · cases hp
  | @group ds g _ hx' h =>
    subst hx'
    rw [List.length_map] at hx
    have hrp := h.rp
    have hread {i : Nat} (hi : i < ds.length) : s.dec.ibuf.read i = some (a2c ds[i]) :=
      h.input.read (by rw [List.getElem?_map, List.getElem?_eq_getElem hi, Option.map_some])
    rw [h.opOf_eq] at hf
    rcases exec_decOpOf_fault hf with ⟨i, hlo, hhi, hn, -⟩ | ⟨-, i, c, hlo, hhi, hc, hn⟩ | ⟨-, hpos, hroom⟩
    · cases hn.symm.trans (hread (by omega))
    · cases hc.symm.trans (hread (by omega))
      rw [c2d_a2c] at hn
      cases hn
    · have hwp := h.wp
      unfold Config.decOcap at hroom
      generalize 2 ^ s.cfg.decLenW = cap at hx hroom
      omega

end DecUnit.Running

end

/-- A started decoder's transaction on `x`. -/
theorem decTransaction (x : List Byte) :
    Transaction .dec (decSteps x) (fun k s => s.dec.Running x k) (fun s => s.dec.Decoded x) where
  congr hst h := by
    have hd : _ = _ := hst
    rwa [hd]
  busy h := beq_iff_eq.mpr h.state
  exec h ht := h.exec ht

/-- Settles O56: the run of the transaction. -/
theorem decoderTransactionComputesDecode : Obligations.DecoderTransactionComputesDecode := by
  intro s x rest hi hx hlt ha
  have h0 : (s.start .dec).dec.Running x 0 := .scan (DecUnit.scanning_zero rfl rfl rfl hi hx rfl rfl)
  have hprog {k : Nat} {t : State} (h : t.dec.Running x k) (hc : t.cfg = s.cfg) :
      ∃ t', exec (t.opOf .dec) t = .next t' := h.progress (hc ▸ hlt)
  refine ⟨s.start .dec, rfl, fun k hk => ?_, ?_⟩
  · obtain ⟨t, hrun, hat, -, -⟩ := (decTransaction x).exists_run hprog h0 rfl ha hk
    exact ⟨t, hrun, hat.selects⟩
  · obtain ⟨t, hrun, hend, hf, hag⟩ := (decTransaction x).exists_run_end hprog h0 rfl ha
    exact ⟨t, hrun, hend.ok, hend.error, hf.input.1, hf.input.2, hf.enc rfl, hf.cfg, hf.hrdata, hag⟩

end Sys2Proof.Machine
end

section
/-! The result of a transaction under every interleaving (43_codec_laws.md R82, R88), and through the host port
(42_host_transactions.md R74). -/

namespace Sys2Proof.Machine

/-- Settles O57: both halves are `Transaction.ended_of_interleaving`, from the states that START leaves. -/
theorem resultIsTheSameUnderEveryInterleaving : Obligations.ResultIsTheSameUnderEveryInterleaving := by
  intro s t x hr hrun
  refine ⟨fun hs hx hcount hlast => ?_, fun hs hx hcount hlast => ?_⟩
  · have h0 : s.enc.Running x 0 := EncUnit.running_zero (congrArg EncUnit.state hs) (congrArg EncUnit.ilen hs) hx
      (congrArg EncUnit.rp hs) (congrArg EncUnit.wp hs)
    have hend := (encTransaction x).ended_of_interleaving rfl h0 hr hrun ((Nat.zero_add _).trans hcount) hlast
    exact ⟨hend.state, hend.olen, hend.output⟩
  · have h0 : s.dec.Running x 0 := .scan (DecUnit.scanning_zero (congrArg DecUnit.state hs)
      (congrArg DecUnit.phase hs) (congrArg DecUnit.cause hs) (congrArg DecUnit.ilen hs) hx (congrArg DecUnit.rp hs)
      (congrArg DecUnit.wp hs))
    have hend := (decTransaction x).ended_of_interleaving rfl h0 hr hrun ((Nat.zero_add _).trans hcount) hlast
    exact ⟨hend.ok, hend.error⟩

/-! ### The accesses of one call -/

/-- The input buffer of unit `u` is replaced. -/
def State.withIbuf (s : State) (u : UnitId) (m : Memory) : State :=
  match u with
  | .enc => s.withEnc { s.enc with ibuf := m }
  | .dec => s.withDec { s.dec with ibuf := m }

@[simp] theorem State.withIbuf_cfg (s : State) (u : UnitId) (m : Memory) : (s.withIbuf u m).cfg = s.cfg := by
  cases u <;> rfl

@[simp] theorem State.withIbuf_busy (s : State) (u : UnitId) (m : Memory) : (s.withIbuf u m).busy u = s.busy u := by
  cases u <;> rfl

@[simp] theorem State.writeIlen_busy (s : State) (u : UnitId) (v : Nat) : (s.writeIlen u v).busy u = s.busy u := by
  cases u <;> rfl

/-- The write of an entry in range, among the events to come (R71). -/
theorem step_hwrIbuf {s : State} {u : UnitId} {i : Nat} {b : Byte} {rest : List Event} (hb : s.busy u = false)
    (hi : i < s.cfg.inEntries u) (ha : s.agenda = .access ⟨descOf u .ibuf true, i, b.toNat⟩ :: rest) :
    step s = .next ((s.withIbuf u ((s.ibuf u).write i b)).withAgenda rest) := by
  rw [step_access ha, decodeAccess_ibuf_write, exec_hwrIbuf_of_not_busy ((s.busy_withAgenda rest u).trans hb)]
  cases u <;> simp only [State.writeIbuf, State.withAgenda_cfg, Nat.mod_eq_of_lt hi, BitVec.ofNat_toNat,
    BitVec.setWidth_eq] <;> rfl

/-- The write of a length in range (R69). -/
theorem step_hwrIlen {s : State} {u : UnitId} {v : Nat} {rest : List Event} (hb : s.busy u = false)
    (ha : s.agenda = .access ⟨descOf u .reg true, 2, v⟩ :: rest) :
    step s = .next ((s.writeIlen u v).withAgenda rest) := by
  have hd (busy : Bool) : decodeAccess busy ⟨descOf u .reg true, 2, v⟩ = .hwrReg u .ilen v :=
    (decodeAccess_reg_write busy u 2 v).trans (if_neg nofun)
  rw [step_access ha, hd, exec_hwrReg_ilen_of_not_busy ((s.busy_withAgenda rest u).trans hb)]
  cases u <;> rfl

/-- START (R49, R58). -/
theorem step_start {s : State} {u : UnitId} {rest : List Event} (hb : s.busy u = false)
    (ha : s.agenda = .access ⟨descOf u .reg true, 0, 1⟩ :: rest) : step s = .next ((s.start u).withAgenda rest) := by
  rw [step_access ha, HostAccess.unit_descOf, hb, decodeAccess_ctrl_write, decodeRegWrite_ctrl_not_busy u rfl]
  cases u <;> rfl

/-- The host writes a message entry by entry. -/
theorem run_hwrIbufs {s : State} {u : UnitId} {rest : List Event} (x : List Byte) (i : Nat) (hb : s.busy u = false)
    (hx : i + x.length ≤ s.cfg.inEntries u)
    (ha : s.agenda = ((x.zipIdx i).map fun p => .access ⟨descOf u .ibuf true, p.2, p.1.toNat⟩) ++ rest) :
    core.run x.length s = .next ((s.withIbuf u ((s.ibuf u).writeList i x)).withAgenda rest) := by
  induction x generalizing s i with
  | nil =>
    have hs : s = s.withAgenda rest := congrArg s.withAgenda ha
    cases u <;> exact congrArg Host.Outcome.next hs
  | cons b bs ih =>
    rw [List.length_cons] at hx
    rw [List.zipIdx_cons, List.map_cons, List.cons_append] at ha
    rw [List.length_cons, run_succ (step_hwrIbuf hb (by omega) ha), ih (i + 1) _ _ rfl]
    · cases u <;> rfl
    · rw [State.busy_withAgenda, State.withIbuf_busy, hb]
    · rw [State.withAgenda_cfg, State.withIbuf_cfg]
      omega

/-- The unit with its message, started. -/
def State.loaded (s : State) (u : UnitId) (x : List Byte) : State :=
  ((s.withIbuf u ((s.ibuf u).writeList 0 x)).writeIlen u x.length).start u

/-- The accesses of one call load the message and start the unit. -/
theorem run_hostCall {s : State} {u : UnitId} {x : List Byte} {rest : List Event} (hb : s.busy u = false)
    (hx : x.length < s.cfg.inEntries u) (ha : s.agenda = (hostCall u x).map .access ++ rest) :
    core.run (x.length + 2) s = .next ((s.loaded u x).withAgenda rest) := by
  rw [hostCall, List.map_append, List.map_map, List.append_assoc] at ha
  rw [run_add (run_hwrIbufs x 0 hb (by omega) ha), run_succ (step_hwrIlen _ rfl), run_succ (step_start _ rfl), run_zero]
  · cases u <;> rfl
  · rw [State.busy_withAgenda, State.writeIlen_busy, State.busy_withAgenda, State.withIbuf_busy, hb]
  · rw [State.busy_withAgenda, State.withIbuf_busy, hb]

/-- One call: its accesses and then the unit's turns, at widths with which its operations complete. -/
theorem Transaction.exists_run_hostCall {u : UnitId} {n : Nat} {At : Nat → State → Prop} {Ended : State → Prop}
    (T : Transaction u n At Ended) {s : State} {x : List Byte} {rest : List Event} (h : At 0 (s.loaded u x))
    (hprog : ∀ {k t}, At k t → t.cfg = s.cfg → ∃ t', Machine.exec (t.opOf u) t = .next t') (hb : s.busy u = false)
    (hx : x.length < s.cfg.inEntries u)
    (ha : s.agenda = (hostCall u x).map .access ++ List.replicate n (.seq u) ++ rest) :
    ∃ t : State, core.run (x.length + 2 + n) s = .next t ∧ Ended t ∧ (s.loaded u x).Frame t u ∧ t.agenda = rest := by
  rw [List.append_assoc] at ha
  have hcfg : (s.loaded u x).cfg = s.cfg := by
    rw [State.loaded, State.start_cfg, State.writeIlen_cfg, State.withIbuf_cfg]
  obtain ⟨t, hrun, hend, hf, hag⟩ := T.exists_run_end hprog
    (T.congr ((s.loaded u x).sameUnit_withAgenda (List.replicate n (.seq u) ++ rest) u) h) hcfg rfl
  exact ⟨t, (run_add (run_hostCall hb hx ha)).trans hrun, hend, ⟨hf.cfg, hf.hrdata, hf.enc, hf.dec,
    hf.input.congr_left rfl rfl⟩, hag⟩

theorem Memory.holds_writeList_zero (m : Memory) (x : List Byte) : (m.writeList 0 x).Holds x :=
  Memory.holds_writeList (l := []) nofun x

theorem State.loaded_enc_running (s : State) {x : List Byte} (hx : x.length < 2 ^ s.cfg.encLenW) :
    (s.loaded .enc x).enc.Running x 0 :=
  EncUnit.running_zero rfl (Nat.mod_eq_of_lt hx) (Memory.holds_writeList_zero _ x) rfl rfl

theorem State.loaded_dec_running (s : State) {x : List Byte} (hx : x.length < 2 ^ s.cfg.decLenW) :
    (s.loaded .dec x).dec.Running x 0 :=
  .scan (DecUnit.scanning_zero rfl rfl rfl (Nat.mod_eq_of_lt hx) (Memory.holds_writeList_zero _ x) rfl rfl)

/-- HRD.OBUF returns the entries of a sequence that a unit has as its result. -/
theorem exec_hrdObuf_of_holds {t : State} {u : UnitId} {l : List Byte} (hd : t.done u = true)
    (hl : t.olen u = l.length) (ho : (t.obuf u).Holds l) {j : Nat} {b : Byte} (hb : l[j]? = some b) :
    exec (.hrdObuf u j) t = .next { t with hrdata := b.toNat } := by
  obtain ⟨hj, -⟩ := List.getElem?_eq_some_iff.mp hb
  exact exec_hrdObuf_of_stored hd (hl ▸ hj) (ho.read hb)

/-- Settles O58: the accesses load and start the unit, and its transaction runs to its end. -/
theorem hostCallReturnsTheFunction : Obligations.HostCallReturnsTheFunction := by
  intro s x rest
  refine ⟨fun hb hx ha => ?_, fun hb hx ha => ?_⟩
  · obtain ⟨t, hrun, hend, hf, hag⟩ := (encTransaction x).exists_run_hostCall (s.loaded_enc_running hx)
      (fun h hc => h.progress (hc ▸ hx)) hb hx ha
    exact ⟨t, hrun, hend.state, hend.olen, hf.dec rfl, hag,
      fun j b => exec_hrdObuf_of_holds (u := .enc) (beq_iff_eq.mpr hend.state) hend.olen hend.output⟩
  · obtain ⟨t, hrun, hend, hf, hag⟩ := (decTransaction x).exists_run_hostCall (s.loaded_dec_running hx)
      (fun h hc => h.progress (hc ▸ hx)) hb hx ha
    refine ⟨t, hrun, hf.enc rfl, hag, fun p hp => ?_, hend.error⟩
    obtain ⟨hs, -, hl, ho⟩ := hend.ok p hp
    exact ⟨hs, hl, fun j b => exec_hrdObuf_of_holds (u := .dec) (beq_iff_eq.mpr hs) hl ho⟩

end Sys2Proof.Machine
end
